-- ==== Sys2Proof/Word.lean ====
section
/-! DEFINITION. The widths the block's values have: bytes, 32-bit words, 9-bit counts, 2-bit selectors. -/

namespace Sys2Proof

/-- A byte of memory, and a field element: bit `i` is the coefficient of `x^i` (00_scope.md R9). -/
abbrev Byte := BitVec 8

/-- A 32-bit register value, command word or host address (00_scope.md R6, R8). -/
abbrev Word := BitVec 32

/-- A 9-bit count: a work matrix's dimension or a configured shard count (10_state.md R38, R41). -/
abbrev Count := BitVec 9

/-- A 2-bit matrix selector, naming `MAT[0]` to `MAT[3]` (30_encoding.md R93). -/
abbrev MatSel := BitVec 2

end Sys2Proof
end

