-- ==== Sys2Proof/Config.lean ====
section
/-! DEFINITION. What an implementation fixes (the parameters of 00_scope.md R6) and the free values: constants
without a body, for what the spec leaves unspecified (93_implementation_defined.md). -/

namespace Sys2Proof

/-- The implementation parameters of 00_scope.md R6. `T_INIT` and `T_CMD` are times and are held by the schedule
of moves instead (notes/assumptions/5.md). -/
structure Config where
  /-- `FIELD_POLY`: the irreducible polynomial, bit 8 set. -/
  fieldPoly : BitVec 9
  /-- `FIELD_GEN`: the multiplicative generator. -/
  fieldGen : Byte
  /-- `SHARD_MAXLEN`: bytes per shard slot. -/
  shardMaxLen : Nat
  /-- `BASE`: the host address of offset 0. -/
  base : Word
  deriving DecidableEq, Repr

/-- The defaults of 00_scope.md R6. DESIGN CHOICE: `BASE` has no default there; 0 stands here, unsafe for a claim
that rests on it (notes/assumptions/2.md). No claim should: state it for every configuration. -/
def Config.default : Config :=
  { fieldPoly := 0x11D, fieldGen := 0x02, shardMaxLen := 4096, base := 0 }

/-- FREE VALUE (93_implementation_defined.md U3): the byte at `offset` that nothing has written since the reset
numbered `era`. Safe (notes/assumptions/6.md). -/
opaque Config.freeByte : (era offset : Nat) → Byte

/-- FREE VALUE (93_implementation_defined.md U4): a byte of `GEN` outside the configured matrix, from one
CODEC_NEW or reset to the next. Safe (notes/assumptions/7.md). -/
opaque Config.freeGenByte : (era offset : Nat) → Byte

/-- FREE VALUE (93_implementation_defined.md U1, U2): the data of the `draw`-th unspecified read. Safe
(notes/assumptions/8.md). -/
opaque Config.freeRead : (draw : Nat) → Word

/-- FREE VALUE (notes/assumptions/11.md): the entry `(r, c)` of what stands for the inverse of a singular top
block, given as its rows, which 42_matrix.md R170 says never occurs. Safe. -/
opaque Config.freeInverse : (top : List (List Byte)) → (r c : Nat) → Byte

end Sys2Proof
end

