-- ==== Sys2Proof/Machine/State.lean ====
section
/-! DEFINITION. The state of the block (10_state.md), the inputs the outside world gives it, its outputs, and the
reasons a step can stop. -/

namespace Sys2Proof.Machine

/-- The fields of `STATUS`, 10_state.md R25. The host reads them as one word (`Status.word`); it never writes
them. -/
structure Status where
  /-- Bit 0: a command is accepted and not complete (R26). -/
  busy : Bool
  /-- Bit 1: the log/exp tables are filled (R27); also the whole of LutInit's state (R50). -/
  ready : Bool
  /-- Bit 2: completed and not acknowledged (R28). -/
  done : Bool
  /-- Bit 3: the last completed command ended with an error (R29). -/
  err : Bool
  /-- Bit 4: a command ended with `DIMENSION_MISMATCH` (R30). -/
  fatal : Bool
  /-- Bit 5: a codec configuration is held (R31). -/
  cfgValid : Bool
  /-- Bit 6: a host write was dropped since the last acceptance (R32). -/
  wdrop : Bool
  deriving DecidableEq, Repr

/-- The error codes of 60_exceptions.md R240, by name. -/
inductive ErrorCode where
  | ok
  | invalidShardCount
  | invalidDataSize
  | insufficientShards
  | divideByZero
  | singularMatrix
  | reconstructionFailed
  | dimensionMismatch
  | matrixConstruction
  | illegalCommand
  | notConfigured
  | invalidIndex
  deriving DecidableEq, Repr

/-- The size of a host access: 1, 2 or 4 bytes (20_memory.md R61). -/
inductive Size where
  | byte1
  | half2
  | word4
  deriving DecidableEq, Repr

/-- A host access (20_memory.md R61) at a 32-bit host address. A write of `n` bytes carries its value in the low
`8n` bits of `value`; the other bits are not part of the access. -/
inductive Access where
  | read (addr : Word) (size : Size)
  | write (addr : Word) (size : Size) (value : Word)
  deriving DecidableEq, Repr

/-- The steps of the model, 70_reset_and_hazards.md R282. -/
inductive Move where
  /-- A host access. -/
  | host (a : Access)
  /-- The Core executes the accepted command (40_control.md R112). -/
  | core
  /-- LutInit fills the tables (41_field.md R134). -/
  | lutInit
  /-- Reset (R270). -/
  | reset
  deriving DecidableEq, Repr

/-- The response to a host access, 20_memory.md R61 and R67. Read data of `n` bytes stands in the low `8n` bits,
the others 0. -/
inductive Response where
  | readOk (data : Word)
  | writeOk
  | readError (data : Word)
  | writeError
  deriving DecidableEq, Repr

/-- The host-program faults of 60_exceptions.md R257. They are marks on the run: none changes the block's state
beyond `WDROP`, and the run goes on. -/
inductive HostMark where
  /-- An access got `ERROR` (20_memory.md R67). -/
  | busError
  /-- A write was dropped (40_control.md R110, R115). -/
  | droppedWrite
  /-- A read returned an unspecified value (40_control.md R116, 20_memory.md R80). -/
  | unspecifiedRead
  deriving DecidableEq, Repr

/-- The whole state. Registers hold their implemented bits (10_state.md R23). -/
structure State where
  /-- The parameters of 00_scope.md R6; no step changes them. -/
  cfg : Config
  /-- `STATUS`, 10_state.md R25. -/
  status : Status
  /-- `CTRL.IRQ_EN`, R33. -/
  irqEn : Bool
  /-- `ERRCODE[7:0]`, R35. -/
  errcode : Byte
  /-- `RESULT[7:0]`, R36. -/
  result : Byte
  /-- `ARG0`, R37. -/
  arg0 : Word
  /-- `ARG1`, R37. -/
  arg1 : Word
  /-- `CFG_K`, R38. -/
  cfgK : Count
  /-- `CFG_M`, R38. -/
  cfgM : Count
  /-- `PRESENT[0..7]`, R40. -/
  present : Vector Word 8
  /-- `MAT_ROWS[0..3]`, R41. -/
  matRows : Vector Count 4
  /-- `MAT_COLS[0..3]`, R41. -/
  matCols : Vector Count 4
  /-- `SLOT_LEN[0..255]`, R42. -/
  slotLen : Vector Word 256
  /-- `CUR_CMD`, R49. -/
  curCmd : Word
  /-- The byte memories `IDX`, `EXP_LUT`, `LOG_LUT`, `GEN`, `MAT[i].data`, `SHARD` (R44 to R48), keyed by offset
  from `BASE`: strictly rising offsets, an absent offset holds no value. -/
  mem : List Host.Cell
  /-- MODEL'S OWN: the moves to come, oldest first (notes/assumptions/4.md). -/
  moves : List Move
  /-- MODEL'S OWN: the responses given, newest first (00_scope.md R13). -/
  responses : List Response
  /-- MODEL'S OWN: the host-program faults seen, newest first (60_exceptions.md R257). -/
  marks : List HostMark
  /-- MODEL'S OWN: how many unspecified reads have drawn a free value. -/
  draws : Nat
  /-- MODEL'S OWN: how many resets there have been; the key of unwritten bytes. -/
  memEra : Nat
  /-- MODEL'S OWN: the key of the unspecified bytes of `GEN`. -/
  genEra : Nat
  deriving DecidableEq, Repr

/-- Why a run stops at a step. -/
inductive Fault where
  /-- Raised by `step` for a host access whose address is outside `[BASE, BASE + 2^25)`: it "is not this block's
  transaction" (20_memory.md R66). Safe: the block has no behaviour there (notes/assumptions/10.md). -/
  | outsideWindow
  deriving DecidableEq, Repr

/-- Why a step has no meaning. -/
inductive Refusal where
  /-- An instruction whose arm of `exec` has no meaning yet. Safe. -/
  | notModelled (mnemonic : String)
  /-- Raised by `step` for parameters that the spec says a model must refuse (41_field.md R131,
  93_implementation_defined.md U8 to U11). Safe (notes/assumptions/3.md). -/
  | illegalConfig
  deriving DecidableEq, Repr

/-- The state after reset with parameters `cfg`, 10_state.md R52 and 70_reset_and_hazards.md R271; the model's own
fields are at the values of notes/assumptions/18.md. -/
def State.resetWith (cfg : Config) : State :=
  { cfg := cfg
    status := { busy := false, ready := false, done := false, err := false, fatal := false, cfgValid := false,
                wdrop := false }
    irqEn := false
    errcode := 0
    result := 0
    arg0 := 0
    arg1 := 0
    cfgK := 0
    cfgM := 0
    present := Vector.replicate 8 0
    matRows := Vector.replicate 4 0
    matCols := Vector.replicate 4 0
    slotLen := Vector.replicate 256 0
    curCmd := 0
    mem := []
    moves := []
    responses := []
    marks := []
    draws := 0
    memEra := 0
    genEra := 0 }

/-- The machine right after reset, with the default parameters. -/
def State.reset : State := State.resetWith Config.default

end Sys2Proof.Machine
end

