-- ==== Sys2Proof/Machine/Flags.lean ====
section
/-! DEFINITION. Every computation on `STATUS` and the error codes: the status word, what acceptance, completion, a
dropped write, the acknowledge and LutInit do to its flags, and the interrupt level. -/

namespace Sys2Proof.Machine

/-- The number of an error code, 60_exceptions.md R240. -/
def ErrorCode.code : ErrorCode → Byte
  | .ok => 0x00
  | .invalidShardCount => 0x01
  | .invalidDataSize => 0x02
  | .insufficientShards => 0x03
  | .divideByZero => 0x04
  | .singularMatrix => 0x05
  | .reconstructionFailed => 0x06
  | .dimensionMismatch => 0x07
  | .matrixConstruction => 0x08
  | .illegalCommand => 0x09
  | .notConfigured => 0x0A
  | .invalidIndex => 0x0B

/-- One flag at its bit. -/
def flagBit (b : Bool) (i : Nat) : Word := (BitVec.ofBool b).setWidth 32 <<< i

/-- `STATUS` as the host reads it: bits 6:0, bits 31:7 zero (10_state.md R25). -/
def Status.word (s : Status) : Word :=
  flagBit s.busy 0 ||| flagBit s.ready 1 ||| flagBit s.done 2 ||| flagBit s.err 3 ||| flagBit s.fatal 4 |||
    flagBit s.cfgValid 5 ||| flagBit s.wdrop 6

/-- The flags at acceptance, 40_control.md R111. -/
def Status.onAccept (s : Status) : Status :=
  { s with busy := true, done := false, err := false, wdrop := false }

/-- The flags at completion with `code`, 40_control.md R113: only `0x07` sets `FATAL`. -/
def Status.onComplete (s : Status) (code : Byte) : Status :=
  { s with err := code != 0, done := true, busy := false, fatal := s.fatal || code == 0x07 }

/-- The flags after a dropped write, 40_control.md R110 and R115. -/
def Status.onDrop (s : Status) : Status := { s with wdrop := true }

/-- `CTRL.ACK` written with 1 clears `DONE` and nothing else (40_control.md R117, 10_state.md R29). -/
def Status.onAck (s : Status) (ack : Bool) : Status := { s with done := s.done && !ack }

/-- LutInit has finished, 41_field.md R134. -/
def Status.onReady (s : Status) : Status := { s with ready := true }

/-- A successful CODEC_NEW, 43_codec.md R201. -/
def Status.onConfigured (s : Status) : Status := { s with cfgValid := true }

/-- A `CMD` write is accepted now: not busy, ready, not fatal (40_control.md R110). -/
def Status.accepts (s : Status) : Bool := !s.busy && s.ready && !s.fatal

/-- The level of the `irq` output, 60_exceptions.md R246. -/
def State.irq (s : State) : Bool := s.status.done && s.irqEn

end Sys2Proof.Machine
end

