-- ==== Sys2Proof/Machine/Ops.lean ====
section
/-! DEFINITION. The shared operations over memory and registers: reading and storing bytes, the register updates a
command makes, acceptance and completion of a command, and reset. -/

namespace Sys2Proof.Machine

/-! ## Memory: a canonical list of (offset, byte) pairs -/

/-- The byte memories, keyed by offset. -/
abbrev Memory := List Host.Cell

/-- The byte listed at an offset; none where nothing has been written. -/
def Memory.read : Memory → Nat → Option Byte
  | [], _ => none
  | (x, b) :: rest, a => if x = a then some b else Memory.read rest a

/-- Bytes laid out from an offset up. -/
def Memory.cellsFrom : Nat → List Byte → Memory
  | _, [] => []
  | a, b :: bs => (a, b) :: Memory.cellsFrom (a + 1) bs

/-- Store consecutive bytes from offset `a`, all in one step (20_memory.md R65, 42_matrix.md R162). -/
def Memory.store (m : Memory) (a : Nat) (bs : List Byte) : Memory :=
  m.filter (fun c => c.1 < a) ++ (Memory.cellsFrom a bs ++ m.filter (fun c => a + bs.length ≤ c.1))

/-- The canonical form: strictly rising offsets. An unlisted offset holds no value, so no entry can equal what an
unlisted offset reads as, and equal memories are equal lists. -/
def Memory.wf : Memory → Bool
  | [] => true
  | [_] => true
  | (x, _) :: (y, c) :: rest => x < y && Memory.wf ((y, c) :: rest)

/-! ## Where the memories lie (20_memory.md R60) -/

/-- `IDX`. -/
abbrev idxBase : Nat := 0x1000
/-- `EXP_LUT`. -/
abbrev expBase : Nat := 0x1100
/-- `LOG_LUT`. -/
abbrev logBase : Nat := 0x1200
/-- `GEN`. -/
abbrev genBase : Nat := 0x10000
/-- The end of `GEN`. -/
abbrev genEnd : Nat := 0x20000
/-- `MAT[i].data`. -/
def matBase (i : MatSel) : Nat := 0x20000 + i.toNat * 0x10000
/-- `SHARD_BASE(s)`, 10_state.md R48. -/
def State.shardBase (s : State) (slot : Nat) : Nat := 0x1000000 + slot * s.cfg.shardMaxLen

/-! ## Reading -/

/-- `data_shards` as a number (43_codec.md R200). -/
def State.k (s : State) : Nat := s.cfgK.toNat
/-- `parity_shards` as a number. -/
def State.m (s : State) : Nat := s.cfgM.toNat
/-- `n = k + m`. -/
def State.n (s : State) : Nat := s.k + s.m

/-- The offset is a byte of `GEN` that holds no element of the configured generator matrix: its value is
unspecified (10_state.md R46). -/
def State.genUnspecified (s : State) (a : Nat) : Bool :=
  decide (genBase ≤ a) && decide (a < genEnd) && !(s.status.cfgValid && decide (a - genBase < s.n * s.k))

/-- The byte at offset `a` has a specified value: it is listed, and not an unspecified byte of `GEN`. -/
def State.specified (s : State) (a : Nat) : Bool := !s.genUnspecified a && (Memory.read s.mem a).isSome

/-- THE read of one byte of memory, by commands and by the host. A byte that nothing has written holds one
unspecified value until the next reset (20_memory.md R80); the same holds of `GEN` outside the configured matrix,
until the next CODEC_NEW or reset (10_state.md R46). -/
def State.byte (s : State) (a : Nat) : Byte :=
  if s.genUnspecified a then Config.freeGenByte s.genEra a
  else (Memory.read s.mem a).getD (Config.freeByte s.memEra a)

/-- `IDX[j]`, 10_state.md R44. -/
def State.idx (s : State) (j : Nat) : Byte := s.byte (idxBase + j)
/-- `EXP[i]`, 10_state.md R45. -/
def State.exp (s : State) (i : Nat) : Byte := s.byte (expBase + i)
/-- `LOG[a]` as the index it is (41_field.md R133). -/
def State.log (s : State) (a : Byte) : Nat := (s.byte (logBase + a.toNat)).toNat
/-- `GEN(r, c)`, 43_codec.md R200. -/
def State.gen (s : State) (r c : Nat) : Byte := s.byte (genBase + (r * s.k + c))
/-- `SHARD[slot][c]`, 10_state.md R48. -/
def State.shard (s : State) (slot c : Nat) : Byte := s.byte (s.shardBase slot + c)
/-- `MAT_ROWS[i]`, 10_state.md R41. -/
def State.rows (s : State) (i : MatSel) : Nat := (s.matRows.get i.toFin).toNat
/-- `MAT_COLS[i]`, 10_state.md R41. -/
def State.cols (s : State) (i : MatSel) : Nat := (s.matCols.get i.toFin).toNat
/-- `SLOT_LEN[slot]`, 10_state.md R42; 0 for a number that is no slot, which no accepted configuration reaches
(notes/assumptions/12.md). -/
def State.len (s : State) (slot : Nat) : Nat := (s.slotLen[slot]?.getD 0).toNat
/-- Slot `slot` is present: `PRESENT[slot div 32][slot mod 32]` (10_state.md R40); false for a number that is no
slot (notes/assumptions/12.md). -/
def State.isPresent (s : State) (slot : Nat) : Bool := (s.present[slot / 32]?.getD 0).getLsbD (slot % 32)

/-! ## Writing -/

/-- Store consecutive bytes. -/
def State.store (s : State) (a : Nat) (bs : List Byte) : State := { s with mem := Memory.store s.mem a bs }

/-- `RESULT <- zext_32(r)`, 41_field.md R140 to R143. -/
def State.setResult (s : State) (r : Byte) : State := { s with result := r }

/-- The dimensions of `MAT[i]`, 42_matrix.md R162. -/
def State.setDims (s : State) (i : MatSel) (rows cols : Nat) : State :=
  { s with matRows := s.matRows.set i.toFin (BitVec.ofNat 9 rows)
           matCols := s.matCols.set i.toFin (BitVec.ofNat 9 cols) }

/-- `SLOT_LEN[slot] <- len`, 43_codec.md R204 and R206. -/
def State.setLen (s : State) (slot len : Nat) : State :=
  { s with slotLen := s.slotLen.setIfInBounds slot (BitVec.ofNat 32 len) }

/-- Write a shard's bytes into its slot and set the slot's length (43_codec.md R204, R206). -/
def State.putShard (s : State) (slot len : Nat) (bytes : List Byte) : State :=
  (s.store (s.shardBase slot) bytes).setLen slot len

/-- The shards a codec command writes, as (slot, bytes) pairs, each `len` bytes long, one after the other. The slots
are distinct, so the order does not matter. -/
def State.putShards (s : State) (len : Nat) (shards : List (Nat × List Byte)) : State :=
  shards.foldl (fun t p => t.putShard p.1 len p.2) s

/-- `CFG_K`, `CFG_M`, `CFG_VALID` of a successful CODEC_NEW (43_codec.md R201). The unspecified bytes of `GEN` are
new ones (10_state.md R46). -/
def State.configure (s : State) (k m : Nat) : State :=
  { s with cfgK := BitVec.ofNat 9 k, cfgM := BitVec.ofNat 9 m, status := s.status.onConfigured
           genEra := s.genEra + 1 }

/-! ## A command's life (40_control.md) -/

/-- Acceptance of the word `w`, R111; no other state changes. -/
def State.accept (s : State) (w : Word) : State :=
  { s with curCmd := w, status := s.status.onAccept, errcode := 0 }

/-- `complete(code)`, R113. -/
def State.complete (s : State) (e : ErrorCode) : State :=
  { s with errcode := e.code, status := s.status.onComplete e.code, curCmd := 0 }

/-- The end of every command, R112: with code 0 its writes `t` are applied; with an error nothing is written but
the completion status (60_exceptions.md R243). -/
def finish (s : State) (r : Except ErrorCode State) : Host.Outcome State Fault Refusal :=
  match r with
  | .ok t => .next (t.complete .ok)
  | .error e => .next (s.complete e)

/-! ## Host marks and reset -/

/-- Mark a host-program fault (60_exceptions.md R257). -/
def State.mark (s : State) (h : HostMark) : State := { s with marks := h :: s.marks }

/-- Give a host-bus response (20_memory.md R61). -/
def State.respond (s : State) (r : Response) : State := { s with responses := r :: s.responses }

/-- A dropped write: `WDROP <- 1` and nothing else of the block; the host program has a fault (40_control.md R110,
R115; 60_exceptions.md R257). -/
def State.drop (s : State) : State := { s with status := s.status.onDrop }.mark .droppedWrite

/-- The reset step, 70_reset_and_hazards.md R271: every register as after reset, the memories unspecified anew. The
parameters, the schedule and the record of the run stay; the two eras advance (notes/assumptions/21.md). -/
def State.doReset (s : State) : State :=
  { State.resetWith s.cfg with
      moves := s.moves, responses := s.responses, marks := s.marks, draws := s.draws
      memEra := s.memEra + 1, genEra := s.genEra + 1 }

end Sys2Proof.Machine
end

