-- ==== Sys2Proof/Machine/Operands.lean ====
section
/-! DEFINITION. Operand assembly (30_encoding.md R92): the scalars of `ARG0` and `ARG1`, the row list, the matrices
and the presence and length checks over shard slots. -/

namespace Sys2Proof.Machine

/-- `a = ARG0[7:0]` of a field command; the upper bits are ignored. -/
def State.elemA (s : State) : Byte := s.arg0.extractLsb' 0 8

/-- `b = ARG1[7:0]` of a field command; the upper bits are ignored. -/
def State.elemB (s : State) : Byte := s.arg1.extractLsb' 0 8

/-- `ARG0` as a 32-bit unsigned count, all bits significant. -/
def State.count0 (s : State) : Nat := s.arg0.toNat

/-- `ARG1` as a 32-bit unsigned count, all bits significant. -/
def State.count1 (s : State) : Nat := s.arg1.toNat

/-- The row list `IDX[0 .. t-1]` (42_matrix.md R172). -/
def State.rowList (s : State) (t : Nat) : List Nat := (List.range t).map fun j => (s.idx j).toNat

/-- A matrix as its rows. Element `(r, c)` is entry `c` of row `r` (00_scope.md R11). -/
abbrev Mat := List (List Byte)

/-- Element `(r, c)`. -/
def Mat.entry (M : Mat) (r c : Nat) : Byte := (M.getD r []).getD c 0

/-- The `rows × cols` matrix with element `f r c` at `(r, c)`. -/
def Mat.tabulate (rows cols : Nat) (f : Nat → Nat → Byte) : Mat :=
  (List.range rows).map fun r => (List.range cols).map fun c => f r c

/-- A work matrix is valid as a source, 42_matrix.md R160. -/
def State.validMat (s : State) (i : MatSel) : Bool :=
  decide (1 ≤ s.rows i ∧ s.rows i ≤ 256 ∧ 1 ≤ s.cols i ∧ s.cols i ≤ 256)

/-- Element `(r, c)` of `MAT[i]`, `MAT[i].data[r * MAT_COLS[i] + c]` (10_state.md R47). -/
def State.matElem (s : State) (i : MatSel) (r c : Nat) : Byte := s.byte (matBase i + (r * s.cols i + c))

/-- `MAT[i]` read whole. -/
def State.readMat (s : State) (i : MatSel) : Mat := Mat.tabulate (s.rows i) (s.cols i) (s.matElem i)

/-- Row-major bytes of a `rows × cols` matrix: byte `o` is element `(o div cols, o mod cols)` (42_matrix.md R162). -/
def Mat.bytes (M : Mat) (rows cols : Nat) : List Byte :=
  (List.range (rows * cols)).map fun o => M.entry (o / cols) (o % cols)

/-- The destination write of a matrix command, 42_matrix.md R162. -/
def State.writeMat (s : State) (d : MatSel) (rows cols : Nat) (R : Mat) : State :=
  (s.store (matBase d) (R.bytes rows cols)).setDims d rows cols

/-- `len_ok(S)` of 43_codec.md R203, for a non-empty list of slots. The rule says nothing of an empty list, which
no accepted configuration gives; it is no valid list here (notes/assumptions/12.md). -/
def State.lenOk (s : State) : List Nat → Bool
  | [] => false
  | first :: rest =>
    decide (1 ≤ s.len first ∧ s.len first ≤ s.cfg.shardMaxLen) && rest.all fun x => s.len x == s.len first

/-- The present slots among `0 .. n-1`, increasing (43_codec.md R205). -/
def State.presentSlots (s : State) : List Nat := (List.range s.n).filter s.isPresent

end Sys2Proof.Machine
end

