-- ==== Sys2Proof/Machine/Bus.lean ====
section
/-! DEFINITION. The host bus: the address map (20_memory.md R60), the registers (10_state.md R22 to R43), and the
effect and response of every host access (20_memory.md R61 to R68; 40_control.md R110 to R117, R122, R123). -/

namespace Sys2Proof.Machine

/-- The number of bytes of an access. -/
def Size.bytes : Size → Nat
  | .byte1 => 1
  | .half2 => 2
  | .word4 => 4

/-! ## The address map -/

/-- The regions of 20_memory.md R60. -/
inductive Region where
  | registers
  | idx
  | expLut
  | logLut
  | gen
  | mat (i : MatSel)
  | shard
  | unmapped
  deriving DecidableEq, Repr

/-- The region of an offset in the window, 20_memory.md R60. -/
def regionOf (cfg : Config) (off : Nat) : Region :=
  if off < 0x1000 then .registers
  else if off < 0x1100 then .idx
  else if off < 0x1200 then .expLut
  else if off < 0x1300 then .logLut
  else if off < 0x10000 then .unmapped
  else if off < 0x20000 then .gen
  else if off < 0x60000 then .mat (BitVec.ofNat 2 ((off - 0x20000) / 0x10000))
  else if off < 0x1000000 then .unmapped
  else if off < 0x1000000 + 256 * cfg.shardMaxLen then .shard
  else .unmapped

/-- A region of bytes the host may write (20_memory.md R60). -/
def Region.isWritable : Region → Bool
  | .idx => true
  | .mat _ => true
  | .shard => true
  | .registers => false
  | .expLut => false
  | .logLut => false
  | .gen => false
  | .unmapped => false

/-- The host address is in the block's window `[BASE, BASE + 2^25)` (20_memory.md R60, R66). -/
def inWindow (cfg : Config) (addr : Word) : Bool :=
  decide (cfg.base.toNat ≤ addr.toNat ∧ addr.toNat < cfg.base.toNat + 2 ^ 25)

/-- The offset of a host address in the window. -/
def offsetOf (cfg : Config) (addr : Word) : Nat := addr.toNat - cfg.base.toNat

/-- The access gets `ERROR`: misaligned (20_memory.md R62), narrow in the register region (R63), or unmapped
(R66). -/
def busError (cfg : Config) (off : Nat) (size : Size) : Bool :=
  decide (off % size.bytes ≠ 0) || (regionOf cfg off == .registers && size != .word4) ||
    regionOf cfg off == .unmapped

/-! ## Registers -/

/-- The registers of 10_state.md R22. -/
inductive Reg where
  | id
  | status
  | ctrl
  | cmd
  | errcode
  | result
  | arg0
  | arg1
  | cfgK
  | cfgM
  | paramMaxlen
  | present (w : Fin 8)
  | matRows (i : Fin 4)
  | matCols (i : Fin 4)
  | slotLen (slot : Fin 256)
  | reserved
  deriving DecidableEq, Repr

/-- The register at a 4-byte aligned offset below `0x1000`, 10_state.md R22. -/
def regAt (off : Nat) : Reg :=
  if off = 0x000 then .id
  else if off = 0x004 then .status
  else if off = 0x008 then .ctrl
  else if off = 0x00C then .cmd
  else if off = 0x010 then .errcode
  else if off = 0x014 then .result
  else if off = 0x018 then .arg0
  else if off = 0x01C then .arg1
  else if off = 0x020 then .cfgK
  else if off = 0x024 then .cfgM
  else if off = 0x028 then .paramMaxlen
  else if 0x040 ≤ off ∧ off < 0x060 then .present (Fin.ofNat 8 ((off - 0x040) / 4))
  else if 0x080 ≤ off ∧ off < 0x0A0 then
    if (off - 0x080) % 8 = 0 then .matRows (Fin.ofNat 4 ((off - 0x080) / 8))
    else .matCols (Fin.ofNat 4 ((off - 0x080) / 8))
  else if 0x400 ≤ off ∧ off < 0x800 then .slotLen (Fin.ofNat 256 ((off - 0x400) / 4))
  else .reserved

/-- The value of a register as a host read returns it while the block is not busy: the implemented bits, 0
elsewhere (10_state.md R23 to R43). -/
def State.readReg (s : State) : Reg → Word
  | .id => 0x47463801
  | .status => s.status.word
  | .ctrl => flagBit s.irqEn 0
  | .cmd => 0
  | .errcode => s.errcode.setWidth 32
  | .result => s.result.setWidth 32
  | .arg0 => s.arg0
  | .arg1 => s.arg1
  | .cfgK => s.cfgK.setWidth 32
  | .cfgM => s.cfgM.setWidth 32
  | .paramMaxlen => BitVec.ofNat 32 s.cfg.shardMaxLen
  | .present w => s.present.get w
  | .matRows i => (s.matRows.get i).setWidth 32
  | .matCols i => (s.matCols.get i).setWidth 32
  | .slotLen slot => s.slotLen.get slot
  | .reserved => 0

/-- The registers whose read is specified while the block is busy, 40_control.md R116. -/
def Reg.readableBusy : Reg → Bool
  | .id => true
  | .status => true
  | .ctrl => true
  | .cmd => true
  | .errcode => true
  | .paramMaxlen => true
  | .reserved => true
  | .result => false
  | .arg0 => false
  | .arg1 => false
  | .cfgK => false
  | .cfgM => false
  | .present _ => false
  | .matRows _ => false
  | .matCols _ => false
  | .slotLen _ => false

/-- A host write to a register other than `CTRL` and `CMD`, while not busy: a RW register stores the bits it
implements; RO and reserved ones ignore it (10_state.md R23). -/
def State.writeReg (s : State) (r : Reg) (v : Word) : State :=
  match r with
  | .arg0 => { s with arg0 := v }
  | .arg1 => { s with arg1 := v }
  | .present w => { s with present := s.present.set w v }
  | .matRows i => { s with matRows := s.matRows.set i (v.setWidth 9) }
  | .matCols i => { s with matCols := s.matCols.set i (v.setWidth 9) }
  | .slotLen slot => { s with slotLen := s.slotLen.set slot v }
  | .id => s
  | .status => s
  | .ctrl => s
  | .cmd => s
  | .errcode => s
  | .result => s
  | .cfgK => s
  | .cfgM => s
  | .paramMaxlen => s
  | .reserved => s

/-! ## Byte order -/

/-- The little-endian composition of bytes, the first the least significant (20_memory.md R64). -/
def composeLE : List Byte → Word
  | [] => 0
  | b :: bs => b.setWidth 32 ||| (composeLE bs <<< 8)

/-- The `n` low bytes of a value, the least significant first (20_memory.md R65). -/
def splitLE (n : Nat) (v : Word) : List Byte := (List.range n).map fun i => v.extractLsb' (8 * i) 8

/-- The offsets of an access. -/
def offsets (off : Nat) (size : Size) : List Nat := (List.range size.bytes).map fun i => off + i

/-! ## Reads -/

/-- The read returns an unspecified value, drawn anew: any but a few registers while busy (40_control.md R116), the
tables before `READY` (R122, 41_field.md R134). -/
def State.readDraws (s : State) (off : Nat) : Bool :=
  match regionOf s.cfg off with
  | .registers => s.status.busy && !(regAt off).readableBusy
  | .expLut => s.status.busy || !s.status.ready
  | .logLut => s.status.busy || !s.status.ready
  | .idx => s.status.busy
  | .gen => s.status.busy
  | .mat _ => s.status.busy
  | .shard => s.status.busy
  | .unmapped => false

/-- The value a read that does not draw returns: the register, or the bytes composed (20_memory.md R64). -/
def State.readValue (s : State) (off : Nat) (size : Size) : Word :=
  if regionOf s.cfg off = .registers then s.readReg (regAt off)
  else composeLE ((offsets off size).map s.byte)

/-- A read that does not draw is marked when a byte of it holds no specified value (60_exceptions.md R257,
20_memory.md R80). -/
def State.readMarked (s : State) (off : Nat) (size : Size) : Bool :=
  regionOf s.cfg off != .registers && (offsets off size).any fun a => !s.specified a

/-- The low `8n` bits of a free value. -/
def drawnData (draw : Nat) (size : Size) : Word :=
  BitVec.ofNat 32 ((Config.freeRead draw).toNat % 2 ^ (8 * size.bytes))

/-- A host read at an offset of the window: no effect on the block (20_memory.md R70), one response. -/
def State.hostRead (s : State) (off : Nat) (size : Size) : State :=
  if busError s.cfg off size then (s.mark .busError).respond (.readError 0)
  else if s.readDraws off then
    { (s.mark .unspecifiedRead).respond (.readOk (drawnData s.draws size)) with draws := s.draws + 1 }
  else
    (if s.readMarked off size then s.mark .unspecifiedRead else s).respond (.readOk (s.readValue off size))

/-! ## Writes -/

/-- A `CTRL` write, 40_control.md R117. -/
def State.writeCtrl (s : State) (v : Word) : State :=
  { s with irqEn := v.getLsbD 0, status := s.status.onAck (v.getLsbD 1) }

/-- The effect of a write that is not a bus error, in the order of 40_control.md R123. -/
def State.writeEffect (s : State) (off : Nat) (size : Size) (v : Word) : State :=
  if off = 0x008 then s.writeCtrl v
  else if s.status.busy then s.drop
  else if off = 0x00C then (if s.status.accepts then s.accept v else s.drop)
  else if regionOf s.cfg off = .registers then s.writeReg (regAt off) v
  else if (regionOf s.cfg off).isWritable then s.store off (splitLE size.bytes v)
  else s

/-- A host write at an offset of the window: a bus error changes nothing of the block (20_memory.md R67); any
other write gets `OK`. -/
def State.hostWrite (s : State) (off : Nat) (size : Size) (v : Word) : State :=
  if busError s.cfg off size then (s.mark .busError).respond .writeError
  else (s.writeEffect off size v).respond .writeOk

/-- A host access at a host address. Outside the window it is not this block's transaction (20_memory.md R66). -/
def hostStep (a : Access) (s : State) : Host.Outcome State Fault Refusal :=
  match a with
  | .read addr size =>
    if inWindow s.cfg addr then .next (s.hostRead (offsetOf s.cfg addr) size) else .fault .outsideWindow
  | .write addr size v =>
    if inWindow s.cfg addr then .next (s.hostWrite (offsetOf s.cfg addr) size v) else .fault .outsideWindow

end Sys2Proof.Machine
end

