-- ==== Sys2Proof/Syntax.lean ====
section
/-! DEFINITION. The command set `RSC-CORE v1`: one constructor per row of the opcode table (30_encoding.md R94),
and the fields a command word is made of (R91). -/

namespace Sys2Proof

/-- The twelve commands of 30_encoding.md R94. Operands that are not selectors come from `ARG0`, `ARG1` and the
memories at execution (R92), so they are no part of the command. -/
inductive Instr where
  /-- `NOP`, 40_control.md R118. -/
  | nop
  /-- `GF_ADD`, 41_field.md R140. -/
  | gfAdd
  /-- `GF_MUL`, 41_field.md R141. -/
  | gfMul
  /-- `GF_DIV`, 41_field.md R142. -/
  | gfDiv
  /-- `GF_INV`, 41_field.md R143. -/
  | gfInv
  /-- `MAT_GEN mD`, 42_matrix.md R171. -/
  | matGen (d : MatSel)
  /-- `MAT_SUB mD, mA`, 42_matrix.md R172. -/
  | matSub (d a : MatSel)
  /-- `MAT_INV mD, mA`, 42_matrix.md R173. -/
  | matInv (d a : MatSel)
  /-- `MAT_MUL mD, mA, mB`, 42_matrix.md R174. -/
  | matMul (d a b : MatSel)
  /-- `CODEC_NEW`, 43_codec.md R201. -/
  | codecNew
  /-- `ENCODE`, 43_codec.md R204. -/
  | encode
  /-- `RECONSTRUCT`, 43_codec.md R206. -/
  | reconstruct
  deriving DecidableEq, Repr

/-- The five fields of a command word, 30_encoding.md R91; any values at all, so also those of an illegal word. -/
structure CmdFields where
  /-- `OPC`, bits 7:0. -/
  opc : BitVec 8
  /-- `D`, bits 9:8. -/
  d : MatSel
  /-- `A`, bits 11:10. -/
  a : MatSel
  /-- `B`, bits 13:12. -/
  b : MatSel
  /-- `RSV`, bits 31:14. -/
  rsv : BitVec 18
  deriving DecidableEq, Repr

end Sys2Proof
end

