-- ==== Sys2Proof/WellFormed.lean ====
section
/-! DEFINITION. Which field combinations are a legal command (30_encoding.md R94, R96), and the check on an
instruction, whose selectors must name one of the four work matrices (R93). -/

namespace Sys2Proof

/-- Why a field combination is no legal command, 30_encoding.md R96. -/
inductive FieldError where
  /-- An `OPC` value not in R94. -/
  | unassignedOpcode
  /-- `RSV` is not 0. -/
  | reservedBits
  /-- `D` is not 0 where R94 marks it `0`. -/
  | unusedD
  /-- `A` is not 0 where R94 marks it `0`. -/
  | unusedA
  /-- `B` is not 0 where R94 marks it `0`. -/
  | unusedB
  deriving DecidableEq, Repr

/-- Which of the selectors `D`, `A`, `B` the opcode uses, the table of 30_encoding.md R94; none for an unassigned
opcode. -/
def usedSelectors (opc : BitVec 8) : Option (Bool × Bool × Bool) :=
  match opc.toNat with
  | 0x00 | 0x01 | 0x02 | 0x03 | 0x04 => some (false, false, false)
  | 0x10 => some (true, false, false)
  | 0x11 | 0x12 => some (true, true, false)
  | 0x13 => some (true, true, true)
  | 0x20 | 0x21 | 0x22 => some (false, false, false)
  | _ => none

/-- The first check of 30_encoding.md R96 that the fields fail, none for a legal command. (The order names the
reason only; every failure has the same effect, R121.) -/
def CmdFields.error (f : CmdFields) : Option FieldError :=
  match usedSelectors f.opc with
  | none => some .unassignedOpcode
  | some (usesD, usesA, usesB) =>
    if f.rsv ≠ 0 then some .reservedBits
    else if ¬ usesD ∧ f.d ≠ 0 then some .unusedD
    else if ¬ usesA ∧ f.a ≠ 0 then some .unusedA
    else if ¬ usesB ∧ f.b ≠ 0 then some .unusedB
    else none

/-- The fields are those of a legal command (30_encoding.md R96). -/
def CmdFields.wellFormed (f : CmdFields) : Bool := f.error.isNone

/-- The number of work matrices, `NUM_MAT` (00_scope.md R6). -/
def numMat : Nat := 4

/-- Every selector names a work matrix (30_encoding.md R93). The type of a selector makes it so for every term
of `Instr`. -/
def Instr.wellFormed : Instr → Bool
  | .nop => true
  | .gfAdd => true
  | .gfMul => true
  | .gfDiv => true
  | .gfInv => true
  | .matGen d => d.toNat < numMat
  | .matSub d a => d.toNat < numMat && a.toNat < numMat
  | .matInv d a => d.toNat < numMat && a.toNat < numMat
  | .matMul d a b => d.toNat < numMat && a.toNat < numMat && b.toNat < numMat
  | .codecNew => true
  | .encode => true
  | .reconstruct => true

end Sys2Proof
end

