-- ==== Sys2Proof/Decode.lean ====
section
/-! DEFINITION. The decoder, total on every 32-bit word (30_encoding.md R90, R95, R96), and after it the encoder
(R91, R94). -/

namespace Sys2Proof

/-- The fields of a word, 30_encoding.md R91. -/
def CmdFields.ofWord (w : Word) : CmdFields :=
  { opc := w.extractLsb' 0 8, d := w.extractLsb' 8 2, a := w.extractLsb' 10 2, b := w.extractLsb' 12 2,
    rsv := w.extractLsb' 14 18 }

/-- What a word decodes to: a command, or `ILLEGAL` with the reason's name (30_encoding.md R96). -/
inductive Decoded where
  | command (i : Instr)
  | illegal (why : FieldError)
  deriving DecidableEq, Repr

/-- A word is in a row of the opcode table: `w & mask = match` (30_encoding.md R95). -/
def inRow (w mask pattern : Word) : Bool := w &&& mask == pattern

/-- Decoding, 30_encoding.md R95 and R96: the command of the row the word is in; `ILLEGAL` if it is in none. -/
def decode (w : Word) : Decoded :=
  let f := CmdFields.ofWord w
  if inRow w 0xFFFFFFFF 0x00000000 then .command .nop
  else if inRow w 0xFFFFFFFF 0x00000001 then .command .gfAdd
  else if inRow w 0xFFFFFFFF 0x00000002 then .command .gfMul
  else if inRow w 0xFFFFFFFF 0x00000003 then .command .gfDiv
  else if inRow w 0xFFFFFFFF 0x00000004 then .command .gfInv
  else if inRow w 0xFFFFFCFF 0x00000010 then .command (.matGen f.d)
  else if inRow w 0xFFFFF0FF 0x00000011 then .command (.matSub f.d f.a)
  else if inRow w 0xFFFFF0FF 0x00000012 then .command (.matInv f.d f.a)
  else if inRow w 0xFFFFC0FF 0x00000013 then .command (.matMul f.d f.a f.b)
  else if inRow w 0xFFFFFFFF 0x00000020 then .command .codecNew
  else if inRow w 0xFFFFFFFF 0x00000021 then .command .encode
  else if inRow w 0xFFFFFFFF 0x00000022 then .command .reconstruct
  else .illegal (f.error.getD .unassignedOpcode)

/-- The instruction of the table word `w` of `nbits` bits: the bits above `nbits` are 0. A command is one word
written to `CMD`, so no byte layout stands between the word and the decoder (30_encoding.md R90). -/
def decodeTableWord (nbits w : Nat) : Option Instr :=
  match decode (BitVec.ofNat 32 (w % 2 ^ nbits)) with
  | .command i => some i
  | .illegal _ => none

/-- `enc(OPC, D, A, B) = OPC | (D << 8) | (A << 10) | (B << 12)`, 30_encoding.md R91. -/
def enc (opc : Word) (d a b : MatSel) : Word :=
  opc ||| (d.setWidth 32 <<< 8) ||| (a.setWidth 32 <<< 10) ||| (b.setWidth 32 <<< 12)

/-- The word of an instruction, 30_encoding.md R94 and R98. -/
def encode : Instr → Word
  | .nop => enc 0x00 0 0 0
  | .gfAdd => enc 0x01 0 0 0
  | .gfMul => enc 0x02 0 0 0
  | .gfDiv => enc 0x03 0 0 0
  | .gfInv => enc 0x04 0 0 0
  | .matGen d => enc 0x10 d 0 0
  | .matSub d a => enc 0x11 d a 0
  | .matInv d a => enc 0x12 d a 0
  | .matMul d a b => enc 0x13 d a b
  | .codecNew => enc 0x20 0 0 0
  | .encode => enc 0x21 0 0 0
  | .reconstruct => enc 0x22 0 0 0

end Sys2Proof
end

