-- ==== Sys2Proof/Machine/Field.lean ====
section
/-! DEFINITION. The field functions over the tables (41_field.md R135 to R137, 42_matrix.md R163) and the field
commands (R140 to R143). -/

namespace Sys2Proof.Machine

/-- `mul(a, b)`, 41_field.md R135. -/
def State.mul (s : State) (a b : Byte) : Byte :=
  if a = 0 ∨ b = 0 then 0 else s.exp ((s.log a + s.log b) % 255)

/-- `div(a, b)`, 41_field.md R136; the divisor is tested first, and the difference of indices is taken modulo 255
into `0 .. 254`. -/
def State.div (s : State) (a b : Byte) : Except ErrorCode Byte :=
  if b = 0 then .error .divideByZero
  else if a = 0 then .ok 0
  else .ok (s.exp (((s.log a : Int) - (s.log b : Int)) % 255).toNat)

/-- The table value of `inverse(a)` for `a ≠ 0`: `EXP[255 - LOG[a]]` (41_field.md R137). -/
def State.invNonzero (s : State) (a : Byte) : Byte := s.exp (255 - s.log a)

/-- `inverse(a)`, 41_field.md R137. -/
def State.inverse (s : State) (a : Byte) : Except ErrorCode Byte :=
  if a = 0 then .error .divideByZero else .ok (s.invNonzero a)

/-- `gpow(x, e)`, 42_matrix.md R163; `0^0 = 1`. -/
def State.gpow (s : State) (x : Byte) (e : Nat) : Byte :=
  if e = 0 then 1 else if x = 0 then 0 else s.exp (s.log x * e % 255)

/-- The field sum of a list, 0 when it is empty (00_scope.md R9). -/
def xorSum (l : List Byte) : Byte := l.foldr (· ^^^ ·) 0

/-- `GF_ADD`, 41_field.md R140. -/
def execGfAdd (s : State) : Host.Outcome State Fault Refusal :=
  finish s (.ok (s.setResult (s.elemA ^^^ s.elemB)))

/-- `GF_MUL`, 41_field.md R141. -/
def execGfMul (s : State) : Host.Outcome State Fault Refusal :=
  finish s (.ok (s.setResult (s.mul s.elemA s.elemB)))

/-- `GF_DIV`, 41_field.md R142. -/
def execGfDiv (s : State) : Host.Outcome State Fault Refusal :=
  finish s ((s.div s.elemA s.elemB).map s.setResult)

/-- `GF_INV`, 41_field.md R143. -/
def execGfInv (s : State) : Host.Outcome State Fault Refusal :=
  finish s ((s.inverse s.elemA).map s.setResult)

end Sys2Proof.Machine
end

