-- ==== Sys2Proof/Machine/Matrix.lean ====
section
/-! DEFINITION. The matrix functions (42_matrix.md R164 to R169) and the matrix commands (R171 to R174). -/

namespace Sys2Proof.Machine

/-- The Vandermonde matrix over the points `0 .. n-1`, 42_matrix.md R164. -/
def State.vandermonde (s : State) (n k : Nat) : Mat :=
  Mat.tabulate n k fun r c => s.gpow (BitVec.ofNat 8 r) c

/-- `[ M | I_n ]`, the scratch of 42_matrix.md R165. -/
def Mat.augment (M : Mat) (n : Nat) : Mat :=
  Mat.tabulate n (2 * n) fun r c => if c < n then M.entry r c else if c - n = r then 1 else 0

/-- The pivot row of column `col`: `col` itself if its entry is not 0, else the smallest row below it with a
non-zero entry (42_matrix.md R165, R166). -/
def Mat.pivotRow (W : Mat) (n col : Nat) : Option Nat :=
  if W.entry col col ≠ 0 then some col
  else (List.range n).find? fun r => decide (col < r) && (W.entry r col != 0)

/-- Rows `i` and `j` exchanged. -/
def Mat.swapRows (W : Mat) (i j : Nat) : Mat := (W.set i (W.getD j [])).set j (W.getD i [])

/-- Row `col` times the inverse of its pivot entry (42_matrix.md R165). -/
def State.normalise (s : State) (W : Mat) (col : Nat) : Mat :=
  W.set col ((W.getD col []).map (s.mul (s.invNonzero (W.entry col col))))

/-- Column `col` eliminated from every other row (42_matrix.md R165). -/
def State.eliminate (s : State) (W : Mat) (col : Nat) : Mat :=
  W.mapIdx fun r row =>
    if r = col then row
    else List.zipWith (fun x y => x ^^^ s.mul (row.getD col 0) y) row (W.getD col [])

/-- The columns of 42_matrix.md R165, one after the other; none when a column has no pivot. -/
def State.gjColumns (s : State) (n : Nat) : List Nat → Mat → Option Mat
  | [], W => some W
  | col :: cols, W =>
    match W.pivotRow n col with
    | none => none
    | some r => s.gjColumns n cols (s.eliminate (s.normalise (W.swapRows col r) col) col)

/-- `gj_invert(M)` of an `n × n` matrix, 42_matrix.md R165; none is `SINGULAR`. -/
def State.gjInvert (s : State) (n : Nat) (M : Mat) : Option Mat :=
  (s.gjColumns n (List.range n) (M.augment n)).map fun W => W.map fun row => row.drop n

/-- `matmul(A, B)` of a `p × q` and a `q × t` matrix, 42_matrix.md R167. -/
def State.matmul (s : State) (p q t : Nat) (A B : Mat) : Mat :=
  Mat.tabulate p t fun i j => xorSum ((List.range q).map fun l => s.mul (A.entry i l) (B.entry l j))

/-- `submatrix(M, idx)` with `cols` columns, 42_matrix.md R168. -/
def Mat.submatrix (M : Mat) (cols : Nat) (rows : List Nat) : Mat :=
  rows.map fun r => (List.range cols).map fun c => M.entry r c

/-- The inverse of the top block. The block is never singular (42_matrix.md R170); a run cannot reach the other
branch, and what stands there is a free value (notes/assumptions/11.md). -/
def State.topInverse (s : State) (k : Nat) (T : Mat) : Mat :=
  match s.gjInvert k T with
  | some Ti => Ti
  | none => Mat.tabulate k k (Config.freeInverse T)

/-- `build_generator(k, m)` past its range check, 42_matrix.md R169: `V * (V_top)^-1`. -/
def State.buildGenerator (s : State) (k m : Nat) : Mat :=
  let V := s.vandermonde (k + m) k
  s.matmul (k + m) k k V (s.topInverse k (V.submatrix k (List.range k)))

/-- `MAT_GEN mD`, 42_matrix.md R171. -/
def execMatGen (d : MatSel) (s : State) : Host.Outcome State Fault Refusal :=
  finish s <|
    if s.count0 = 0 ∨ s.count1 = 0 ∨ s.count0 + s.count1 > 256 then .error .matrixConstruction
    else .ok (s.writeMat d (s.count0 + s.count1) s.count0 (s.buildGenerator s.count0 s.count1))

/-- `MAT_SUB mD, mA`, 42_matrix.md R172. -/
def execMatSub (d a : MatSel) (s : State) : Host.Outcome State Fault Refusal :=
  finish s <|
    if ¬ s.validMat a then .error .dimensionMismatch
    else if s.count0 < 1 ∨ s.count0 > 256 then .error .dimensionMismatch
    else if (s.rowList s.count0).any (fun r => decide (s.rows a ≤ r)) then .error .invalidIndex
    else .ok (s.writeMat d s.count0 (s.cols a) ((s.readMat a).submatrix (s.cols a) (s.rowList s.count0)))

/-- `MAT_INV mD, mA`, 42_matrix.md R173. -/
def execMatInv (d a : MatSel) (s : State) : Host.Outcome State Fault Refusal :=
  finish s <|
    if ¬ s.validMat a ∨ s.rows a ≠ s.cols a then .error .dimensionMismatch
    else match s.gjInvert (s.rows a) (s.readMat a) with
      | none => .error .singularMatrix
      | some R => .ok (s.writeMat d (s.rows a) (s.rows a) R)

/-- `MAT_MUL mD, mA, mB`, 42_matrix.md R174. -/
def execMatMul (d a b : MatSel) (s : State) : Host.Outcome State Fault Refusal :=
  finish s <|
    if ¬ s.validMat a ∨ ¬ s.validMat b then .error .dimensionMismatch
    else if s.cols a ≠ s.rows b then .error .dimensionMismatch
    else .ok (s.writeMat d (s.rows a) (s.cols b)
      (s.matmul (s.rows a) (s.cols a) (s.cols b) (s.readMat a) (s.readMat b)))

end Sys2Proof.Machine
end

