-- ==== Sys2Proof/Machine/Codec.lean ====
section
/-! DEFINITION. The codec commands: configuration, encoder, decoder (43_codec.md R200 to R206). -/

namespace Sys2Proof.Machine

/-- `CODEC_NEW`, 43_codec.md R201. -/
def execCodecNew (s : State) : Host.Outcome State Fault Refusal :=
  finish s <|
    if s.count0 < 1 ∨ s.count0 > 256 ∨ s.count1 < 1 ∨ s.count1 > 256 ∨ s.count0 + s.count1 > 256 then
      .error .invalidShardCount
    else
      .ok ((s.store genBase ((s.buildGenerator s.count0 s.count1).bytes (s.count0 + s.count1) s.count0)).configure
        s.count0 s.count1)

/-- `GEN` read whole, `n × k` (43_codec.md R200). -/
def State.readGen (s : State) : Mat := Mat.tabulate s.n s.k s.gen

/-- The bytes of parity shard `r`, from the data bytes `data j c` of data shard `j` at offset `c`
(43_codec.md R204). -/
def State.parityRow (s : State) (r len : Nat) (data : Nat → Nat → Byte) : List Byte :=
  (List.range len).map fun c => xorSum ((List.range s.k).map fun j => s.mul (s.gen (s.k + r) j) (data j c))

/-- `ENCODE`, 43_codec.md R204. Every source byte is read from the state at acceptance. -/
def execEncode (s : State) : Host.Outcome State Fault Refusal :=
  finish s <|
    if ¬ s.status.cfgValid then .error .notConfigured
    else if s.count0 ≠ s.k then .error .invalidShardCount
    else if ¬ s.lenOk (List.range s.k) then .error .invalidDataSize
    else .ok (s.putShards (s.len 0)
      ((List.range s.m).map fun r => (s.k + r, s.parityRow r (s.len 0) s.shard)))

/-- The recovered data `d(i, c)`, scratch of 43_codec.md R206, as `k` rows of `len` bytes. -/
def State.recovered (s : State) (Dm : Mat) (sel : List Nat) (len : Nat) : Mat :=
  Mat.tabulate s.k len fun i c =>
    xorSum ((List.range s.k).map fun j => s.mul (Dm.entry i j) (s.shard (sel.getD j 0) c))

/-- The missing slots below `n`, increasing (43_codec.md R206). -/
def State.missingSlots (s : State) : List Nat := (List.range s.n).filter fun i => !s.isPresent i

/-- The bytes of slot `i` rebuilt from the recovered data, 43_codec.md R206: data shard `i` is row `i` of it, parity
shard `i - k` is encoded from it. -/
def State.rebuiltRow (s : State) (data : Mat) (len i : Nat) : List Byte :=
  if i < s.k then data.getD i [] else s.parityRow (i - s.k) len data.entry

/-- `RECONSTRUCT`, 43_codec.md R206. -/
def execReconstruct (s : State) : Host.Outcome State Fault Refusal :=
  finish s <|
    if ¬ s.status.cfgValid then .error .notConfigured
    else if s.count0 ≠ s.n then .error .invalidShardCount
    else if s.presentSlots.length < s.k then .error .insufficientShards
    else if ¬ s.lenOk s.presentSlots then .error .invalidDataSize
    else
      let sel := s.presentSlots.take s.k
      let len := s.len (s.presentSlots.headD 0)
      match s.gjInvert s.k (s.readGen.submatrix s.k sel) with
      | none => .error .reconstructionFailed
      | some Dm => .ok (s.putShards len
          (s.missingSlots.map fun i => (i, s.rebuiltRow (s.recovered Dm sel len) len i)))

end Sys2Proof.Machine
end

