-- ==== Sys2Proof/Machine/Control.lean ====
section
/-! DEFINITION. `NOP` (40_control.md R118) and what the Core does with a word that decodes to no command
(`ILLEGAL`, R121). -/

namespace Sys2Proof.Machine

/-- `NOP`, 40_control.md R118: `complete(0)`. -/
def execNop (s : State) : Host.Outcome State Fault Refusal := finish s (.ok s)

/-- `ILLEGAL`, 40_control.md R121: `complete(ILLEGAL_COMMAND)`; it does not set `FATAL`. -/
def execIllegal (s : State) : Host.Outcome State Fault Refusal := finish s (.error .illegalCommand)

end Sys2Proof.Machine
end

