-- ==== Sys2Proof/Machine/Dispatch.lean ====
section
/-! DEFINITION. One arm per command: the Core's execution of it (40_control.md R112). -/

namespace Sys2Proof.Machine

def exec (i : Instr) (s : State) : Host.Outcome State Fault Refusal :=
  match i with
  | .nop => Sys2Proof.Machine.execNop s
  | .gfAdd => Sys2Proof.Machine.execGfAdd s
  | .gfMul => Sys2Proof.Machine.execGfMul s
  | .gfDiv => Sys2Proof.Machine.execGfDiv s
  | .gfInv => Sys2Proof.Machine.execGfInv s
  | .matGen d => Sys2Proof.Machine.execMatGen d s
  | .matSub d a => Sys2Proof.Machine.execMatSub d a s
  | .matInv d a => Sys2Proof.Machine.execMatInv d a s
  | .matMul d a b => Sys2Proof.Machine.execMatMul d a b s
  | .codecNew => Sys2Proof.Machine.execCodecNew s
  | .encode => Sys2Proof.Machine.execEncode s
  | .reconstruct => Sys2Proof.Machine.execReconstruct s

end Sys2Proof.Machine
end

