-- ==== Sys2Proof/Machine/Tables.lean ====
section
/-! DEFINITION. The reference product, the log/exp tables LutInit writes, and which parameters are legal
(41_field.md R130 to R134). -/

namespace Sys2Proof.Machine

/-- The carry-less product of the first loop of 41_field.md R130, over the bit numbers given. -/
def carryless (a b : Nat) : List Nat → Nat → Nat
  | [], p => p
  | i :: is, p => carryless a b is (if b.testBit i then p ^^^ (a <<< i) else p)

/-- The reduction of the second loop of 41_field.md R130, over the bit numbers given. -/
def reducePoly (poly : Nat) : List Nat → Nat → Nat
  | [], p => p
  | i :: is, p => reducePoly poly is (if p.testBit i then p ^^^ (poly <<< (i - 8)) else p)

/-- `polymul(a, b)`, 41_field.md R130. -/
def polymul (poly : BitVec 9) (a b : Byte) : Byte :=
  BitVec.ofNat 8
    (reducePoly poly.toNat [14, 13, 12, 11, 10, 9, 8]
      (carryless a.toNat b.toNat [0, 1, 2, 3, 4, 5, 6, 7] 0))

/-- `count` successive products by the generator, starting at `x`. -/
def powersFrom (poly : BitVec 9) (gen : Byte) : Nat → Byte → List Byte
  | 0, _ => []
  | count + 1, x => x :: powersFrom poly gen count (polymul poly x gen)

/-- `EXP[0 .. 254]`, 41_field.md R132. -/
def expPowers (cfg : Config) : List Byte := powersFrom cfg.fieldPoly cfg.fieldGen 255 0x01

/-- `EXP[0 .. 255]`, with `EXP[255] = 1` (41_field.md R132). -/
def expTable (cfg : Config) : List Byte := expPowers cfg ++ [0x01]

/-- The first index of a value in a table, counted from `i`; 0 where it does not occur. -/
def indexOf (v : Nat) : List Byte → Nat → Nat
  | [], _ => 0
  | b :: bs, i => bif b.toNat.beq v then i else indexOf v bs (i + 1)

/-- `LOG[0 .. 255]`: `LOG[EXP[i]] = i` and `LOG[0] = 0` (41_field.md R133). -/
def logTable (cfg : Config) : List Byte :=
  (List.range 256).map fun a => BitVec.ofNat 8 (indexOf a (expPowers cfg) 0)

/-- The LutInit step, 41_field.md R134: both tables written, `READY` set. -/
def State.fillTables (s : State) : State :=
  { (s.store logBase (logTable s.cfg)).store expBase (expTable s.cfg) with status := s.status.onReady }

/-- LutInit is enabled once after each reset (41_field.md R134); its turn with nothing to do changes nothing. -/
def lutInitStep (s : State) : State := if s.status.ready then s else s.fillTables

/-- No value occurs twice, nor is among those of `seen` (bit `v` for the value `v`). -/
def allDistinct : Nat → List Byte → Bool
  | _, [] => true
  | seen, b :: bs => !seen.testBit b.toNat && allDistinct (seen ||| 1 <<< b.toNat) bs

/-- The remainder of the polynomial `p` by `d` of degree `deg`, over the bit numbers given. -/
def remPoly (d deg : Nat) : List Nat → Nat → Nat
  | [], p => p
  | i :: is, p => remPoly d deg is (if deg ≤ i && p.testBit i then p ^^^ (d <<< (i - deg)) else p)

/-- The polynomial has degree 8 and no divisor of degree 1 to 4, so it is irreducible (41_field.md R130). -/
def irreducible (poly : BitVec 9) : Bool :=
  poly.getLsbD 8 && [1, 2, 3, 4].all fun deg =>
    (List.range (2 ^ deg)).all fun low => remPoly (2 ^ deg + low) deg [8, 7, 6, 5, 4, 3, 2, 1] poly.toNat != 0

/-- The parameters of 00_scope.md R6 that a model must accept; any others it must refuse (41_field.md R130, R131;
93_implementation_defined.md U8 to U11). -/
def configLegal (cfg : Config) : Bool :=
  irreducible cfg.fieldPoly && allDistinct 0 (expPowers cfg) &&
    [16, 32, 64, 128, 256, 512, 1024, 2048, 4096, 8192, 16384, 32768, 65536].contains cfg.shardMaxLen &&
    cfg.base.toNat % 2 ^ 25 == 0

end Sys2Proof.Machine
end

