-- ==== Sys2Proof/Machine/Step.lean ====
section
/-! DEFINITION. One step of the model (70_reset_and_hazards.md R282): the move that is due, taken. -/

namespace Sys2Proof.Machine

/-- The move that is due: the schedule's next, or, when the schedule is empty, the agent that is enabled (weak
fairness, 40_control.md R114, 70_reset_and_hazards.md R282; notes/assumptions/4.md). -/
def State.due (s : State) : Option Move :=
  match s.moves with
  | move :: _ => some move
  | [] => if s.status.busy then some .core else if s.status.ready then none else some .lutInit

/-- The Core step, 40_control.md R112: enabled while busy, it executes the accepted word; its turn with nothing to do
changes nothing. -/
def coreStep (s : State) : Host.Outcome State Fault Refusal :=
  if s.status.busy then
    match decode s.curCmd with
    | .command i => exec i s
    | .illegal _ => execIllegal s
  else .next s

/-- One move of one agent. -/
def take (move : Move) (s : State) : Host.Outcome State Fault Refusal :=
  match move with
  | .host a => hostStep a s
  | .core => coreStep s
  | .lutInit => .next (lutInitStep s)
  | .reset => .next s.doReset

/-- One step. Parameters that a model must refuse are refused (41_field.md R131; 93_implementation_defined.md U8 to
U11); with no move due the block waits for the host, unchanged. -/
def step (s : State) : Host.Outcome State Fault Refusal :=
  if configLegal s.cfg then
    match s.due with
    | none => .next s
    | some move => take move { s with moves := s.moves.tail }
  else .refused .illegalConfig

/-- The state in which the word `w` is the accepted command and the Core's turn is next, so that the next step runs
it. A command is not fetched: the host writes it to `CMD` (notes/assumptions/15.md). Where `LutInit` has not run,
it runs here, since no word is accepted before it (40_control.md R110); then the word is accepted (R111). -/
def State.withFetchWord (s : State) (nbits w : Nat) : State :=
  { (lutInitStep s).accept (BitVec.ofNat 32 (w % 2 ^ nbits)) with moves := .core :: s.moves }

end Sys2Proof.Machine
end

