-- ==== Sys2Proof/Safety.lean ====
section
/-! DEFINITION. What counts as a safe state and a clean run: the invariant that every step keeps, and a host program
that made none of the faults of 60_exceptions.md R257. -/

namespace Sys2Proof.Machine

/-- An offset that holds a byte of one of the memories (20_memory.md R60): in the window, mapped, and no register. -/
def isMemoryByte (cfg : Config) (a : Nat) : Bool :=
  regionOf cfg a != .registers && regionOf cfg a != .unmapped

/-- Memory in its canonical form, listing bytes of the memories only. -/
structure State.MemOk (s : State) : Prop where
  /-- Strictly rising offsets. -/
  wf : Memory.wf s.mem = true
  /-- Every listed offset is a byte of a memory. -/
  mapped : ∀ c ∈ s.mem, isMemoryByte s.cfg c.1 = true

/-- The status flags agree with the registers beside them. -/
structure State.StatusOk (s : State) : Prop where
  /-- `STATUS.ERR` equals `ERRCODE ≠ 0` at every moment (10_state.md R29). -/
  err : s.status.err = (s.errcode != 0)
  /-- The codes above `0x0B` are never written (60_exceptions.md R240). -/
  code : s.errcode.toNat ≤ 0x0B
  /-- `FATAL` stands exactly as long as the code that set it (10_state.md R30, 60_exceptions.md R245). -/
  fatal : s.status.fatal = (s.errcode == 0x07)
  /-- A command in flight was accepted by a ready block, and acceptance cleared `DONE` and `ERRCODE`
  (40_control.md R110, R111). -/
  busy : s.status.busy = true → s.status.ready = true ∧ s.status.done = false ∧ s.errcode = 0
  /-- `CUR_CMD` is 0 with no command in flight (40_control.md R113, 10_state.md R52). -/
  idle : s.status.busy = false → s.curCmd = 0
  /-- Before `READY` no command has been accepted (40_control.md R110), so none has completed. -/
  unready : s.status.ready = false → s.status.done = false ∧ s.errcode = 0 ∧ s.status.cfgValid = false

/-- The configuration is a legal one or none (10_state.md R38, 00_scope.md R7). -/
structure State.ConfigOk (s : State) : Prop where
  /-- With `CFG_VALID = 1` the counts satisfy 00_scope.md R7. -/
  valid : s.status.cfgValid = true → 1 ≤ s.k ∧ 1 ≤ s.m ∧ s.n ≤ 256
  /-- Without a configuration both counts are 0. -/
  none : s.status.cfgValid = false → s.k = 0 ∧ s.m = 0

/-- After `READY` the tables hold the values of 41_field.md R132 and R133 and are never written again (R134). -/
def State.TablesOk (s : State) : Prop :=
  s.status.ready = true →
    (∀ i < 256, Memory.read s.mem (expBase + i) = (expTable s.cfg)[i]?) ∧
    (∀ i < 256, Memory.read s.mem (logBase + i) = (logTable s.cfg)[i]?)

/-- The invariant of the block. -/
structure State.Inv (s : State) : Prop where
  /-- Parameters a model must accept. -/
  legal : configLegal s.cfg = true
  mem : s.MemOk
  status : s.StatusOk
  config : s.ConfigOk
  tables : s.TablesOk

/-- While a configuration is held, `GEN` holds the generator matrix of its counts (43_codec.md R200, R201). -/
def State.GenOk (s : State) : Prop :=
  s.status.cfgValid = true →
    ∀ r < s.n, ∀ c < s.k, s.gen r c = Mat.entry (s.buildGenerator s.k s.m) r c

/-- The host program has made none of the faults of 60_exceptions.md R257 so far. -/
def State.HostClean (s : State) : Prop := s.marks = []

end Sys2Proof.Machine
end

