-- ==== Sys2Proof/Certificates/Slice0/Obligations.lean ====
section
/-! DEFINITION. The statements for the provers, one `def Obligations.<Name> : Prop` each, in the order of
OBLIGATIONS.json. They hold for every configuration and every state unless a premise says otherwise.

Two choices of the model stand behind the terms used. `State.moves` and `State.due` are its schedule; that the enabled
agent moves when the schedule is empty is the choice of notes/assumptions/4.md. `State.byte` of a byte without a
specified value is a free value that lasts until the events of notes/assumptions/6.md and 7.md; that such a byte reads
the same before and after a step, in the frame of a command or a write, is the deduction of those entries. -/

namespace Sys2Proof.Claims

open Sys2Proof Sys2Proof.Machine

/-- What `complete(code)` leaves, spelled out from 40_control.md R113. -/
def completed (s : State) (code : Byte) : State :=
  { s with
    errcode := code
    curCmd := 0
    status := { s.status with
                busy := false, done := true, err := code != 0
                fatal := s.status.fatal || code == 0x07 } }

/-- What a dropped write leaves, spelled out from 40_control.md R110 and R115: `WDROP`, and the response `OK`. -/
def dropped (s : State) : State :=
  { s with status := { s.status with wdrop := true }, responses := .writeOk :: s.responses }

/-- The host address of an offset is `addr`. -/
def atOffset (s : State) (addr : Word) (off : Nat) : Prop :=
  off < 2 ^ 25 ∧ addr.toNat = s.cfg.base.toNat + off

/-- The offset is in an unmapped range of 20_memory.md R60. -/
def unmapped (cfg : Config) (off : Nat) : Prop :=
  (0x1300 ≤ off ∧ off < 0x10000) ∨ (0x60000 ≤ off ∧ off < 0x1000000) ∨ 0x1000000 + 256 * cfg.shardMaxLen ≤ off

/-- An access of `n` bytes that 20_memory.md R62, R63 and R66 give `ERROR`. -/
def illegalAccess (cfg : Config) (off n : Nat) : Prop :=
  off % n ≠ 0 ∨ (off < 0x1000 ∧ n ≠ 4) ∨ unmapped cfg off

/-- The offset is in a window of bytes the host may write, 20_memory.md R60. -/
def writableByte (cfg : Config) (off : Nat) : Prop :=
  (0x1000 ≤ off ∧ off < 0x1100) ∨ (0x20000 ≤ off ∧ off < 0x60000) ∨
    (0x1000000 ≤ off ∧ off < 0x1000000 + 256 * cfg.shardMaxLen)

/-- Outside the `len` bytes from `base`. -/
def outside (a base len : Nat) : Prop := a < base ∨ base + len ≤ a

/-- The codes a command can complete with, 60_exceptions.md R242. -/
def possibleCodes : Instr → List Byte
  | .nop => [0x00]
  | .gfAdd => [0x00]
  | .gfMul => [0x00]
  | .gfDiv => [0x00, 0x04]
  | .gfInv => [0x00, 0x04]
  | .matGen _ => [0x00, 0x08]
  | .matSub _ _ => [0x00, 0x07, 0x0B]
  | .matInv _ _ => [0x00, 0x05, 0x07]
  | .matMul _ _ _ => [0x00, 0x07]
  | .codecNew => [0x00, 0x01]
  | .encode => [0x00, 0x01, 0x02, 0x0A]
  | .reconstruct => [0x00, 0x01, 0x02, 0x03, 0x06, 0x0A]

/-- The field sum of `f 0, …, f (count - 1)` (00_scope.md R9). -/
def fieldSum (count : Nat) (f : Nat → Byte) : Byte := (List.range count).foldr (fun j acc => f j ^^^ acc) 0

/-- `MAT[a]` is not valid as a source, the bounds of 42_matrix.md R160. -/
def invalidSource (s : State) (a : MatSel) : Prop :=
  s.rows a = 0 ∨ 256 < s.rows a ∨ s.cols a = 0 ∨ 256 < s.cols a

/-- `e`-fold product of `x` with itself, 1 for `e = 0` (42_matrix.md R163). -/
def power (s : State) (x : Byte) : Nat → Byte
  | 0 => 1
  | e + 1 => s.mul x (power s x e)

/-- The number whose base-256 digits are `f 0, …, f (n - 1)`, `f 0` the least significant (20_memory.md R64). -/
def littleEndian (f : Nat → Byte) : Nat → Nat
  | 0 => 0
  | n + 1 => littleEndian f n + (f n).toNat * 256 ^ n

/-- The offset of a reserved register, 10_state.md R22 and R43. -/
def reservedOffset (off : Nat) : Prop :=
  (0x02C ≤ off ∧ off < 0x040) ∨ (0x060 ≤ off ∧ off < 0x080) ∨ (0x0A0 ≤ off ∧ off < 0x400) ∨
    (0x800 ≤ off ∧ off < 0x1000)

/-- The byte at `a` holds no specified value: nothing has written it since reset (20_memory.md R80), or it is a byte
of `GEN` outside the configured matrix (10_state.md R46). -/
def holdsNoValue (s : State) (a : Nat) : Prop :=
  Memory.read s.mem a = none ∨
    (0x10000 ≤ a ∧ a < 0x20000 ∧ ¬ (s.status.cfgValid = true ∧ a - 0x10000 < s.n * s.k))

/-- A read of `n` bytes that is no bus error returns an unspecified value: while busy, of all but the registers of
40_control.md R116; of the tables before `READY` (R122); of bytes without a specified value. -/
def unspecifiedData (s : State) (off n : Nat) : Prop :=
  (s.status.busy = true ∧ off ∉ [0x000, 0x004, 0x008, 0x00C, 0x010, 0x028] ∧ ¬ reservedOffset off) ∨
    (s.status.ready = false ∧ 0x1100 ≤ off ∧ off < 0x1300) ∨
    (0x1000 ≤ off ∧ ∃ i < n, holdsNoValue s (off + i))

/-- The bytes of slot `slot` at offset `c` once the data `data j c` is encoded: the data shard itself, or the parity
formula of 43_codec.md R204. -/
def encodedByte (s : State) (data : Nat → Nat → Byte) (slot c : Nat) : Byte :=
  if slot < s.k then data slot c else fieldSum s.k fun j => s.mul (s.gen slot j) (data j c)

end Sys2Proof.Claims

open Sys2Proof Sys2Proof.Machine Sys2Proof.Claims

/-! ## Encoding (30_encoding.md) -/

/-- The decoder reads a command from a word exactly when the word is that command's encoding (R91, R95, R96): no bit
of a word is dropped, and no word has two meanings. -/
def Obligations.DecodeIsInverseOfEncode : Prop :=
  ∀ (w : Word) (i : Instr), decode w = .command i ↔ w = encode i

/-- The words that decode to a command are those of R94 and R96, read off the word's digits: an assigned opcode,
`RSV` zero, and every unused selector zero. -/
def Obligations.LegalWordsByTheirFields : Prop :=
  ∀ w : Word,
    (∃ i, decode w = .command i) ↔
      w.toNat / 16384 = 0 ∧
        ((w.toNat % 256 ∈ [0x00, 0x01, 0x02, 0x03, 0x04, 0x20, 0x21, 0x22] ∧ w.toNat / 256 = 0) ∨
          (w.toNat % 256 = 0x10 ∧ w.toNat / 1024 = 0) ∨
          (w.toNat % 256 ∈ [0x11, 0x12] ∧ w.toNat / 4096 = 0) ∨ w.toNat % 256 = 0x13)

/-- The spec's own example words (42_matrix.md R171 to R174, 95_test_vectors.md V5 and V11): the legal ones decode to
the commands they stand for, and the five of V11 that 30_encoding.md R96 makes `ILLEGAL` decode to no command. The
reasons' names (`unassignedOpcode`, `reservedBits`, `unusedD`, `unusedA`, `unusedB`) are no words of the spec: they are
the model's choice, notes/assumptions/23.md. -/
def Obligations.SampleWordsDecode : Prop :=
  decode 0x00000000 = .command .nop ∧ decode 0x00000002 = .command .gfMul ∧
  decode 0x00000310 = .command (.matGen 3) ∧ decode 0x00000111 = .command (.matSub 1 0) ∧
  decode 0x00000612 = .command (.matInv 2 1) ∧ decode 0x00002713 = .command (.matMul 3 1 2) ∧
  decode 0x00003313 = .command (.matMul 3 0 3) ∧ decode 0x00000022 = .command .reconstruct ∧
  decode 0x00000005 = .illegal .unassignedOpcode ∧ decode 0x80000013 = .illegal .reservedBits ∧
  decode 0x00000101 = .illegal .unusedD ∧ decode 0x00000410 = .illegal .unusedA ∧
  decode 0x00001011 = .illegal .unusedB

/-! ## The life of a command (40_control.md) -/

/-- On the Core's turn a busy block executes the command its accepted word decodes to (R112). The second clause, that
with an empty schedule the Core moves in the very next step, is the model's choice, notes/assumptions/4.md: R114 says
only that the Core's step is taken under weak fairness. -/
def Obligations.StepRunsDecodedCommand : Prop :=
  ∀ (s : State) (i : Instr), configLegal s.cfg = true → s.status.busy = true → decode s.curCmd = .command i →
    (∀ rest, s.moves = .core :: rest → step s = exec i { s with moves := rest }) ∧
      (s.moves = [] → step s = exec i s)

/-- A word that decodes to no command completes with `ILLEGAL_COMMAND`, code `0x09`, writes nothing but the
completion status and does not set `FATAL` (R121, 30_encoding.md R96). -/
def Obligations.IllegalWordCompletesWithCode9 : Prop :=
  ∀ (s : State) (rest : List Move), configLegal s.cfg = true → s.status.busy = true → s.moves = .core :: rest →
    (∀ i, decode s.curCmd ≠ .command i) →
      step s = .next { s with
        moves := rest, errcode := 0x09, curCmd := 0
        status := { s.status with busy := false, done := true, err := true } }

/-- `NOP` completes with code 0 and writes nothing else (R118). -/
def Obligations.NopOnlyCompletes : Prop :=
  ∀ s : State, exec .nop s = .next { s with
    errcode := 0, curCmd := 0, status := { s.status with busy := false, done := true, err := false } }

/-- A `CMD` write is accepted exactly when the block is not busy, ready and not fatal, with the effect of R111 and no
other; otherwise it is dropped, with no effect on the block but `WDROP` (R110). Either way it gets `OK`. (`marks` is
the model's own record of host-program faults; Obligations.HostFaultsAreMarked says what it holds.) -/
def Obligations.CmdWriteIsAcceptedOrDropped : Prop :=
  ∀ (s : State) (addr w : Word) (rest : List Move), configLegal s.cfg = true → atOffset s addr 0x00C →
    s.moves = .host (.write addr .word4 w) :: rest →
      (s.status.busy = false ∧ s.status.ready = true ∧ s.status.fatal = false →
        step s = .next { s with
          moves := rest, curCmd := w, errcode := 0, responses := .writeOk :: s.responses
          status := { s.status with busy := true, done := false, err := false, wdrop := false } }) ∧
      (s.status.busy = true ∨ s.status.ready = false ∨ s.status.fatal = true →
        ∃ t, step s = .next t ∧ t = { dropped { s with moves := rest } with marks := t.marks })

/-- While busy every write that is no bus error and not to `CTRL` is dropped: it changes nothing of the block but
`WDROP`, and gets `OK` (R115). (`marks` is the model's own record, Obligations.HostFaultsAreMarked.) -/
def Obligations.BusyDropsEveryOtherWrite : Prop :=
  ∀ (s : State) (addr v : Word) (size : Size) (off : Nat) (rest : List Move), configLegal s.cfg = true →
    s.status.busy = true → atOffset s addr off → ¬ illegalAccess s.cfg off size.bytes → off ≠ 0x008 →
    s.moves = .host (.write addr size v) :: rest →
      ∃ t, step s = .next t ∧ t = { dropped { s with moves := rest } with marks := t.marks }

/-- A `CTRL` write takes effect at any time: `IRQ_EN` becomes bit 0, and bit 1 clears `DONE`; nothing else changes
(R117). -/
def Obligations.CtrlWriteTakesEffectAlways : Prop :=
  ∀ (s : State) (addr v : Word) (rest : List Move), configLegal s.cfg = true → atOffset s addr 0x008 →
    s.moves = .host (.write addr .word4 v) :: rest →
      step s = .next { s with
        moves := rest, irqEn := v.getLsbD 0, responses := .writeOk :: s.responses
        status := { s.status with done := if v.getLsbD 1 then false else s.status.done } }

/-- Every Core step of a busy block completes: it answers a next state with the completion status of R113, whatever
word was accepted, and no register a command cannot write is changed. (That the Core is due when the schedule is empty
is the model's choice, notes/assumptions/4.md.) -/
def Obligations.EveryAcceptedWordCompletes : Prop :=
  ∀ s : State, configLegal s.cfg = true → s.status.busy = true → s.due = some .core →
    ∃ t, step s = .next t ∧
      t.status.busy = false ∧ t.status.done = true ∧ t.status.err = (t.errcode != 0) ∧
      t.status.fatal = (s.status.fatal || t.errcode == 0x07) ∧ t.curCmd = 0 ∧
      t.status.ready = s.status.ready ∧ t.status.wdrop = s.status.wdrop ∧ t.irqEn = s.irqEn ∧
      t.arg0 = s.arg0 ∧ t.arg1 = s.arg1 ∧ t.present = s.present ∧ t.cfg = s.cfg ∧
      t.responses = s.responses ∧ t.moves = s.moves.tail

/-- All or nothing: a command, or a word that decodes to none, that completes with a non-zero code writes nothing but
the completion status, and `FATAL` for code `0x07` only (60_exceptions.md R243). -/
def Obligations.FailingCommandWritesOnlyStatus : Prop :=
  ∀ s t : State, t.errcode ≠ 0 →
    (∀ i : Instr, exec i s = .next t → t = completed s t.errcode) ∧
      (s.status.busy = true → coreStep s = .next t → t = completed s t.errcode)

/-- Each command completes, with one of the codes 60_exceptions.md R242 lists for it; an illegal word with `0x09`. -/
def Obligations.CompletionCodesPerCommand : Prop :=
  ∀ s : State,
    (∀ i : Instr, ∃ t, exec i s = .next t ∧ t.errcode ∈ possibleCodes i) ∧
      ∃ t, execIllegal s = .next t ∧ t.errcode = 0x09

/-- The handshake of 70_reset_and_hazards.md R276: after a `CMD` write to a block that was not busy, and the Core step
that follows if it was accepted, `DONE = 1` and `WDROP = 0` hold exactly when the write was accepted. -/
def Obligations.HandshakeTellsAcceptance : Prop :=
  ∀ (s t : State) (addr w : Word), s.status.busy = false → atOffset s addr 0x00C →
    s.moves = [.host (.write addr .word4 w), .core] → Host.Core.run Sys2Proof.core 2 s = .next t →
      ((t.status.done = true ∧ t.status.wdrop = false) ↔ (s.status.ready = true ∧ s.status.fatal = false))

/-- `READY`, `CFG_VALID` and `FATAL` are cleared by reset only (10_state.md R27, R30, R31); `READY` is set only by
LutInit's step, `CFG_VALID` only by the Core's execution of a CODEC_NEW that succeeds, and `FATAL` only by the Core's
completion of a command with code `0x07`. -/
def Obligations.StickyFlags : Prop :=
  ∀ s t : State, step s = .next t → s.due ≠ some .reset →
    (s.status.ready = true → t.status.ready = true) ∧
    (s.status.cfgValid = true → t.status.cfgValid = true) ∧
    (s.status.fatal = true → t.status.fatal = true) ∧
    (s.status.ready = false → t.status.ready = true → s.due = some .lutInit) ∧
    (s.status.cfgValid = false → t.status.cfgValid = true →
      s.due = some .core ∧ s.status.busy = true ∧ decode s.curCmd = .command .codecNew ∧ t.errcode = 0) ∧
    (s.status.fatal = false → t.status.fatal = true →
      s.due = some .core ∧ s.status.busy = true ∧ t.errcode = 0x07)

/-- A fatal block stays fatal and accepts nothing, whatever the host does, until reset (60_exceptions.md R245). -/
def Obligations.FatalBlockAcceptsNothingUntilReset : Prop :=
  ∀ s t : State, s.Inv → s.status.fatal = true → step s = .next t → s.due ≠ some .reset →
    t.status.fatal = true ∧ t.status.busy = false ∧ t.curCmd = 0 ∧ t.errcode = 0x07

/-- The interrupt rises only at a completion, or at a `CTRL` write that sets `IRQ_EN` while `DONE = 1`
(60_exceptions.md R246): not at a dropped write, a bus error, an acceptance or LutInit. -/
def Obligations.InterruptRisesOnlyAtCompletionOrEnable : Prop :=
  ∀ s t : State, step s = .next t → s.irq = false → t.irq = true →
    (s.due = some .core ∧ s.status.busy = true ∧ t.status.busy = false ∧ s.irqEn = true) ∨
    (∃ addr v, s.due = some (.host (.write addr .word4 v)) ∧ atOffset s addr 0x008 ∧
      s.status.done = true ∧ s.irqEn = false ∧ v.getLsbD 0 = true ∧ v.getLsbD 1 = false)

/-- `RESULT` changes only at reset or at the successful completion of a field command (10_state.md R36). -/
def Obligations.ResultWrittenOnlyByFieldCommands : Prop :=
  ∀ s t : State, step s = .next t → t.result ≠ s.result →
    s.due = some .reset ∨
    (s.due = some .core ∧ s.status.busy = true ∧ t.errcode = 0 ∧
      (decode s.curCmd = .command .gfAdd ∨ decode s.curCmd = .command .gfMul ∨
        decode s.curCmd = .command .gfDiv ∨ decode s.curCmd = .command .gfInv))

/-- What no command writes: the operand registers, the presence map, `CTRL`, the index memory and the tables
(10_state.md R37, R40, R44, R45); and only CODEC_NEW writes the configuration and `GEN` (R38, R46), only the matrix
commands the work matrices (R41, R47), only ENCODE and RECONSTRUCT the shards and their lengths (R42, R48). -/
def Obligations.CommandsWriteOnlyTheirOwnState : Prop :=
  ∀ (i : Instr) (s t : State), exec i s = .next t →
    (t.arg0 = s.arg0 ∧ t.arg1 = s.arg1 ∧ t.present = s.present ∧ t.irqEn = s.irqEn ∧ t.cfg = s.cfg) ∧
    (∀ a, 0x1000 ≤ a → a < 0x1300 → t.byte a = s.byte a) ∧
    (i ≠ .codecNew →
      t.cfgK = s.cfgK ∧ t.cfgM = s.cfgM ∧ t.status.cfgValid = s.status.cfgValid ∧
      ∀ a, 0x10000 ≤ a → a < 0x20000 → t.byte a = s.byte a) ∧
    ((∀ d, i ≠ .matGen d) ∧ (∀ d a, i ≠ .matSub d a) ∧ (∀ d a, i ≠ .matInv d a) ∧ (∀ d a b, i ≠ .matMul d a b) →
      t.matRows = s.matRows ∧ t.matCols = s.matCols ∧ ∀ a, 0x20000 ≤ a → a < 0x60000 → t.byte a = s.byte a) ∧
    (i ≠ .encode → i ≠ .reconstruct →
      t.slotLen = s.slotLen ∧ ∀ a, 0x1000000 ≤ a → t.byte a = s.byte a)

/-! ## The field commands (41_field.md) -/

/-- `GF_ADD` leaves the exclusive-or of the operands in `RESULT`, upper operand bits ignored, and nothing else but
its completion (R140). -/
def Obligations.GfAddWritesXor : Prop :=
  ∀ s : State, exec .gfAdd s =
    .next (completed { s with result := BitVec.ofNat 8 s.arg0.toNat ^^^ BitVec.ofNat 8 s.arg1.toNat } 0)

/-- `GF_MUL` leaves `EXP[(LOG[a] + LOG[b]) mod 255]`, or 0 for a zero operand, in `RESULT`, and nothing else but its
completion (R141, R135). -/
def Obligations.GfMulWritesTableProduct : Prop :=
  ∀ (s : State) (a b : Byte), a = BitVec.ofNat 8 s.arg0.toNat → b = BitVec.ofNat 8 s.arg1.toNat →
    exec .gfMul s = .next (completed { s with
      result := if a = 0 ∨ b = 0 then 0
        else s.byte (0x1100 + ((s.byte (0x1200 + a.toNat)).toNat + (s.byte (0x1200 + b.toNat)).toNat) % 255) } 0)

/-- `GF_DIV` with a zero divisor, also for a zero dividend, completes with `DIVIDE_BY_ZERO` and `RESULT` unchanged;
otherwise it leaves 0 for a zero dividend, else `EXP[(LOG[a] - LOG[b]) mod 255]` (R142, R136). -/
def Obligations.GfDivWritesTableQuotient : Prop :=
  ∀ (s : State) (a b : Byte), a = BitVec.ofNat 8 s.arg0.toNat → b = BitVec.ofNat 8 s.arg1.toNat →
    (b = 0 → exec .gfDiv s = .next (completed s 0x04)) ∧
    (b ≠ 0 → exec .gfDiv s = .next (completed { s with
      result := if a = 0 then 0
        else s.byte (0x1100 +
          ((((s.byte (0x1200 + a.toNat)).toNat : Int) - ((s.byte (0x1200 + b.toNat)).toNat : Int)) % 255).toNat) } 0))

/-- `GF_INV` of 0 completes with `DIVIDE_BY_ZERO` and `RESULT` unchanged; otherwise it leaves `EXP[255 - LOG[a]]`
(R143, R137). -/
def Obligations.GfInvWritesTableInverse : Prop :=
  ∀ (s : State) (a : Byte), a = BitVec.ofNat 8 s.arg0.toNat →
    (a = 0 → exec .gfInv s = .next (completed s 0x04)) ∧
    (a ≠ 0 → exec .gfInv s = .next (completed { s with
      result := s.byte (0x1100 + (255 - (s.byte (0x1200 + a.toNat)).toNat)) } 0))

/-- LutInit's step (R134): it sets `READY`, writes `EXP` as the powers of the generator (R132) and `LOG` as their
indices with `LOG[0] = 0` (R133), and changes nothing else; once `READY` is set its turn changes nothing. -/
def Obligations.LutInitFillsTheTables : Prop :=
  ∀ (s : State) (rest : List Move), configLegal s.cfg = true → s.moves = .lutInit :: rest →
    (s.status.ready = true → step s = .next { s with moves := rest }) ∧
    (s.status.ready = false → ∃ t, step s = .next t ∧
      t = { s with moves := rest, mem := t.mem, status := { s.status with ready := true } } ∧
      t.byte 0x1100 = 1 ∧ t.byte 0x11FF = 1 ∧
      (∀ i < 254, t.byte (0x1100 + (i + 1)) = polymul s.cfg.fieldPoly (t.byte (0x1100 + i)) s.cfg.fieldGen) ∧
      (∀ i < 255, (t.byte (0x1200 + (t.byte (0x1100 + i)).toNat)).toNat = i) ∧ t.byte 0x1200 = 0 ∧
      (∀ a, outside a 0x1100 512 → t.byte a = s.byte a))

/-- The tables multiply as the field does (R138): for every legal polynomial and generator, once `READY` is set,
`mul(a, b)` is the product of the polynomials modulo `FIELD_POLY`. -/
def Obligations.TableProductIsFieldProduct : Prop :=
  ∀ s : State, s.Inv → s.status.ready = true → ∀ a b : Byte, s.mul a b = polymul s.cfg.fieldPoly a b

/-- Division and inverse (R138): `div(a, b) = mul(a, inverse(b))`, and `inverse(a)` is the one element whose product
with `a` is 1. -/
def Obligations.InverseIsTheOnlyInverse : Prop :=
  ∀ s : State, s.Inv → s.status.ready = true →
    (∀ a b x : Byte, s.inverse b = .ok x → s.div a b = .ok (s.mul a x)) ∧
    (∀ a x : Byte, s.inverse a = .ok x → ∀ y : Byte, s.mul a y = 1 ↔ y = x) ∧
    (∀ a : Byte, a ≠ 0 → ∃ x, s.inverse a = .ok x ∧ s.inverse x = .ok a)

/-- The field laws of R139: `mul` is commutative and associative with identity 1 and zero 0, and distributes over
the exclusive-or; `div(a, 1) = a`, and `div(a, 0)` fails. -/
def Obligations.FieldLaws : Prop :=
  ∀ s : State, s.Inv → s.status.ready = true → ∀ a b c : Byte,
    s.mul a b = s.mul b a ∧ s.mul (s.mul a b) c = s.mul a (s.mul b c) ∧ s.mul 1 a = a ∧ s.mul 0 a = 0 ∧
    s.mul a (b ^^^ c) = s.mul a b ^^^ s.mul a c ∧ s.div a 1 = .ok a ∧ s.div a 0 = .error .divideByZero

/-! ## The matrix commands (42_matrix.md) -/

/-- `MAT_GEN` with legal counts completes: `MAT[D]` becomes the `(k + m) × k` generator matrix, row-major, and
nothing else changes but the completion status (R171, R162). -/
def Obligations.MatGenWritesTheGenerator : Prop :=
  ∀ (d : MatSel) (s : State) (k m : Nat), k = s.arg0.toNat → m = s.arg1.toNat →
    1 ≤ k → 1 ≤ m → k + m ≤ 256 →
      ∃ t, exec (.matGen d) s = .next t ∧
        t = { completed s 0 with
              mem := t.mem, matRows := s.matRows.set d.toFin (BitVec.ofNat 9 (k + m))
              matCols := s.matCols.set d.toFin (BitVec.ofNat 9 k) } ∧
        (∀ r < k + m, ∀ c < k, t.byte (matBase d + (r * k + c)) = (s.buildGenerator k m).entry r c) ∧
        (∀ a, outside a (matBase d) ((k + m) * k) → t.byte a = s.byte a)

/-- `MAT_SUB` with a valid source, a count in `1 .. 256` and row numbers below the source's rows completes: `MAT[D]`
becomes those rows in order, read from the state at acceptance, and nothing else changes but the completion status
(R172, R168, R162). -/
def Obligations.MatSubWritesTheRows : Prop :=
  ∀ (d a : MatSel) (s : State) (n q : Nat), n = s.arg0.toNat → q = s.cols a →
    1 ≤ s.rows a → s.rows a ≤ 256 → 1 ≤ q → q ≤ 256 → 1 ≤ n → n ≤ 256 →
    (∀ j < n, (s.byte (0x1000 + j)).toNat < s.rows a) →
      ∃ t, exec (.matSub d a) s = .next t ∧
        t = { completed s 0 with
              mem := t.mem, matRows := s.matRows.set d.toFin (BitVec.ofNat 9 n)
              matCols := s.matCols.set d.toFin (BitVec.ofNat 9 q) } ∧
        (∀ j < n, ∀ c < q, t.byte (matBase d + (j * q + c)) =
          s.byte (matBase a + ((s.byte (0x1000 + j)).toNat * q + c))) ∧
        (∀ x, outside x (matBase d) (n * q) → t.byte x = s.byte x)

/-- `MAT_INV` of a valid square source for which the Gauss-Jordan procedure finds every pivot completes: `MAT[D]`
becomes its result, and nothing else changes but the completion status (R173, R162). -/
def Obligations.MatInvWritesTheInverse : Prop :=
  ∀ (d a : MatSel) (s : State) (n : Nat) (R : Mat), n = s.rows a → s.cols a = n → 1 ≤ n → n ≤ 256 →
    s.gjInvert n (s.readMat a) = some R →
      ∃ t, exec (.matInv d a) s = .next t ∧
        t = { completed s 0 with
              mem := t.mem, matRows := s.matRows.set d.toFin (BitVec.ofNat 9 n)
              matCols := s.matCols.set d.toFin (BitVec.ofNat 9 n) } ∧
        (∀ r < n, ∀ c < n, t.byte (matBase d + (r * n + c)) = R.entry r c) ∧
        (∀ x, outside x (matBase d) (n * n) → t.byte x = s.byte x)

/-- `MAT_MUL` of valid sources whose inner dimensions agree completes: `MAT[D]` becomes the product over the field,
read from the state at acceptance, and nothing else changes but the completion status (R174, R167, R162). -/
def Obligations.MatMulWritesTheProduct : Prop :=
  ∀ (d a b : MatSel) (s : State) (p q r : Nat), p = s.rows a → q = s.cols a → q = s.rows b → r = s.cols b →
    1 ≤ p → p ≤ 256 → 1 ≤ q → q ≤ 256 → 1 ≤ r → r ≤ 256 →
      ∃ t, exec (.matMul d a b) s = .next t ∧
        t = { completed s 0 with
              mem := t.mem, matRows := s.matRows.set d.toFin (BitVec.ofNat 9 p)
              matCols := s.matCols.set d.toFin (BitVec.ofNat 9 r) } ∧
        (∀ i < p, ∀ j < r, t.byte (matBase d + (i * r + j)) =
          fieldSum q fun l => s.mul (s.byte (matBase a + (i * q + l))) (s.byte (matBase b + (l * r + j)))) ∧
        (∀ x, outside x (matBase d) (p * r) → t.byte x = s.byte x)

/-- The errors of the matrix commands, in the order of 60_exceptions.md R244, each writing nothing but the completion
status (R171 to R174). -/
def Obligations.MatCommandErrors : Prop :=
  ∀ (d a b : MatSel) (s : State),
    (s.arg0.toNat = 0 ∨ s.arg1.toNat = 0 ∨ 256 < s.arg0.toNat + s.arg1.toNat →
      exec (.matGen d) s = .next (completed s 0x08)) ∧
    (invalidSource s a ∨ s.arg0.toNat = 0 ∨ 256 < s.arg0.toNat →
      exec (.matSub d a) s = .next (completed s 0x07)) ∧
    (¬ invalidSource s a → 1 ≤ s.arg0.toNat → s.arg0.toNat ≤ 256 →
      (∃ j < s.arg0.toNat, s.rows a ≤ (s.byte (0x1000 + j)).toNat) →
      exec (.matSub d a) s = .next (completed s 0x0B)) ∧
    (invalidSource s a ∨ s.rows a ≠ s.cols a → exec (.matInv d a) s = .next (completed s 0x07)) ∧
    (¬ invalidSource s a → s.rows a = s.cols a → s.gjInvert (s.rows a) (s.readMat a) = none →
      exec (.matInv d a) s = .next (completed s 0x05)) ∧
    (invalidSource s a ∨ invalidSource s b ∨ s.cols a ≠ s.rows b →
      exec (.matMul d a b) s = .next (completed s 0x07))

/-- The Gauss-Jordan procedure of R165 returns the inverse, `M · M^-1 = I_n`, and returns `SINGULAR` only for a matrix
that maps some non-zero vector to 0. -/
def Obligations.GaussJordanInverts : Prop :=
  ∀ (s : State) (n : Nat) (M : Mat), s.Inv → s.status.ready = true →
    (∀ R, s.gjInvert n M = some R → ∀ i < n, ∀ j < n,
      (fieldSum n fun l => s.mul (M.entry i l) (R.entry l j)) = if i = j then 1 else 0) ∧
    (s.gjInvert n M = none → ∃ x : Nat → Byte, (∃ j < n, x j ≠ 0) ∧
      ∀ i < n, (fieldSum n fun l => s.mul (M.entry i l) (x l)) = 0)

/-- Rows `0 .. k-1` of the generator are the identity, "data shards pass through unchanged" (R170(b)). -/
def Obligations.GeneratorTopIsIdentity : Prop :=
  ∀ (s : State) (k m : Nat), s.Inv → s.status.ready = true → 1 ≤ k → 1 ≤ m → k + m ≤ 256 →
    ∀ r < k, ∀ c < k, (s.buildGenerator k m).entry r c = if r = c then 1 else 0

/-- Any `k` distinct rows of the generator can be inverted (R170(c)). -/
def Obligations.AnyGeneratorRowsAreInvertible : Prop :=
  ∀ (s : State) (k m : Nat) (sel : List Nat), s.Inv → s.status.ready = true → 1 ≤ k → 1 ≤ m → k + m ≤ 256 →
    sel.length = k → sel.Nodup → (∀ r ∈ sel, r < k + m) →
      (s.gjInvert k ((s.buildGenerator k m).submatrix k sel)).isSome = true

/-! ## The codec commands (43_codec.md) -/

/-- `CODEC_NEW` with legal counts completes: `GEN` becomes the generator matrix, `CFG_K`, `CFG_M` and `CFG_VALID` are
set, and nothing else changes but the completion status (R201). (`genEra` is the model's own key of `GEN`'s
unspecified bytes, notes/assumptions/7.md.) -/
def Obligations.CodecNewConfigures : Prop :=
  ∀ (s : State) (k m : Nat), k = s.arg0.toNat → m = s.arg1.toNat → 1 ≤ k → 1 ≤ m → k + m ≤ 256 →
    ∃ t, exec .codecNew s = .next t ∧
      t = { completed s 0 with
            mem := t.mem, cfgK := BitVec.ofNat 9 k, cfgM := BitVec.ofNat 9 m, genEra := s.genEra + 1
            status := { (completed s 0).status with cfgValid := true } } ∧
      t.k = k ∧ t.m = m ∧
      (∀ r < k + m, ∀ c < k, t.byte (0x10000 + (r * k + c)) = (s.buildGenerator k m).entry r c) ∧
      (∀ a, outside a 0x10000 0x10000 → t.byte a = s.byte a)

/-- `ENCODE` with a configuration, the right count and data shards of one valid length completes: every parity slot
gets the bytes of R204's formula and the length, and nothing else changes but the completion status. -/
def Obligations.EncodeWritesTheParity : Prop :=
  ∀ (s : State) (len : Nat), s.ConfigOk → s.status.cfgValid = true → s.arg0.toNat = s.k →
    1 ≤ len → len ≤ s.cfg.shardMaxLen → (∀ j < s.k, s.len j = len) →
      ∃ t, exec .encode s = .next t ∧
        t = { completed s 0 with mem := t.mem, slotLen := t.slotLen } ∧
        (∀ r < s.m, ∀ c < len, t.byte (s.shardBase (s.k + r) + c) =
          fieldSum s.k fun j => s.mul (s.gen (s.k + r) j) (s.byte (s.shardBase j + c))) ∧
        (∀ slot < 256, t.len slot = if s.k ≤ slot ∧ slot < s.n then len else s.len slot) ∧
        (∀ a, (∀ r < s.m, outside a (s.shardBase (s.k + r)) len) → t.byte a = s.byte a)

/-- `RECONSTRUCT` with a configuration, the right count, enough present slots of one valid length and an invertible
selection completes: every missing slot below `n` gets the recovered data of R206, or the parity computed from it,
and the length; present slots and everything else are unchanged but for the completion status. -/
def Obligations.ReconstructWritesTheMissingShards : Prop :=
  ∀ (s : State) (len : Nat) (P sel : List Nat) (Dm : Mat), s.ConfigOk → s.status.cfgValid = true →
    s.arg0.toNat = s.n → P = (List.range s.n).filter s.isPresent → s.k ≤ P.length → sel = P.take s.k →
    1 ≤ len → len ≤ s.cfg.shardMaxLen → (∀ x ∈ P, s.len x = len) →
    s.gjInvert s.k (s.readGen.submatrix s.k sel) = some Dm →
      ∃ (t : State) (data : Nat → Nat → Byte), exec .reconstruct s = .next t ∧
        t = { completed s 0 with mem := t.mem, slotLen := t.slotLen } ∧
        (∀ i < s.k, ∀ c < len, data i c =
          fieldSum s.k fun j => s.mul (Dm.entry i j) (s.byte (s.shardBase (sel.getD j 0) + c))) ∧
        (∀ i < s.n, s.isPresent i = false → ∀ c < len, t.byte (s.shardBase i + c) = encodedByte s data i c) ∧
        (∀ slot < 256, t.len slot = if slot < s.n ∧ s.isPresent slot = false then len else s.len slot) ∧
        (∀ a, (∀ i < s.n, s.isPresent i = false → outside a (s.shardBase i) len) → t.byte a = s.byte a)

/-- The errors of the codec commands, in the order of 60_exceptions.md R244, each writing nothing but the completion
status (R201, R204, R206). -/
def Obligations.CodecCommandErrors : Prop :=
  ∀ (s : State) (P : List Nat), P = (List.range s.n).filter s.isPresent →
    (s.arg0.toNat < 1 ∨ s.arg1.toNat < 1 ∨ 256 < s.arg0.toNat + s.arg1.toNat →
      exec .codecNew s = .next (completed s 0x01)) ∧
    (s.status.cfgValid = false → exec .encode s = .next (completed s 0x0A) ∧
      exec .reconstruct s = .next (completed s 0x0A)) ∧
    (s.status.cfgValid = true → s.arg0.toNat ≠ s.k → exec .encode s = .next (completed s 0x01)) ∧
    (s.status.cfgValid = true → s.arg0.toNat ≠ s.n → exec .reconstruct s = .next (completed s 0x01)) ∧
    (s.status.cfgValid = true → s.arg0.toNat = s.k →
      (∃ j < s.k, s.len j = 0 ∨ s.cfg.shardMaxLen < s.len j ∨ s.len j ≠ s.len 0) →
      exec .encode s = .next (completed s 0x02)) ∧
    (s.status.cfgValid = true → s.arg0.toNat = s.n → P.length < s.k →
      exec .reconstruct s = .next (completed s 0x03)) ∧
    (s.status.cfgValid = true → s.arg0.toNat = s.n → s.k ≤ P.length →
      (∃ x ∈ P, s.len x = 0 ∨ s.cfg.shardMaxLen < s.len x ∨ ∃ y ∈ P, s.len x ≠ s.len y) →
      exec .reconstruct s = .next (completed s 0x02))

/-- Erasure tolerance (R208(b), with R207 and R208(a)): if the present slots hold the encoding of some data, at least
`k` of them, RECONSTRUCT succeeds and every slot below `n` then holds that encoding, byte for byte, whatever the
missing slots held. -/
def Obligations.ReconstructRestoresEveryShard : Prop :=
  ∀ (s : State) (len : Nat) (data : Nat → Nat → Byte), s.Inv → s.GenOk → s.status.cfgValid = true →
    s.status.ready = true → s.arg0.toNat = s.n → s.k ≤ ((List.range s.n).filter s.isPresent).length →
    1 ≤ len → len ≤ s.cfg.shardMaxLen →
    (∀ slot < s.n, s.isPresent slot = true →
      s.len slot = len ∧ ∀ c < len, s.shard slot c = encodedByte s data slot c) →
      ∃ t, exec .reconstruct s = .next t ∧ t.errcode = 0 ∧
        ∀ slot < s.n, t.len slot = len ∧ ∀ c < len, t.shard slot c = encodedByte s data slot c

/-! ## The host bus (20_memory.md, 10_state.md) -/

/-- A misaligned access, a narrow access to the registers and an access to an unmapped offset get `ERROR` and change
no state of the block; a read returns data 0 (R62, R63, R66, R67). (`marks` is the model's own record of host-program
faults, Obligations.HostFaultsAreMarked.) -/
def Obligations.BusErrorChangesNothing : Prop :=
  ∀ (s : State) (addr v : Word) (size : Size) (off : Nat) (rest : List Move), configLegal s.cfg = true →
    atOffset s addr off → illegalAccess s.cfg off size.bytes →
      (s.moves = .host (.read addr size) :: rest → ∃ t, step s = .next t ∧
        t = { s with moves := rest, responses := .readError 0 :: s.responses, marks := t.marks }) ∧
      (s.moves = .host (.write addr size v) :: rest → ∃ t, step s = .next t ∧
        t = { s with moves := rest, responses := .writeError :: s.responses, marks := t.marks })

/-- A read changes nothing of the block (R70): only the response is given, and the model's own marks and draw counter
may move. A legal read gets `OK`. -/
def Obligations.ReadsHaveNoSideEffects : Prop :=
  ∀ (s : State) (addr : Word) (size : Size) (off : Nat) (rest : List Move), configLegal s.cfg = true →
    atOffset s addr off → s.moves = .host (.read addr size) :: rest →
      ∃ t, step s = .next t ∧
        t = { s with moves := rest, responses := t.responses, marks := t.marks, draws := t.draws } ∧
        (¬ illegalAccess s.cfg off size.bytes → ∃ v, t.responses = .readOk v :: s.responses)

/-- Write, then read, in a writable byte window of a block that is not busy: the write stores the value's bytes,
least significant first, and no other byte; a read of the same size then returns the value (R64, R65, R71). -/
def Obligations.StoreThenLoadLittleEndian : Prop :=
  ∀ (s : State) (addr v : Word) (size : Size) (off : Nat) (rest : List Move), configLegal s.cfg = true →
    atOffset s addr off → s.status.busy = false → writableByte s.cfg off → off % size.bytes = 0 →
    s.moves = .host (.write addr size v) :: .host (.read addr size) :: rest →
      ∃ t u, step s = .next t ∧
        t = { s with moves := .host (.read addr size) :: rest, mem := t.mem, responses := .writeOk :: s.responses } ∧
        (∀ i < size.bytes, (t.byte (off + i)).toNat = v.toNat / 2 ^ (8 * i) % 256) ∧
        (∀ a, outside a off size.bytes → t.byte a = s.byte a) ∧
        step t = .next u ∧
        u = { t with
              moves := rest
              responses := .readOk (BitVec.ofNat 32 (v.toNat % 2 ^ (8 * size.bytes))) :: t.responses }

/-- What a 32-bit register holds after a host write to a block that is not busy: `ARG0`, `ARG1`, `PRESENT[w]` and
`SLOT_LEN[s]` the value, `MAT_ROWS[i]` and `MAT_COLS[i]` its low nine bits, and nothing else changes (10_state.md R23,
R37, R40, R41, R42). -/
def Obligations.RegisterWrites : Prop :=
  ∀ (s : State) (addr v : Word) (off : Nat) (rest : List Move), configLegal s.cfg = true → atOffset s addr off →
    s.status.busy = false → s.moves = .host (.write addr .word4 v) :: rest →
      let t := { s with moves := rest, responses := .writeOk :: s.responses }
      (off = 0x018 → step s = .next { t with arg0 := v }) ∧
      (off = 0x01C → step s = .next { t with arg1 := v }) ∧
      (∀ w : Fin 8, off = 0x040 + 4 * w.val → step s = .next { t with present := s.present.set w v }) ∧
      (∀ i : Fin 4, off = 0x080 + 8 * i.val →
        step s = .next { t with matRows := s.matRows.set i (BitVec.ofNat 9 v.toNat) }) ∧
      (∀ i : Fin 4, off = 0x084 + 8 * i.val →
        step s = .next { t with matCols := s.matCols.set i (BitVec.ofNat 9 v.toNat) }) ∧
      (∀ j : Fin 256, off = 0x400 + 4 * j.val → step s = .next { t with slotLen := s.slotLen.set j v })

/-- A legal write to a read-only location or a reserved register of a block that is not busy gets `OK` and has no
effect (10_state.md R23, R43; 20_memory.md R68). -/
def Obligations.ReadOnlyWritesAreIgnored : Prop :=
  ∀ (s : State) (addr v : Word) (size : Size) (off : Nat) (rest : List Move), configLegal s.cfg = true →
    atOffset s addr off → s.status.busy = false → ¬ illegalAccess s.cfg off size.bytes →
    s.moves = .host (.write addr size v) :: rest →
    (off ∈ [0x000, 0x004, 0x010, 0x014, 0x020, 0x024, 0x028] ∨ (0x02C ≤ off ∧ off < 0x040) ∨
      (0x060 ≤ off ∧ off < 0x080) ∨ (0x0A0 ≤ off ∧ off < 0x400) ∨ (0x800 ≤ off ∧ off < 0x1000) ∨
      (0x1100 ≤ off ∧ off < 0x1300) ∨ (0x10000 ≤ off ∧ off < 0x20000)) →
      step s = .next { s with moves := rest, responses := .writeOk :: s.responses }

/-- The registers whose value is specified at every moment, busy or not (40_control.md R116): the constants of `ID`
and `PARAM_MAXLEN`, `STATUS` bit by bit (10_state.md R25), `CTRL`, `ERRCODE`, and 0 for `CMD` and the reserved
offsets. -/
def Obligations.AlwaysReadableRegisters : Prop :=
  ∀ (s : State) (addr : Word) (off : Nat) (rest : List Move), configLegal s.cfg = true → atOffset s addr off →
    s.moves = .host (.read addr .word4) :: rest →
      let gives := fun v : Nat => step s = .next { s with
        moves := rest, responses := .readOk (BitVec.ofNat 32 v) :: s.responses }
      (off = 0x000 → gives 0x47463801) ∧
      (off = 0x004 → gives (s.status.busy.toNat + 2 * s.status.ready.toNat + 4 * s.status.done.toNat +
        8 * s.status.err.toNat + 16 * s.status.fatal.toNat + 32 * s.status.cfgValid.toNat +
        64 * s.status.wdrop.toNat)) ∧
      (off = 0x008 → gives s.irqEn.toNat) ∧
      (off = 0x00C → gives 0) ∧
      (off = 0x010 → gives s.errcode.toNat) ∧
      (off = 0x028 → gives s.cfg.shardMaxLen) ∧
      (off % 4 = 0 → ((0x02C ≤ off ∧ off < 0x040) ∨ (0x060 ≤ off ∧ off < 0x080) ∨ (0x0A0 ≤ off ∧ off < 0x400) ∨
        (0x800 ≤ off ∧ off < 0x1000)) → gives 0)

/-- The other registers of a block that is not busy read their value, zero-extended (10_state.md R36 to R42). -/
def Obligations.RegistersReadTheirValue : Prop :=
  ∀ (s : State) (addr : Word) (off : Nat) (rest : List Move), configLegal s.cfg = true → atOffset s addr off →
    s.status.busy = false → s.moves = .host (.read addr .word4) :: rest →
      let gives := fun v : Nat => step s = .next { s with
        moves := rest, responses := .readOk (BitVec.ofNat 32 v) :: s.responses }
      (off = 0x014 → gives s.result.toNat) ∧ (off = 0x018 → gives s.arg0.toNat) ∧
      (off = 0x01C → gives s.arg1.toNat) ∧ (off = 0x020 → gives s.cfgK.toNat) ∧
      (off = 0x024 → gives s.cfgM.toNat) ∧
      (∀ w : Fin 8, off = 0x040 + 4 * w.val → gives (s.present.get w).toNat) ∧
      (∀ i : Fin 4, off = 0x080 + 8 * i.val → gives (s.matRows.get i).toNat) ∧
      (∀ i : Fin 4, off = 0x084 + 8 * i.val → gives (s.matCols.get i).toNat) ∧
      (∀ j : Fin 256, off = 0x400 + 4 * j.val → gives (s.slotLen.get j).toNat)

/-- When the block is ready and not busy the host reads the tables: `EXP[i]` at `0x1100 + i`, `LOG[a]` at
`0x1200 + a` (41_field.md R144). -/
def Obligations.HostReadsTheTables : Prop :=
  ∀ (s : State) (addr : Word) (i : Nat) (rest : List Move), s.Inv → s.status.ready = true →
    s.status.busy = false → i < 256 → s.moves = .host (.read addr .byte1) :: rest →
      let gives := fun v : Nat => step s = .next { s with
        moves := rest, responses := .readOk (BitVec.ofNat 32 v) :: s.responses }
      (atOffset s addr (0x1100 + i) → gives ((expTable s.cfg).getD i 0).toNat) ∧
      (atOffset s addr (0x1200 + i) → gives ((logTable s.cfg).getD i 0).toNat)

/-- The model's own record of host-program faults (60_exceptions.md R257; the record itself is the model's choice,
notes/assumptions/9.md): a bus error is marked; a legal read is marked exactly when it returns an unspecified value; a
legal write is marked exactly when it is dropped; no other step marks anything. -/
def Obligations.HostFaultsAreMarked : Prop :=
  ∀ s t : State, step s = .next t →
    (∀ (addr : Word) (size : Size) (off : Nat), atOffset s addr off → s.due = some (.host (.read addr size)) →
      (illegalAccess s.cfg off size.bytes → t.marks = .busError :: s.marks) ∧
      (¬ illegalAccess s.cfg off size.bytes → unspecifiedData s off size.bytes →
        t.marks = .unspecifiedRead :: s.marks) ∧
      (¬ illegalAccess s.cfg off size.bytes → ¬ unspecifiedData s off size.bytes → t.marks = s.marks)) ∧
    (∀ (addr v : Word) (size : Size) (off : Nat), atOffset s addr off → s.due = some (.host (.write addr size v)) →
      (illegalAccess s.cfg off size.bytes → t.marks = .busError :: s.marks) ∧
      (¬ illegalAccess s.cfg off size.bytes → t.marks =
        if (s.status.busy = true ∧ off ≠ 0x008) ∨
            (off = 0x00C ∧ ¬ (s.status.busy = false ∧ s.status.ready = true ∧ s.status.fatal = false)) then
          .droppedWrite :: s.marks
        else s.marks)) ∧
    ((∀ a, s.due ≠ some (.host a)) → t.marks = s.marks)

/-! ## Reset and the invariants -/

/-- Reset, at any moment, puts every register at its value of 10_state.md R52, abandons a command in flight, keeps
the parameters, and leaves no byte of the memories (and so none of the tables) with a specified value
(70_reset_and_hazards.md R271). -/
def Obligations.ResetEstablishesTheResetState : Prop :=
  ∀ (s : State) (rest : List Move), configLegal s.cfg = true → s.moves = .reset :: rest →
    ∃ t, step s = .next t ∧ t.cfg = s.cfg ∧ t.moves = rest ∧
      t.status.word = 0 ∧ t.irqEn = false ∧ t.irq = false ∧ t.errcode = 0 ∧ t.result = 0 ∧ t.arg0 = 0 ∧
      t.arg1 = 0 ∧ t.cfgK = 0 ∧ t.cfgM = 0 ∧ t.curCmd = 0 ∧ (∀ w : Fin 8, t.present.get w = 0) ∧
      (∀ i : Fin 4, t.matRows.get i = 0 ∧ t.matCols.get i = 0) ∧ (∀ j : Fin 256, t.slotLen.get j = 0) ∧
      ∀ a, t.specified a = false

/-- After reset, with no host action, `READY` becomes 1 and is then the only bit of `STATUS` that is 1
(70_reset_and_hazards.md R272, 10_state.md R27), and the invariant holds. That LutInit takes the very next step, the
schedule being empty, is the model's choice, notes/assumptions/4.md. -/
def Obligations.ReadyFollowsReset : Prop :=
  ∀ s : State, configLegal s.cfg = true → s.moves = [.reset] →
    ∃ t, Host.Core.run Sys2Proof.core 2 s = .next t ∧ t.status.word = 0x02 ∧ t.Inv

/-- The reset state satisfies the invariant. -/
def Obligations.ResetStateSatisfiesInv : Prop := State.reset.Inv ∧ State.reset.GenOk

/-- Every step keeps the invariant: the canonical memory, `ERR` equal to `ERRCODE ≠ 0` (10_state.md R29), a legal
configuration (R38), tables that never change after `READY` (41_field.md R134), and the rest of `State.Inv`. -/
def Obligations.StepKeepsInv : Prop := ∀ s t : State, s.Inv → step s = .next t → t.Inv

/-- Every step keeps `GEN` the generator matrix of the configuration held (43_codec.md R200, R201). -/
def Obligations.StepKeepsGenerator : Prop := ∀ s t : State, s.Inv → s.GenOk → step s = .next t → t.GenOk

/-! ## What the host reads of the memories, and the points of the generator -/

/-- A read of a byte window of a block that is not busy, of the tables once `READY` is set, returns the little-endian
composition of the bytes (20_memory.md R64), whatever wrote them: so the configured matrix in `GEN` (10_state.md R46),
the tables at every size (41_field.md R144), and what commands wrote (20_memory.md R72). Nothing else changes but the
model's own marks. For a byte without a specified value `State.byte` is the model's free value: of a byte that nothing
has written, notes/assumptions/6.md; of `GEN` outside the configured matrix or with `CFG_VALID = 0`, where R46 and
93_implementation_defined.md U4 allow any value, notes/assumptions/7.md. That two reads of such a byte agree rests on
those entries. -/
def Obligations.HostReadsComposeTheBytes : Prop :=
  ∀ (s : State) (addr : Word) (size : Size) (off : Nat) (rest : List Move), configLegal s.cfg = true →
    atOffset s addr off → 0x1000 ≤ off → ¬ illegalAccess s.cfg off size.bytes → s.status.busy = false →
    (s.status.ready = true ∨ off < 0x1100 ∨ 0x1300 ≤ off) → s.moves = .host (.read addr size) :: rest →
      ∃ t, step s = .next t ∧
        t = { s with
              moves := rest, marks := t.marks
              responses :=
                .readOk (BitVec.ofNat 32 (littleEndian (fun i => s.byte (off + i)) size.bytes)) :: s.responses }

/-- The field power of R163 is the repeated product, `0^0 = 1`; and row `r` of the Vandermonde matrix holds the powers
of the point whose bit pattern is `r` (R164). -/
def Obligations.VandermondeRowsArePowers : Prop :=
  ∀ s : State, s.Inv → s.status.ready = true →
    (∀ (x : Byte) (e : Nat), s.gpow x e = power s x e) ∧
    (∀ n k r c : Nat, n ≤ 256 → r < n → c < k → (s.vandermonde n k).entry r c = power s (BitVec.ofNat 8 r) c)

/-- The construction of the generator (R163, R164, R169): applied to the powers of the points `0 .. k-1`, row `r` of
the generator gives the same power of the point `r`. With an invertible top block this holds of one matrix only. -/
def Obligations.GeneratorFollowsThePoints : Prop :=
  ∀ (s : State) (k m : Nat), s.Inv → s.status.ready = true → 1 ≤ k → 1 ≤ m → k + m ≤ 256 →
    ∀ r < k + m, ∀ c < k,
      (fieldSum k fun j => s.mul ((s.buildGenerator k m).entry r j) (power s (BitVec.ofNat 8 j) c)) =
        power s (BitVec.ofNat 8 r) c
end

