-- ==== Sys2Proof/Laws/Memory.lean ====
section
/-! SUPPORT. The laws of the memory list: what a store changes for a read, and that a store keeps the canonical
form. -/

namespace Sys2Proof.Machine

@[simp] theorem Memory.read_nil (x : Nat) : Memory.read [] x = none := rfl

theorem Memory.read_cons (c : Host.Cell) (m : Memory) (x : Nat) :
    Memory.read (c :: m) x = if c.1 = x then some c.2 else Memory.read m x := rfl

/-- A byte is listed in a concatenation where the first list has it, else where the second has it. -/
theorem Memory.read_append (l m : Memory) (x : Nat) :
    Memory.read (l ++ m) x = (Memory.read l x).or (Memory.read m x) := by
  induction l with
  | nil => simp
  | cons c l ih =>
    rw [List.cons_append, Memory.read_cons, Memory.read_cons, ih]
    split <;> simp

/-- Keeping only some offsets keeps exactly their bytes. -/
theorem Memory.read_filter (p : Nat → Bool) (m : Memory) (x : Nat) :
    Memory.read (m.filter fun c => p c.1) x = if p x then Memory.read m x else none := by
  induction m with
  | nil => simp
  | cons c m ih =>
    rw [List.filter_cons]
    by_cases hc : c.1 = x
    · subst hc
      by_cases hp : p c.1
      · simp [hp, Memory.read_cons]
      · simp only [hp]
        rw [if_neg (by simp), ih]
        simp [hp]
    · by_cases hp : p c.1
      · simp only [hp, if_true, Memory.read_cons, if_neg hc, ih]
      · simp only [hp, Memory.read_cons, if_neg hc]
        rw [if_neg (by simp), ih]

/-- The bytes laid out from `a` are those at `a`, `a + 1`, … -/
theorem Memory.read_cellsFrom (bs : List Byte) (a x : Nat) :
    Memory.read (Memory.cellsFrom a bs) x = if a ≤ x then bs[x - a]? else none := by
  induction bs generalizing a with
  | nil => simp [Memory.cellsFrom]
  | cons b bs ih =>
    rw [Memory.cellsFrom, Memory.read_cons, ih]
    by_cases h : a = x
    · simp [h]
    · by_cases h' : a ≤ x
      · obtain ⟨d, rfl⟩ : ∃ d, x = a + 1 + d := ⟨x - a - 1, by omega⟩
        have e1 : a + 1 + d - (a + 1) = d := by omega
        have e2 : a + 1 + d - a = d + 1 := by omega
        simp only [if_neg h, if_pos h', if_pos (Nat.le_add_right (a + 1) d), e1, e2, List.getElem?_cons_succ]
      · simp only [if_neg h, if_neg h', if_neg (show ¬ a + 1 ≤ x by omega)]

/-- What a store does to a read: the stored bytes inside, nothing outside. -/
theorem Memory.read_store (m : Memory) (a : Nat) (bs : List Byte) (x : Nat) :
    Memory.read (Memory.store m a bs) x =
      if a ≤ x ∧ x < a + bs.length then bs[x - a]? else Memory.read m x := by
  rw [Memory.store, Memory.read_append, Memory.read_append, Memory.read_cellsFrom,
    Memory.read_filter (fun y => decide (y < a)), Memory.read_filter (fun y => decide (a + bs.length ≤ y))]
  by_cases h1 : x < a
  · have h2 : ¬ a ≤ x := by omega
    have h3 : ¬ a + bs.length ≤ x := by omega
    simp [h1, h2, h3]
  · have h2 : a ≤ x := by omega
    by_cases h3 : x < a + bs.length
    · have h4 : ¬ a + bs.length ≤ x := by omega
      simp [h1, h2, h3, h4]
    · have h4 : a + bs.length ≤ x := by omega
      have h5 : bs[x - a]? = none := by simp; omega
      simp [h1, h2, h3, h4, h5]

/-- Inside a store: the stored byte. -/
theorem Memory.read_store_inside (m : Memory) (a : Nat) (bs : List Byte) (i : Nat) (h : i < bs.length) :
    Memory.read (Memory.store m a bs) (a + i) = some bs[i] := by
  rw [Memory.read_store, if_pos (by omega)]
  simp [h]

/-- Outside a store: as before. -/
theorem Memory.read_store_outside (m : Memory) (a : Nat) (bs : List Byte) (x : Nat)
    (h : x < a ∨ a + bs.length ≤ x) : Memory.read (Memory.store m a bs) x = Memory.read m x := by
  rw [Memory.read_store, if_neg (by omega)]

/-- The canonical form, as a property of the whole list. -/
theorem Memory.wf_iff (m : Memory) : Memory.wf m = true ↔ m.Pairwise fun c d => c.1 < d.1 := by
  induction m with
  | nil => simp [Memory.wf]
  | cons c m ih =>
    cases m with
    | nil => simp [Memory.wf]
    | cons d m =>
      have e : Memory.wf (c :: d :: m) = (decide (c.1 < d.1) && Memory.wf (d :: m)) := rfl
      rw [e, Bool.and_eq_true, ih, List.pairwise_cons (a := c)]
      constructor
      · rintro ⟨hcd, hp⟩
        refine ⟨fun x hx => ?_, hp⟩
        rcases List.mem_cons.1 hx with rfl | hx
        · simpa using hcd
        · exact lt_trans (by simpa using hcd) ((List.pairwise_cons.1 hp).1 x hx)
      · rintro ⟨hall, hp⟩
        exact ⟨by simpa using hall d (by simp), hp⟩

/-- The offsets of bytes laid out from `a`. -/
theorem Memory.mem_cellsFrom {bs : List Byte} {a : Nat} {c : Host.Cell} (h : c ∈ Memory.cellsFrom a bs) :
    a ≤ c.1 ∧ c.1 < a + bs.length := by
  induction bs generalizing a with
  | nil => simp [Memory.cellsFrom] at h
  | cons b bs ih =>
    rcases List.mem_cons.1 (by simpa [Memory.cellsFrom] using h) with rfl | h
    · simp
    · have := ih h
      simp only [List.length_cons]
      omega

theorem Memory.pairwise_cellsFrom (bs : List Byte) (a : Nat) :
    (Memory.cellsFrom a bs).Pairwise fun c d => c.1 < d.1 := by
  induction bs generalizing a with
  | nil => simp [Memory.cellsFrom]
  | cons b bs ih =>
    rw [Memory.cellsFrom, List.pairwise_cons]
    exact ⟨fun c hc => by have := Memory.mem_cellsFrom hc; simp only; omega, ih (a + 1)⟩

/-- A store lists what was listed, and offsets of its own range. -/
theorem Memory.mem_store {m : Memory} {a : Nat} {bs : List Byte} {c : Host.Cell} (h : c ∈ Memory.store m a bs) :
    c ∈ m ∨ (a ≤ c.1 ∧ c.1 < a + bs.length) := by
  rw [Memory.store, List.mem_append, List.mem_append] at h
  rcases h with h | h | h
  · exact .inl (List.mem_filter.1 h).1
  · exact .inr (Memory.mem_cellsFrom h)
  · exact .inl (List.mem_filter.1 h).1

/-- Every store keeps the canonical form. -/
theorem Memory.wf_store (m : Memory) (a : Nat) (bs : List Byte) (h : Memory.wf m = true) :
    Memory.wf (Memory.store m a bs) = true := by
  rw [Memory.wf_iff] at h ⊢
  rw [Memory.store, List.pairwise_append, List.pairwise_append]
  refine ⟨h.filter _, ⟨Memory.pairwise_cellsFrom bs a, h.filter _, fun c hc d hd => ?_⟩, fun c hc d hd => ?_⟩
  · have h1 := Memory.mem_cellsFrom hc
    have h2 := (List.mem_filter.1 hd).2
    simp only [decide_eq_true_eq] at h2
    omega
  · have h1 := (List.mem_filter.1 hc).2
    simp only [decide_eq_true_eq] at h1
    rcases List.mem_append.1 hd with hd | hd
    · have h2 := Memory.mem_cellsFrom hd
      omega
    · have h2 := (List.mem_filter.1 hd).2
      simp only [decide_eq_true_eq] at h2
      omega

/-- The empty memory is in canonical form. -/
@[simp] theorem Memory.wf_nil : Memory.wf [] = true := rfl

end Sys2Proof.Machine
end

