-- ==== Sys2Proof/Laws/State.lean ====
section
/-! SUPPORT. What each update of the state does to each field: one lemma per field per update, so that no proof
unfolds a record update. -/

namespace Sys2Proof.Machine

variable (s : State)

/-! ## `store` -/

@[simp] theorem State.store_cfg (a : Nat) (bs : List Byte) : (s.store a bs).cfg = s.cfg := rfl
@[simp] theorem State.store_status (a : Nat) (bs : List Byte) : (s.store a bs).status = s.status := rfl
@[simp] theorem State.store_irqEn (a : Nat) (bs : List Byte) : (s.store a bs).irqEn = s.irqEn := rfl
@[simp] theorem State.store_errcode (a : Nat) (bs : List Byte) : (s.store a bs).errcode = s.errcode := rfl
@[simp] theorem State.store_result (a : Nat) (bs : List Byte) : (s.store a bs).result = s.result := rfl
@[simp] theorem State.store_arg0 (a : Nat) (bs : List Byte) : (s.store a bs).arg0 = s.arg0 := rfl
@[simp] theorem State.store_arg1 (a : Nat) (bs : List Byte) : (s.store a bs).arg1 = s.arg1 := rfl
@[simp] theorem State.store_cfgK (a : Nat) (bs : List Byte) : (s.store a bs).cfgK = s.cfgK := rfl
@[simp] theorem State.store_cfgM (a : Nat) (bs : List Byte) : (s.store a bs).cfgM = s.cfgM := rfl
@[simp] theorem State.store_present (a : Nat) (bs : List Byte) : (s.store a bs).present = s.present := rfl
@[simp] theorem State.store_matRows (a : Nat) (bs : List Byte) : (s.store a bs).matRows = s.matRows := rfl
@[simp] theorem State.store_matCols (a : Nat) (bs : List Byte) : (s.store a bs).matCols = s.matCols := rfl
@[simp] theorem State.store_slotLen (a : Nat) (bs : List Byte) : (s.store a bs).slotLen = s.slotLen := rfl
@[simp] theorem State.store_curCmd (a : Nat) (bs : List Byte) : (s.store a bs).curCmd = s.curCmd := rfl
@[simp] theorem State.store_mem (a : Nat) (bs : List Byte) : (s.store a bs).mem = Memory.store s.mem a bs := rfl
@[simp] theorem State.store_moves (a : Nat) (bs : List Byte) : (s.store a bs).moves = s.moves := rfl
@[simp] theorem State.store_responses (a : Nat) (bs : List Byte) : (s.store a bs).responses = s.responses := rfl
@[simp] theorem State.store_marks (a : Nat) (bs : List Byte) : (s.store a bs).marks = s.marks := rfl
@[simp] theorem State.store_draws (a : Nat) (bs : List Byte) : (s.store a bs).draws = s.draws := rfl
@[simp] theorem State.store_memEra (a : Nat) (bs : List Byte) : (s.store a bs).memEra = s.memEra := rfl
@[simp] theorem State.store_genEra (a : Nat) (bs : List Byte) : (s.store a bs).genEra = s.genEra := rfl

/-! ## `setResult` -/

@[simp] theorem State.setResult_cfg (r : Byte) : (s.setResult r).cfg = s.cfg := rfl
@[simp] theorem State.setResult_status (r : Byte) : (s.setResult r).status = s.status := rfl
@[simp] theorem State.setResult_irqEn (r : Byte) : (s.setResult r).irqEn = s.irqEn := rfl
@[simp] theorem State.setResult_errcode (r : Byte) : (s.setResult r).errcode = s.errcode := rfl
@[simp] theorem State.setResult_result (r : Byte) : (s.setResult r).result = r := rfl
@[simp] theorem State.setResult_arg0 (r : Byte) : (s.setResult r).arg0 = s.arg0 := rfl
@[simp] theorem State.setResult_arg1 (r : Byte) : (s.setResult r).arg1 = s.arg1 := rfl
@[simp] theorem State.setResult_cfgK (r : Byte) : (s.setResult r).cfgK = s.cfgK := rfl
@[simp] theorem State.setResult_cfgM (r : Byte) : (s.setResult r).cfgM = s.cfgM := rfl
@[simp] theorem State.setResult_present (r : Byte) : (s.setResult r).present = s.present := rfl
@[simp] theorem State.setResult_matRows (r : Byte) : (s.setResult r).matRows = s.matRows := rfl
@[simp] theorem State.setResult_matCols (r : Byte) : (s.setResult r).matCols = s.matCols := rfl
@[simp] theorem State.setResult_slotLen (r : Byte) : (s.setResult r).slotLen = s.slotLen := rfl
@[simp] theorem State.setResult_curCmd (r : Byte) : (s.setResult r).curCmd = s.curCmd := rfl
@[simp] theorem State.setResult_mem (r : Byte) : (s.setResult r).mem = s.mem := rfl
@[simp] theorem State.setResult_moves (r : Byte) : (s.setResult r).moves = s.moves := rfl
@[simp] theorem State.setResult_responses (r : Byte) : (s.setResult r).responses = s.responses := rfl
@[simp] theorem State.setResult_marks (r : Byte) : (s.setResult r).marks = s.marks := rfl
@[simp] theorem State.setResult_draws (r : Byte) : (s.setResult r).draws = s.draws := rfl
@[simp] theorem State.setResult_memEra (r : Byte) : (s.setResult r).memEra = s.memEra := rfl
@[simp] theorem State.setResult_genEra (r : Byte) : (s.setResult r).genEra = s.genEra := rfl

/-! ## `setDims` -/

@[simp] theorem State.setDims_cfg (i : MatSel) (r c : Nat) : (s.setDims i r c).cfg = s.cfg := rfl
@[simp] theorem State.setDims_status (i : MatSel) (r c : Nat) : (s.setDims i r c).status = s.status := rfl
@[simp] theorem State.setDims_irqEn (i : MatSel) (r c : Nat) : (s.setDims i r c).irqEn = s.irqEn := rfl
@[simp] theorem State.setDims_errcode (i : MatSel) (r c : Nat) : (s.setDims i r c).errcode = s.errcode := rfl
@[simp] theorem State.setDims_result (i : MatSel) (r c : Nat) : (s.setDims i r c).result = s.result := rfl
@[simp] theorem State.setDims_arg0 (i : MatSel) (r c : Nat) : (s.setDims i r c).arg0 = s.arg0 := rfl
@[simp] theorem State.setDims_arg1 (i : MatSel) (r c : Nat) : (s.setDims i r c).arg1 = s.arg1 := rfl
@[simp] theorem State.setDims_cfgK (i : MatSel) (r c : Nat) : (s.setDims i r c).cfgK = s.cfgK := rfl
@[simp] theorem State.setDims_cfgM (i : MatSel) (r c : Nat) : (s.setDims i r c).cfgM = s.cfgM := rfl
@[simp] theorem State.setDims_present (i : MatSel) (r c : Nat) : (s.setDims i r c).present = s.present := rfl
@[simp] theorem State.setDims_matRows (i : MatSel) (r c : Nat) : (s.setDims i r c).matRows = s.matRows.set i.toFin (BitVec.ofNat 9 r) := rfl
@[simp] theorem State.setDims_matCols (i : MatSel) (r c : Nat) : (s.setDims i r c).matCols = s.matCols.set i.toFin (BitVec.ofNat 9 c) := rfl
@[simp] theorem State.setDims_slotLen (i : MatSel) (r c : Nat) : (s.setDims i r c).slotLen = s.slotLen := rfl
@[simp] theorem State.setDims_curCmd (i : MatSel) (r c : Nat) : (s.setDims i r c).curCmd = s.curCmd := rfl
@[simp] theorem State.setDims_mem (i : MatSel) (r c : Nat) : (s.setDims i r c).mem = s.mem := rfl
@[simp] theorem State.setDims_moves (i : MatSel) (r c : Nat) : (s.setDims i r c).moves = s.moves := rfl
@[simp] theorem State.setDims_responses (i : MatSel) (r c : Nat) : (s.setDims i r c).responses = s.responses := rfl
@[simp] theorem State.setDims_marks (i : MatSel) (r c : Nat) : (s.setDims i r c).marks = s.marks := rfl
@[simp] theorem State.setDims_draws (i : MatSel) (r c : Nat) : (s.setDims i r c).draws = s.draws := rfl
@[simp] theorem State.setDims_memEra (i : MatSel) (r c : Nat) : (s.setDims i r c).memEra = s.memEra := rfl
@[simp] theorem State.setDims_genEra (i : MatSel) (r c : Nat) : (s.setDims i r c).genEra = s.genEra := rfl

/-! ## `setLen` -/

@[simp] theorem State.setLen_cfg (x l : Nat) : (s.setLen x l).cfg = s.cfg := rfl
@[simp] theorem State.setLen_status (x l : Nat) : (s.setLen x l).status = s.status := rfl
@[simp] theorem State.setLen_irqEn (x l : Nat) : (s.setLen x l).irqEn = s.irqEn := rfl
@[simp] theorem State.setLen_errcode (x l : Nat) : (s.setLen x l).errcode = s.errcode := rfl
@[simp] theorem State.setLen_result (x l : Nat) : (s.setLen x l).result = s.result := rfl
@[simp] theorem State.setLen_arg0 (x l : Nat) : (s.setLen x l).arg0 = s.arg0 := rfl
@[simp] theorem State.setLen_arg1 (x l : Nat) : (s.setLen x l).arg1 = s.arg1 := rfl
@[simp] theorem State.setLen_cfgK (x l : Nat) : (s.setLen x l).cfgK = s.cfgK := rfl
@[simp] theorem State.setLen_cfgM (x l : Nat) : (s.setLen x l).cfgM = s.cfgM := rfl
@[simp] theorem State.setLen_present (x l : Nat) : (s.setLen x l).present = s.present := rfl
@[simp] theorem State.setLen_matRows (x l : Nat) : (s.setLen x l).matRows = s.matRows := rfl
@[simp] theorem State.setLen_matCols (x l : Nat) : (s.setLen x l).matCols = s.matCols := rfl
@[simp] theorem State.setLen_slotLen (x l : Nat) : (s.setLen x l).slotLen = s.slotLen.setIfInBounds x (BitVec.ofNat 32 l) := rfl
@[simp] theorem State.setLen_curCmd (x l : Nat) : (s.setLen x l).curCmd = s.curCmd := rfl
@[simp] theorem State.setLen_mem (x l : Nat) : (s.setLen x l).mem = s.mem := rfl
@[simp] theorem State.setLen_moves (x l : Nat) : (s.setLen x l).moves = s.moves := rfl
@[simp] theorem State.setLen_responses (x l : Nat) : (s.setLen x l).responses = s.responses := rfl
@[simp] theorem State.setLen_marks (x l : Nat) : (s.setLen x l).marks = s.marks := rfl
@[simp] theorem State.setLen_draws (x l : Nat) : (s.setLen x l).draws = s.draws := rfl
@[simp] theorem State.setLen_memEra (x l : Nat) : (s.setLen x l).memEra = s.memEra := rfl
@[simp] theorem State.setLen_genEra (x l : Nat) : (s.setLen x l).genEra = s.genEra := rfl

/-! ## `putShard` -/

@[simp] theorem State.putShard_cfg (x l : Nat) (bs : List Byte) : (s.putShard x l bs).cfg = s.cfg := rfl
@[simp] theorem State.putShard_status (x l : Nat) (bs : List Byte) : (s.putShard x l bs).status = s.status := rfl
@[simp] theorem State.putShard_irqEn (x l : Nat) (bs : List Byte) : (s.putShard x l bs).irqEn = s.irqEn := rfl
@[simp] theorem State.putShard_errcode (x l : Nat) (bs : List Byte) : (s.putShard x l bs).errcode = s.errcode := rfl
@[simp] theorem State.putShard_result (x l : Nat) (bs : List Byte) : (s.putShard x l bs).result = s.result := rfl
@[simp] theorem State.putShard_arg0 (x l : Nat) (bs : List Byte) : (s.putShard x l bs).arg0 = s.arg0 := rfl
@[simp] theorem State.putShard_arg1 (x l : Nat) (bs : List Byte) : (s.putShard x l bs).arg1 = s.arg1 := rfl
@[simp] theorem State.putShard_cfgK (x l : Nat) (bs : List Byte) : (s.putShard x l bs).cfgK = s.cfgK := rfl
@[simp] theorem State.putShard_cfgM (x l : Nat) (bs : List Byte) : (s.putShard x l bs).cfgM = s.cfgM := rfl
@[simp] theorem State.putShard_present (x l : Nat) (bs : List Byte) : (s.putShard x l bs).present = s.present := rfl
@[simp] theorem State.putShard_matRows (x l : Nat) (bs : List Byte) : (s.putShard x l bs).matRows = s.matRows := rfl
@[simp] theorem State.putShard_matCols (x l : Nat) (bs : List Byte) : (s.putShard x l bs).matCols = s.matCols := rfl
@[simp] theorem State.putShard_slotLen (x l : Nat) (bs : List Byte) : (s.putShard x l bs).slotLen = s.slotLen.setIfInBounds x (BitVec.ofNat 32 l) := rfl
@[simp] theorem State.putShard_curCmd (x l : Nat) (bs : List Byte) : (s.putShard x l bs).curCmd = s.curCmd := rfl
@[simp] theorem State.putShard_mem (x l : Nat) (bs : List Byte) : (s.putShard x l bs).mem = Memory.store s.mem (s.shardBase x) bs := rfl
@[simp] theorem State.putShard_moves (x l : Nat) (bs : List Byte) : (s.putShard x l bs).moves = s.moves := rfl
@[simp] theorem State.putShard_responses (x l : Nat) (bs : List Byte) : (s.putShard x l bs).responses = s.responses := rfl
@[simp] theorem State.putShard_marks (x l : Nat) (bs : List Byte) : (s.putShard x l bs).marks = s.marks := rfl
@[simp] theorem State.putShard_draws (x l : Nat) (bs : List Byte) : (s.putShard x l bs).draws = s.draws := rfl
@[simp] theorem State.putShard_memEra (x l : Nat) (bs : List Byte) : (s.putShard x l bs).memEra = s.memEra := rfl
@[simp] theorem State.putShard_genEra (x l : Nat) (bs : List Byte) : (s.putShard x l bs).genEra = s.genEra := rfl

/-! ## `writeMat` -/

@[simp] theorem State.writeMat_cfg (d : MatSel) (r c : Nat) (R : Mat) : (s.writeMat d r c R).cfg = s.cfg := rfl
@[simp] theorem State.writeMat_status (d : MatSel) (r c : Nat) (R : Mat) : (s.writeMat d r c R).status = s.status := rfl
@[simp] theorem State.writeMat_irqEn (d : MatSel) (r c : Nat) (R : Mat) : (s.writeMat d r c R).irqEn = s.irqEn := rfl
@[simp] theorem State.writeMat_errcode (d : MatSel) (r c : Nat) (R : Mat) : (s.writeMat d r c R).errcode = s.errcode := rfl
@[simp] theorem State.writeMat_result (d : MatSel) (r c : Nat) (R : Mat) : (s.writeMat d r c R).result = s.result := rfl
@[simp] theorem State.writeMat_arg0 (d : MatSel) (r c : Nat) (R : Mat) : (s.writeMat d r c R).arg0 = s.arg0 := rfl
@[simp] theorem State.writeMat_arg1 (d : MatSel) (r c : Nat) (R : Mat) : (s.writeMat d r c R).arg1 = s.arg1 := rfl
@[simp] theorem State.writeMat_cfgK (d : MatSel) (r c : Nat) (R : Mat) : (s.writeMat d r c R).cfgK = s.cfgK := rfl
@[simp] theorem State.writeMat_cfgM (d : MatSel) (r c : Nat) (R : Mat) : (s.writeMat d r c R).cfgM = s.cfgM := rfl
@[simp] theorem State.writeMat_present (d : MatSel) (r c : Nat) (R : Mat) : (s.writeMat d r c R).present = s.present := rfl
@[simp] theorem State.writeMat_matRows (d : MatSel) (r c : Nat) (R : Mat) : (s.writeMat d r c R).matRows = s.matRows.set d.toFin (BitVec.ofNat 9 r) := rfl
@[simp] theorem State.writeMat_matCols (d : MatSel) (r c : Nat) (R : Mat) : (s.writeMat d r c R).matCols = s.matCols.set d.toFin (BitVec.ofNat 9 c) := rfl
@[simp] theorem State.writeMat_slotLen (d : MatSel) (r c : Nat) (R : Mat) : (s.writeMat d r c R).slotLen = s.slotLen := rfl
@[simp] theorem State.writeMat_curCmd (d : MatSel) (r c : Nat) (R : Mat) : (s.writeMat d r c R).curCmd = s.curCmd := rfl
@[simp] theorem State.writeMat_mem (d : MatSel) (r c : Nat) (R : Mat) : (s.writeMat d r c R).mem = Memory.store s.mem (matBase d) (R.bytes r c) := rfl
@[simp] theorem State.writeMat_moves (d : MatSel) (r c : Nat) (R : Mat) : (s.writeMat d r c R).moves = s.moves := rfl
@[simp] theorem State.writeMat_responses (d : MatSel) (r c : Nat) (R : Mat) : (s.writeMat d r c R).responses = s.responses := rfl
@[simp] theorem State.writeMat_marks (d : MatSel) (r c : Nat) (R : Mat) : (s.writeMat d r c R).marks = s.marks := rfl
@[simp] theorem State.writeMat_draws (d : MatSel) (r c : Nat) (R : Mat) : (s.writeMat d r c R).draws = s.draws := rfl
@[simp] theorem State.writeMat_memEra (d : MatSel) (r c : Nat) (R : Mat) : (s.writeMat d r c R).memEra = s.memEra := rfl
@[simp] theorem State.writeMat_genEra (d : MatSel) (r c : Nat) (R : Mat) : (s.writeMat d r c R).genEra = s.genEra := rfl

/-! ## `configure` -/

@[simp] theorem State.configure_cfg (k m : Nat) : (s.configure k m).cfg = s.cfg := rfl
@[simp] theorem State.configure_status (k m : Nat) : (s.configure k m).status = s.status.onConfigured := rfl
@[simp] theorem State.configure_irqEn (k m : Nat) : (s.configure k m).irqEn = s.irqEn := rfl
@[simp] theorem State.configure_errcode (k m : Nat) : (s.configure k m).errcode = s.errcode := rfl
@[simp] theorem State.configure_result (k m : Nat) : (s.configure k m).result = s.result := rfl
@[simp] theorem State.configure_arg0 (k m : Nat) : (s.configure k m).arg0 = s.arg0 := rfl
@[simp] theorem State.configure_arg1 (k m : Nat) : (s.configure k m).arg1 = s.arg1 := rfl
@[simp] theorem State.configure_cfgK (k m : Nat) : (s.configure k m).cfgK = BitVec.ofNat 9 k := rfl
@[simp] theorem State.configure_cfgM (k m : Nat) : (s.configure k m).cfgM = BitVec.ofNat 9 m := rfl
@[simp] theorem State.configure_present (k m : Nat) : (s.configure k m).present = s.present := rfl
@[simp] theorem State.configure_matRows (k m : Nat) : (s.configure k m).matRows = s.matRows := rfl
@[simp] theorem State.configure_matCols (k m : Nat) : (s.configure k m).matCols = s.matCols := rfl
@[simp] theorem State.configure_slotLen (k m : Nat) : (s.configure k m).slotLen = s.slotLen := rfl
@[simp] theorem State.configure_curCmd (k m : Nat) : (s.configure k m).curCmd = s.curCmd := rfl
@[simp] theorem State.configure_mem (k m : Nat) : (s.configure k m).mem = s.mem := rfl
@[simp] theorem State.configure_moves (k m : Nat) : (s.configure k m).moves = s.moves := rfl
@[simp] theorem State.configure_responses (k m : Nat) : (s.configure k m).responses = s.responses := rfl
@[simp] theorem State.configure_marks (k m : Nat) : (s.configure k m).marks = s.marks := rfl
@[simp] theorem State.configure_draws (k m : Nat) : (s.configure k m).draws = s.draws := rfl
@[simp] theorem State.configure_memEra (k m : Nat) : (s.configure k m).memEra = s.memEra := rfl
@[simp] theorem State.configure_genEra (k m : Nat) : (s.configure k m).genEra = s.genEra + 1 := rfl

/-! ## `accept` -/

@[simp] theorem State.accept_cfg (w : Word) : (s.accept w).cfg = s.cfg := rfl
@[simp] theorem State.accept_status (w : Word) : (s.accept w).status = s.status.onAccept := rfl
@[simp] theorem State.accept_irqEn (w : Word) : (s.accept w).irqEn = s.irqEn := rfl
@[simp] theorem State.accept_errcode (w : Word) : (s.accept w).errcode = 0 := rfl
@[simp] theorem State.accept_result (w : Word) : (s.accept w).result = s.result := rfl
@[simp] theorem State.accept_arg0 (w : Word) : (s.accept w).arg0 = s.arg0 := rfl
@[simp] theorem State.accept_arg1 (w : Word) : (s.accept w).arg1 = s.arg1 := rfl
@[simp] theorem State.accept_cfgK (w : Word) : (s.accept w).cfgK = s.cfgK := rfl
@[simp] theorem State.accept_cfgM (w : Word) : (s.accept w).cfgM = s.cfgM := rfl
@[simp] theorem State.accept_present (w : Word) : (s.accept w).present = s.present := rfl
@[simp] theorem State.accept_matRows (w : Word) : (s.accept w).matRows = s.matRows := rfl
@[simp] theorem State.accept_matCols (w : Word) : (s.accept w).matCols = s.matCols := rfl
@[simp] theorem State.accept_slotLen (w : Word) : (s.accept w).slotLen = s.slotLen := rfl
@[simp] theorem State.accept_curCmd (w : Word) : (s.accept w).curCmd = w := rfl
@[simp] theorem State.accept_mem (w : Word) : (s.accept w).mem = s.mem := rfl
@[simp] theorem State.accept_moves (w : Word) : (s.accept w).moves = s.moves := rfl
@[simp] theorem State.accept_responses (w : Word) : (s.accept w).responses = s.responses := rfl
@[simp] theorem State.accept_marks (w : Word) : (s.accept w).marks = s.marks := rfl
@[simp] theorem State.accept_draws (w : Word) : (s.accept w).draws = s.draws := rfl
@[simp] theorem State.accept_memEra (w : Word) : (s.accept w).memEra = s.memEra := rfl
@[simp] theorem State.accept_genEra (w : Word) : (s.accept w).genEra = s.genEra := rfl

/-! ## `complete` -/

@[simp] theorem State.complete_cfg (e : ErrorCode) : (s.complete e).cfg = s.cfg := rfl
@[simp] theorem State.complete_status (e : ErrorCode) : (s.complete e).status = s.status.onComplete e.code := rfl
@[simp] theorem State.complete_irqEn (e : ErrorCode) : (s.complete e).irqEn = s.irqEn := rfl
@[simp] theorem State.complete_errcode (e : ErrorCode) : (s.complete e).errcode = e.code := rfl
@[simp] theorem State.complete_result (e : ErrorCode) : (s.complete e).result = s.result := rfl
@[simp] theorem State.complete_arg0 (e : ErrorCode) : (s.complete e).arg0 = s.arg0 := rfl
@[simp] theorem State.complete_arg1 (e : ErrorCode) : (s.complete e).arg1 = s.arg1 := rfl
@[simp] theorem State.complete_cfgK (e : ErrorCode) : (s.complete e).cfgK = s.cfgK := rfl
@[simp] theorem State.complete_cfgM (e : ErrorCode) : (s.complete e).cfgM = s.cfgM := rfl
@[simp] theorem State.complete_present (e : ErrorCode) : (s.complete e).present = s.present := rfl
@[simp] theorem State.complete_matRows (e : ErrorCode) : (s.complete e).matRows = s.matRows := rfl
@[simp] theorem State.complete_matCols (e : ErrorCode) : (s.complete e).matCols = s.matCols := rfl
@[simp] theorem State.complete_slotLen (e : ErrorCode) : (s.complete e).slotLen = s.slotLen := rfl
@[simp] theorem State.complete_curCmd (e : ErrorCode) : (s.complete e).curCmd = 0 := rfl
@[simp] theorem State.complete_mem (e : ErrorCode) : (s.complete e).mem = s.mem := rfl
@[simp] theorem State.complete_moves (e : ErrorCode) : (s.complete e).moves = s.moves := rfl
@[simp] theorem State.complete_responses (e : ErrorCode) : (s.complete e).responses = s.responses := rfl
@[simp] theorem State.complete_marks (e : ErrorCode) : (s.complete e).marks = s.marks := rfl
@[simp] theorem State.complete_draws (e : ErrorCode) : (s.complete e).draws = s.draws := rfl
@[simp] theorem State.complete_memEra (e : ErrorCode) : (s.complete e).memEra = s.memEra := rfl
@[simp] theorem State.complete_genEra (e : ErrorCode) : (s.complete e).genEra = s.genEra := rfl

/-! ## `mark` -/

@[simp] theorem State.mark_cfg (h : HostMark) : (s.mark h).cfg = s.cfg := rfl
@[simp] theorem State.mark_status (h : HostMark) : (s.mark h).status = s.status := rfl
@[simp] theorem State.mark_irqEn (h : HostMark) : (s.mark h).irqEn = s.irqEn := rfl
@[simp] theorem State.mark_errcode (h : HostMark) : (s.mark h).errcode = s.errcode := rfl
@[simp] theorem State.mark_result (h : HostMark) : (s.mark h).result = s.result := rfl
@[simp] theorem State.mark_arg0 (h : HostMark) : (s.mark h).arg0 = s.arg0 := rfl
@[simp] theorem State.mark_arg1 (h : HostMark) : (s.mark h).arg1 = s.arg1 := rfl
@[simp] theorem State.mark_cfgK (h : HostMark) : (s.mark h).cfgK = s.cfgK := rfl
@[simp] theorem State.mark_cfgM (h : HostMark) : (s.mark h).cfgM = s.cfgM := rfl
@[simp] theorem State.mark_present (h : HostMark) : (s.mark h).present = s.present := rfl
@[simp] theorem State.mark_matRows (h : HostMark) : (s.mark h).matRows = s.matRows := rfl
@[simp] theorem State.mark_matCols (h : HostMark) : (s.mark h).matCols = s.matCols := rfl
@[simp] theorem State.mark_slotLen (h : HostMark) : (s.mark h).slotLen = s.slotLen := rfl
@[simp] theorem State.mark_curCmd (h : HostMark) : (s.mark h).curCmd = s.curCmd := rfl
@[simp] theorem State.mark_mem (h : HostMark) : (s.mark h).mem = s.mem := rfl
@[simp] theorem State.mark_moves (h : HostMark) : (s.mark h).moves = s.moves := rfl
@[simp] theorem State.mark_responses (h : HostMark) : (s.mark h).responses = s.responses := rfl
@[simp] theorem State.mark_marks (h : HostMark) : (s.mark h).marks = h :: s.marks := rfl
@[simp] theorem State.mark_draws (h : HostMark) : (s.mark h).draws = s.draws := rfl
@[simp] theorem State.mark_memEra (h : HostMark) : (s.mark h).memEra = s.memEra := rfl
@[simp] theorem State.mark_genEra (h : HostMark) : (s.mark h).genEra = s.genEra := rfl

/-! ## `respond` -/

@[simp] theorem State.respond_cfg (r : Response) : (s.respond r).cfg = s.cfg := rfl
@[simp] theorem State.respond_status (r : Response) : (s.respond r).status = s.status := rfl
@[simp] theorem State.respond_irqEn (r : Response) : (s.respond r).irqEn = s.irqEn := rfl
@[simp] theorem State.respond_errcode (r : Response) : (s.respond r).errcode = s.errcode := rfl
@[simp] theorem State.respond_result (r : Response) : (s.respond r).result = s.result := rfl
@[simp] theorem State.respond_arg0 (r : Response) : (s.respond r).arg0 = s.arg0 := rfl
@[simp] theorem State.respond_arg1 (r : Response) : (s.respond r).arg1 = s.arg1 := rfl
@[simp] theorem State.respond_cfgK (r : Response) : (s.respond r).cfgK = s.cfgK := rfl
@[simp] theorem State.respond_cfgM (r : Response) : (s.respond r).cfgM = s.cfgM := rfl
@[simp] theorem State.respond_present (r : Response) : (s.respond r).present = s.present := rfl
@[simp] theorem State.respond_matRows (r : Response) : (s.respond r).matRows = s.matRows := rfl
@[simp] theorem State.respond_matCols (r : Response) : (s.respond r).matCols = s.matCols := rfl
@[simp] theorem State.respond_slotLen (r : Response) : (s.respond r).slotLen = s.slotLen := rfl
@[simp] theorem State.respond_curCmd (r : Response) : (s.respond r).curCmd = s.curCmd := rfl
@[simp] theorem State.respond_mem (r : Response) : (s.respond r).mem = s.mem := rfl
@[simp] theorem State.respond_moves (r : Response) : (s.respond r).moves = s.moves := rfl
@[simp] theorem State.respond_responses (r : Response) : (s.respond r).responses = r :: s.responses := rfl
@[simp] theorem State.respond_marks (r : Response) : (s.respond r).marks = s.marks := rfl
@[simp] theorem State.respond_draws (r : Response) : (s.respond r).draws = s.draws := rfl
@[simp] theorem State.respond_memEra (r : Response) : (s.respond r).memEra = s.memEra := rfl
@[simp] theorem State.respond_genEra (r : Response) : (s.respond r).genEra = s.genEra := rfl

/-! ## `drop` -/

@[simp] theorem State.drop_cfg : (s.drop).cfg = s.cfg := rfl
@[simp] theorem State.drop_status : (s.drop).status = s.status.onDrop := rfl
@[simp] theorem State.drop_irqEn : (s.drop).irqEn = s.irqEn := rfl
@[simp] theorem State.drop_errcode : (s.drop).errcode = s.errcode := rfl
@[simp] theorem State.drop_result : (s.drop).result = s.result := rfl
@[simp] theorem State.drop_arg0 : (s.drop).arg0 = s.arg0 := rfl
@[simp] theorem State.drop_arg1 : (s.drop).arg1 = s.arg1 := rfl
@[simp] theorem State.drop_cfgK : (s.drop).cfgK = s.cfgK := rfl
@[simp] theorem State.drop_cfgM : (s.drop).cfgM = s.cfgM := rfl
@[simp] theorem State.drop_present : (s.drop).present = s.present := rfl
@[simp] theorem State.drop_matRows : (s.drop).matRows = s.matRows := rfl
@[simp] theorem State.drop_matCols : (s.drop).matCols = s.matCols := rfl
@[simp] theorem State.drop_slotLen : (s.drop).slotLen = s.slotLen := rfl
@[simp] theorem State.drop_curCmd : (s.drop).curCmd = s.curCmd := rfl
@[simp] theorem State.drop_mem : (s.drop).mem = s.mem := rfl
@[simp] theorem State.drop_moves : (s.drop).moves = s.moves := rfl
@[simp] theorem State.drop_responses : (s.drop).responses = s.responses := rfl
@[simp] theorem State.drop_marks : (s.drop).marks = .droppedWrite :: s.marks := rfl
@[simp] theorem State.drop_draws : (s.drop).draws = s.draws := rfl
@[simp] theorem State.drop_memEra : (s.drop).memEra = s.memEra := rfl
@[simp] theorem State.drop_genEra : (s.drop).genEra = s.genEra := rfl

/-! ## `fillTables` -/

@[simp] theorem State.fillTables_cfg : (s.fillTables).cfg = s.cfg := rfl
@[simp] theorem State.fillTables_status : (s.fillTables).status = s.status.onReady := rfl
@[simp] theorem State.fillTables_irqEn : (s.fillTables).irqEn = s.irqEn := rfl
@[simp] theorem State.fillTables_errcode : (s.fillTables).errcode = s.errcode := rfl
@[simp] theorem State.fillTables_result : (s.fillTables).result = s.result := rfl
@[simp] theorem State.fillTables_arg0 : (s.fillTables).arg0 = s.arg0 := rfl
@[simp] theorem State.fillTables_arg1 : (s.fillTables).arg1 = s.arg1 := rfl
@[simp] theorem State.fillTables_cfgK : (s.fillTables).cfgK = s.cfgK := rfl
@[simp] theorem State.fillTables_cfgM : (s.fillTables).cfgM = s.cfgM := rfl
@[simp] theorem State.fillTables_present : (s.fillTables).present = s.present := rfl
@[simp] theorem State.fillTables_matRows : (s.fillTables).matRows = s.matRows := rfl
@[simp] theorem State.fillTables_matCols : (s.fillTables).matCols = s.matCols := rfl
@[simp] theorem State.fillTables_slotLen : (s.fillTables).slotLen = s.slotLen := rfl
@[simp] theorem State.fillTables_curCmd : (s.fillTables).curCmd = s.curCmd := rfl
@[simp] theorem State.fillTables_mem : (s.fillTables).mem = Memory.store (Memory.store s.mem logBase (logTable s.cfg)) expBase (expTable s.cfg) := rfl
@[simp] theorem State.fillTables_moves : (s.fillTables).moves = s.moves := rfl
@[simp] theorem State.fillTables_responses : (s.fillTables).responses = s.responses := rfl
@[simp] theorem State.fillTables_marks : (s.fillTables).marks = s.marks := rfl
@[simp] theorem State.fillTables_draws : (s.fillTables).draws = s.draws := rfl
@[simp] theorem State.fillTables_memEra : (s.fillTables).memEra = s.memEra := rfl
@[simp] theorem State.fillTables_genEra : (s.fillTables).genEra = s.genEra := rfl

/-! ## `writeCtrl` -/

@[simp] theorem State.writeCtrl_cfg (v : Word) : (s.writeCtrl v).cfg = s.cfg := rfl
@[simp] theorem State.writeCtrl_status (v : Word) : (s.writeCtrl v).status = s.status.onAck (v.getLsbD 1) := rfl
@[simp] theorem State.writeCtrl_irqEn (v : Word) : (s.writeCtrl v).irqEn = v.getLsbD 0 := rfl
@[simp] theorem State.writeCtrl_errcode (v : Word) : (s.writeCtrl v).errcode = s.errcode := rfl
@[simp] theorem State.writeCtrl_result (v : Word) : (s.writeCtrl v).result = s.result := rfl
@[simp] theorem State.writeCtrl_arg0 (v : Word) : (s.writeCtrl v).arg0 = s.arg0 := rfl
@[simp] theorem State.writeCtrl_arg1 (v : Word) : (s.writeCtrl v).arg1 = s.arg1 := rfl
@[simp] theorem State.writeCtrl_cfgK (v : Word) : (s.writeCtrl v).cfgK = s.cfgK := rfl
@[simp] theorem State.writeCtrl_cfgM (v : Word) : (s.writeCtrl v).cfgM = s.cfgM := rfl
@[simp] theorem State.writeCtrl_present (v : Word) : (s.writeCtrl v).present = s.present := rfl
@[simp] theorem State.writeCtrl_matRows (v : Word) : (s.writeCtrl v).matRows = s.matRows := rfl
@[simp] theorem State.writeCtrl_matCols (v : Word) : (s.writeCtrl v).matCols = s.matCols := rfl
@[simp] theorem State.writeCtrl_slotLen (v : Word) : (s.writeCtrl v).slotLen = s.slotLen := rfl
@[simp] theorem State.writeCtrl_curCmd (v : Word) : (s.writeCtrl v).curCmd = s.curCmd := rfl
@[simp] theorem State.writeCtrl_mem (v : Word) : (s.writeCtrl v).mem = s.mem := rfl
@[simp] theorem State.writeCtrl_moves (v : Word) : (s.writeCtrl v).moves = s.moves := rfl
@[simp] theorem State.writeCtrl_responses (v : Word) : (s.writeCtrl v).responses = s.responses := rfl
@[simp] theorem State.writeCtrl_marks (v : Word) : (s.writeCtrl v).marks = s.marks := rfl
@[simp] theorem State.writeCtrl_draws (v : Word) : (s.writeCtrl v).draws = s.draws := rfl
@[simp] theorem State.writeCtrl_memEra (v : Word) : (s.writeCtrl v).memEra = s.memEra := rfl
@[simp] theorem State.writeCtrl_genEra (v : Word) : (s.writeCtrl v).genEra = s.genEra := rfl

/-! ## `doReset` -/

@[simp] theorem State.doReset_cfg : (s.doReset).cfg = s.cfg := rfl
@[simp] theorem State.doReset_status : (s.doReset).status = ⟨false, false, false, false, false, false, false⟩ := rfl
@[simp] theorem State.doReset_irqEn : (s.doReset).irqEn = false := rfl
@[simp] theorem State.doReset_errcode : (s.doReset).errcode = 0 := rfl
@[simp] theorem State.doReset_result : (s.doReset).result = 0 := rfl
@[simp] theorem State.doReset_arg0 : (s.doReset).arg0 = 0 := rfl
@[simp] theorem State.doReset_arg1 : (s.doReset).arg1 = 0 := rfl
@[simp] theorem State.doReset_cfgK : (s.doReset).cfgK = 0 := rfl
@[simp] theorem State.doReset_cfgM : (s.doReset).cfgM = 0 := rfl
@[simp] theorem State.doReset_present : (s.doReset).present = Vector.replicate 8 0 := rfl
@[simp] theorem State.doReset_matRows : (s.doReset).matRows = Vector.replicate 4 0 := rfl
@[simp] theorem State.doReset_matCols : (s.doReset).matCols = Vector.replicate 4 0 := rfl
@[simp] theorem State.doReset_slotLen : (s.doReset).slotLen = Vector.replicate 256 0 := rfl
@[simp] theorem State.doReset_curCmd : (s.doReset).curCmd = 0 := rfl
@[simp] theorem State.doReset_mem : (s.doReset).mem = [] := rfl
@[simp] theorem State.doReset_moves : (s.doReset).moves = s.moves := rfl
@[simp] theorem State.doReset_responses : (s.doReset).responses = s.responses := rfl
@[simp] theorem State.doReset_marks : (s.doReset).marks = s.marks := rfl
@[simp] theorem State.doReset_draws : (s.doReset).draws = s.draws := rfl
@[simp] theorem State.doReset_memEra : (s.doReset).memEra = s.memEra + 1 := rfl
@[simp] theorem State.doReset_genEra : (s.doReset).genEra = s.genEra + 1 := rfl

/-! ## The flags -/

@[simp] theorem Status.onAccept_busy (f : Status) : (f.onAccept).busy = true := rfl
@[simp] theorem Status.onAccept_ready (f : Status) : (f.onAccept).ready = f.ready := rfl
@[simp] theorem Status.onAccept_done (f : Status) : (f.onAccept).done = false := rfl
@[simp] theorem Status.onAccept_err (f : Status) : (f.onAccept).err = false := rfl
@[simp] theorem Status.onAccept_fatal (f : Status) : (f.onAccept).fatal = f.fatal := rfl
@[simp] theorem Status.onAccept_cfgValid (f : Status) : (f.onAccept).cfgValid = f.cfgValid := rfl
@[simp] theorem Status.onAccept_wdrop (f : Status) : (f.onAccept).wdrop = false := rfl

@[simp] theorem Status.onComplete_busy (f : Status) (c : Byte) : (f.onComplete c).busy = false := rfl
@[simp] theorem Status.onComplete_ready (f : Status) (c : Byte) : (f.onComplete c).ready = f.ready := rfl
@[simp] theorem Status.onComplete_done (f : Status) (c : Byte) : (f.onComplete c).done = true := rfl
@[simp] theorem Status.onComplete_err (f : Status) (c : Byte) : (f.onComplete c).err = (c != 0) := rfl
@[simp] theorem Status.onComplete_fatal (f : Status) (c : Byte) : (f.onComplete c).fatal = (f.fatal || c == 0x07) := rfl
@[simp] theorem Status.onComplete_cfgValid (f : Status) (c : Byte) : (f.onComplete c).cfgValid = f.cfgValid := rfl
@[simp] theorem Status.onComplete_wdrop (f : Status) (c : Byte) : (f.onComplete c).wdrop = f.wdrop := rfl

@[simp] theorem Status.onDrop_busy (f : Status) : (f.onDrop).busy = f.busy := rfl
@[simp] theorem Status.onDrop_ready (f : Status) : (f.onDrop).ready = f.ready := rfl
@[simp] theorem Status.onDrop_done (f : Status) : (f.onDrop).done = f.done := rfl
@[simp] theorem Status.onDrop_err (f : Status) : (f.onDrop).err = f.err := rfl
@[simp] theorem Status.onDrop_fatal (f : Status) : (f.onDrop).fatal = f.fatal := rfl
@[simp] theorem Status.onDrop_cfgValid (f : Status) : (f.onDrop).cfgValid = f.cfgValid := rfl
@[simp] theorem Status.onDrop_wdrop (f : Status) : (f.onDrop).wdrop = true := rfl

@[simp] theorem Status.onAck_busy (f : Status) (b : Bool) : (f.onAck b).busy = f.busy := rfl
@[simp] theorem Status.onAck_ready (f : Status) (b : Bool) : (f.onAck b).ready = f.ready := rfl
@[simp] theorem Status.onAck_done (f : Status) (b : Bool) : (f.onAck b).done = (f.done && !b) := rfl
@[simp] theorem Status.onAck_err (f : Status) (b : Bool) : (f.onAck b).err = f.err := rfl
@[simp] theorem Status.onAck_fatal (f : Status) (b : Bool) : (f.onAck b).fatal = f.fatal := rfl
@[simp] theorem Status.onAck_cfgValid (f : Status) (b : Bool) : (f.onAck b).cfgValid = f.cfgValid := rfl
@[simp] theorem Status.onAck_wdrop (f : Status) (b : Bool) : (f.onAck b).wdrop = f.wdrop := rfl

@[simp] theorem Status.onReady_busy (f : Status) : (f.onReady).busy = f.busy := rfl
@[simp] theorem Status.onReady_ready (f : Status) : (f.onReady).ready = true := rfl
@[simp] theorem Status.onReady_done (f : Status) : (f.onReady).done = f.done := rfl
@[simp] theorem Status.onReady_err (f : Status) : (f.onReady).err = f.err := rfl
@[simp] theorem Status.onReady_fatal (f : Status) : (f.onReady).fatal = f.fatal := rfl
@[simp] theorem Status.onReady_cfgValid (f : Status) : (f.onReady).cfgValid = f.cfgValid := rfl
@[simp] theorem Status.onReady_wdrop (f : Status) : (f.onReady).wdrop = f.wdrop := rfl

@[simp] theorem Status.onConfigured_busy (f : Status) : (f.onConfigured).busy = f.busy := rfl
@[simp] theorem Status.onConfigured_ready (f : Status) : (f.onConfigured).ready = f.ready := rfl
@[simp] theorem Status.onConfigured_done (f : Status) : (f.onConfigured).done = f.done := rfl
@[simp] theorem Status.onConfigured_err (f : Status) : (f.onConfigured).err = f.err := rfl
@[simp] theorem Status.onConfigured_fatal (f : Status) : (f.onConfigured).fatal = f.fatal := rfl
@[simp] theorem Status.onConfigured_cfgValid (f : Status) : (f.onConfigured).cfgValid = true := rfl
@[simp] theorem Status.onConfigured_wdrop (f : Status) : (f.onConfigured).wdrop = f.wdrop := rfl

/-! ## The error codes -/

@[simp] theorem ErrorCode.code_ok : ErrorCode.ok.code = 0 := rfl
@[simp] theorem ErrorCode.code_invalidShardCount : ErrorCode.invalidShardCount.code = 1 := rfl
@[simp] theorem ErrorCode.code_invalidDataSize : ErrorCode.invalidDataSize.code = 2 := rfl
@[simp] theorem ErrorCode.code_insufficientShards : ErrorCode.insufficientShards.code = 3 := rfl
@[simp] theorem ErrorCode.code_divideByZero : ErrorCode.divideByZero.code = 4 := rfl
@[simp] theorem ErrorCode.code_singularMatrix : ErrorCode.singularMatrix.code = 5 := rfl
@[simp] theorem ErrorCode.code_reconstructionFailed : ErrorCode.reconstructionFailed.code = 6 := rfl
@[simp] theorem ErrorCode.code_dimensionMismatch : ErrorCode.dimensionMismatch.code = 7 := rfl
@[simp] theorem ErrorCode.code_matrixConstruction : ErrorCode.matrixConstruction.code = 8 := rfl
@[simp] theorem ErrorCode.code_illegalCommand : ErrorCode.illegalCommand.code = 9 := rfl
@[simp] theorem ErrorCode.code_notConfigured : ErrorCode.notConfigured.code = 10 := rfl
@[simp] theorem ErrorCode.code_invalidIndex : ErrorCode.invalidIndex.code = 11 := rfl

/-- Only success has code 0. -/
@[simp] theorem ErrorCode.code_eq_zero (e : ErrorCode) : e.code = 0 ↔ e = .ok := by cases e <;> decide

/-- Only `DIMENSION_MISMATCH` has code 7. -/
@[simp] theorem ErrorCode.code_eq_seven (e : ErrorCode) : e.code = 7 ↔ e = .dimensionMismatch := by
  cases e <;> decide

/-- The codes are those of 60_exceptions.md R240. -/
theorem ErrorCode.code_le (e : ErrorCode) : e.code.toNat ≤ 0x0B := by cases e <;> decide

end Sys2Proof.Machine
end

