-- ==== Sys2Proof/Laws/Ops.lean ====
section
/-! SUPPORT. What each shared operation does, once: reading a byte after every update, the dimensions and lengths
after theirs, and the end of a command. -/

namespace Sys2Proof.Machine

variable (s : State)

/-! ## Reading a byte after an update -/

/-- A byte's value depends only on the memory, the configuration and the two eras. -/
theorem State.byte_congr {s t : State} (hm : t.mem = s.mem) (hk : t.cfgK = s.cfgK) (hp : t.cfgM = s.cfgM)
    (hv : t.status.cfgValid = s.status.cfgValid) (he : t.memEra = s.memEra) (hg : t.genEra = s.genEra) (a : Nat) :
    t.byte a = s.byte a := by
  unfold State.byte State.genUnspecified State.n State.k State.m
  rw [hm, hk, hp, hv, he, hg]

@[simp] theorem State.byte_setResult (r : Byte) (a : Nat) : (s.setResult r).byte a = s.byte a := rfl
@[simp] theorem State.byte_setDims (i : MatSel) (r c a : Nat) : (s.setDims i r c).byte a = s.byte a := rfl
@[simp] theorem State.byte_setLen (x l a : Nat) : (s.setLen x l).byte a = s.byte a := rfl
@[simp] theorem State.byte_accept (w : Word) (a : Nat) : (s.accept w).byte a = s.byte a := rfl
@[simp] theorem State.byte_complete (e : ErrorCode) (a : Nat) : (s.complete e).byte a = s.byte a := rfl
@[simp] theorem State.byte_mark (h : HostMark) (a : Nat) : (s.mark h).byte a = s.byte a := rfl
@[simp] theorem State.byte_respond (r : Response) (a : Nat) : (s.respond r).byte a = s.byte a := rfl
@[simp] theorem State.byte_drop (a : Nat) : s.drop.byte a = s.byte a := rfl
@[simp] theorem State.byte_writeCtrl (v : Word) (a : Nat) : (s.writeCtrl v).byte a = s.byte a := rfl
@[simp] theorem State.byte_withMoves (l : List Move) (a : Nat) : State.byte { s with moves := l } a = s.byte a := rfl

/-- Outside `GEN` no byte is one of `GEN`'s unspecified bytes. -/
theorem State.genUnspecified_eq_false {a : Nat} (h : a < 0x10000 ∨ 0x20000 ≤ a) : s.genUnspecified a = false := by
  unfold State.genUnspecified
  rcases h with h | h
  · simp [show ¬ genBase ≤ a from by simp only [genBase]; omega]
  · simp [show ¬ a < genEnd from by simp only [genEnd]; omega]

/-- Outside `GEN` a byte is the one listed, or the free value of an unwritten byte. -/
theorem State.byte_of_outside_gen {a : Nat} (h : a < 0x10000 ∨ 0x20000 ≤ a) :
    s.byte a = (Memory.read s.mem a).getD (Config.freeByte s.memEra a) := by
  simp [State.byte, s.genUnspecified_eq_false h]

/-- A byte outside a store is as before. -/
theorem State.byte_store_outside (a : Nat) (bs : List Byte) (x : Nat) (h : x < a ∨ a + bs.length ≤ x) :
    (s.store a bs).byte x = s.byte x := by
  unfold State.byte
  rw [show (s.store a bs).genUnspecified x = s.genUnspecified x from rfl]
  simp [Memory.read_store_outside _ _ _ _ h]

/-- A byte inside a store outside `GEN` is the one stored. -/
theorem State.byte_store_inside (a : Nat) (bs : List Byte) (i : Nat) (hi : i < bs.length)
    (h : a + i < 0x10000 ∨ 0x20000 ≤ a + i) : (s.store a bs).byte (a + i) = bs[i] := by
  rw [State.byte_of_outside_gen _ h, State.store_mem, Memory.read_store_inside _ _ _ _ hi, Option.getD_some]

/-- A byte of the configured generator matrix is the one listed. -/
theorem State.byte_gen (hv : s.status.cfgValid = true) {o : Nat} (ho : o < s.n * s.k) :
    s.byte (genBase + o) = (Memory.read s.mem (genBase + o)).getD (Config.freeByte s.memEra (genBase + o)) := by
  have : s.genUnspecified (genBase + o) = false := by
    unfold State.genUnspecified
    simp [hv, ho]
  simp [State.byte, this]

/-! ## Matrices -/

/-- The element at `(r, c)` of a tabulated matrix, inside its dimensions. -/
theorem Mat.entry_tabulate (rows cols : Nat) (f : Nat → Nat → Byte) {r c : Nat} (hr : r < rows) (hc : c < cols) :
    (Mat.tabulate rows cols f).entry r c = f r c := by
  simp [Mat.entry, Mat.tabulate, List.getD, hr, hc]

@[simp] theorem Mat.length_bytes (M : Mat) (rows cols : Nat) : (M.bytes rows cols).length = rows * cols := by
  simp [Mat.bytes]

/-- Byte `r * cols + c` of a matrix is its element `(r, c)` (42_matrix.md R162). -/
theorem Mat.getElem_bytes (M : Mat) {rows cols r c : Nat} (hc : c < cols)
    (h : r * cols + c < (M.bytes rows cols).length) : (M.bytes rows cols)[r * cols + c] = M.entry r c := by
  have hdiv : (r * cols + c) / cols = r := by
    rw [Nat.mul_comm, Nat.mul_add_div (by omega), Nat.div_eq_of_lt hc, Nat.add_zero]
  have hmod : (r * cols + c) % cols = c := by
    rw [Nat.mul_comm, Nat.mul_add_mod, Nat.mod_eq_of_lt hc]
  simp [Mat.bytes, hdiv, hmod]

/-- An element's offset lies inside the matrix. -/
theorem rowMajor_lt {rows cols r c : Nat} (hr : r < rows) (hc : c < cols) : r * cols + c < rows * cols := by
  calc r * cols + c < r * cols + cols := by omega
    _ = (r + 1) * cols := by ring
    _ ≤ rows * cols := Nat.mul_le_mul_right _ hr

/-- Two dimensions of at most 256 give at most 65536 bytes (42_matrix.md R160). -/
theorem matrix_size_le {rows cols : Nat} (hr : rows ≤ 256) (hc : cols ≤ 256) : rows * cols ≤ 0x10000 :=
  calc rows * cols ≤ 256 * 256 := Nat.mul_le_mul hr hc
    _ = 0x10000 := rfl

/-- Where a work matrix's data lies: between `GEN` and the shards. -/
theorem matBase_range (d : MatSel) : 0x20000 ≤ matBase d ∧ matBase d + 0x10000 ≤ 0x60000 := by
  have := d.isLt
  simp only [matBase]
  omega

/-- The destination write of a matrix command puts the elements in row-major order (42_matrix.md R162). -/
theorem State.byte_writeMat_inside (d : MatSel) (rows cols : Nat) (R : Mat) {r c : Nat} (hr : r < rows)
    (hc : c < cols) : (s.writeMat d rows cols R).byte (matBase d + (r * cols + c)) = R.entry r c := by
  have hlt : r * cols + c < (R.bytes rows cols).length := by simpa using rowMajor_lt hr hc
  have := matBase_range d
  rw [State.writeMat, State.byte_setDims, State.byte_store_inside _ _ _ _ hlt (by omega),
    Mat.getElem_bytes R hc hlt]

/-- The destination write of a matrix command leaves every other byte (42_matrix.md R162). -/
theorem State.byte_writeMat_outside (d : MatSel) (rows cols : Nat) (R : Mat) (x : Nat)
    (h : x < matBase d ∨ matBase d + rows * cols ≤ x) : (s.writeMat d rows cols R).byte x = s.byte x := by
  rw [State.writeMat, State.byte_setDims, State.byte_store_outside _ _ _ _ (by simpa using h)]

/-! ## Shards -/

/-- The length of a slot after its length is set. -/
theorem State.len_setLen (x l y : Nat) (hy : y < 256) (hl : l < 2 ^ 32) :
    (s.setLen x l).len y = if x = y then l else s.len y := by
  unfold State.len
  rw [State.setLen_slotLen, Vector.getElem?_setIfInBounds]
  split
  · next h =>
    subst h
    simp only [hy, if_true, Option.getD_some, BitVec.toNat_ofNat]
    exact Nat.mod_eq_of_lt hl
  · rfl

@[simp] theorem State.len_store (a : Nat) (bs : List Byte) (y : Nat) : (s.store a bs).len y = s.len y := rfl
@[simp] theorem State.len_complete (e : ErrorCode) (y : Nat) : (s.complete e).len y = s.len y := rfl
@[simp] theorem State.shardBase_complete (e : ErrorCode) (y : Nat) : (s.complete e).shardBase y = s.shardBase y := rfl
@[simp] theorem State.shardBase_putShard (x l : Nat) (bs : List Byte) (y : Nat) :
    (s.putShard x l bs).shardBase y = s.shardBase y := rfl

/-- Two bytes of different slots are different bytes (10_state.md R48). -/
theorem State.shardBase_disjoint {x y i j : Nat} (hxy : x ≠ y) (hi : i < s.cfg.shardMaxLen)
    (hj : j < s.cfg.shardMaxLen) : s.shardBase x + i ≠ s.shardBase y + j := by
  simp only [State.shardBase]
  intro h
  rcases Nat.lt_or_gt_of_ne hxy with h' | h'
  · have : (x + 1) * s.cfg.shardMaxLen ≤ y * s.cfg.shardMaxLen := Nat.mul_le_mul_right _ h'
    rw [Nat.add_mul] at this
    omega
  · have : (y + 1) * s.cfg.shardMaxLen ≤ x * s.cfg.shardMaxLen := Nat.mul_le_mul_right _ h'
    rw [Nat.add_mul] at this
    omega

/-- A shard's bytes after it is put into its slot. -/
theorem State.byte_putShard_inside (x l : Nat) (bs : List Byte) (i : Nat) (hi : i < bs.length) :
    (s.putShard x l bs).byte (s.shardBase x + i) = bs[i] := by
  rw [State.putShard, State.byte_setLen, State.byte_store_inside _ _ _ _ hi]
  simp only [State.shardBase]
  omega

/-- Every other byte is as before. -/
theorem State.byte_putShard_outside (x l : Nat) (bs : List Byte) (a : Nat)
    (h : a < s.shardBase x ∨ s.shardBase x + bs.length ≤ a) : (s.putShard x l bs).byte a = s.byte a := by
  rw [State.putShard, State.byte_setLen, State.byte_store_outside _ _ _ _ h]

@[simp] theorem State.length_parityRow (r len : Nat) (data : Nat → Nat → Byte) :
    (s.parityRow r len data).length = len := by simp [State.parityRow]

/-! ## The end of a command -/

/-- A command always ends in a next state: its writes and code 0, or the completion status alone (40_control.md
R112). -/
theorem finish_eq_next_iff (r : Except ErrorCode State) (t : State) :
    finish s r = .next t ↔ (∃ u, r = .ok u ∧ t = u.complete .ok) ∨ (∃ e, r = .error e ∧ t = s.complete e) := by
  cases r <;> simp [finish, eq_comm]

@[simp] theorem finish_ok (t : State) : finish s (.ok t) = .next (t.complete .ok) := rfl
@[simp] theorem finish_error (e : ErrorCode) : finish s (.error e) = .next (s.complete e) := rfl

end Sys2Proof.Machine
end

