-- ==== Sys2Proof/Laws/Tables.lean ====
section
/-! SUPPORT. The parameters a model accepts and the tables LutInit writes: lengths, entries, the step of the power
walk, and the linearity of the reference product. -/

namespace Sys2Proof.Machine

/-! ## Legal parameters -/

/-- The four conditions on the parameters (41_field.md R130, R131; 93_implementation_defined.md U8 to U11). -/
theorem configLegal_iff (cfg : Config) :
    configLegal cfg = true ↔
      irreducible cfg.fieldPoly = true ∧ allDistinct 0 (expPowers cfg) = true ∧
        cfg.shardMaxLen ∈ [16, 32, 64, 128, 256, 512, 1024, 2048, 4096, 8192, 16384, 32768, 65536] ∧
        cfg.base.toNat % 2 ^ 25 = 0 := by
  simp [configLegal, and_assoc]

/-- The shard slots' size is in range and a multiple of 16 (00_scope.md R6). -/
theorem legal_shardMaxLen {cfg : Config} (h : configLegal cfg = true) :
    16 ≤ cfg.shardMaxLen ∧ cfg.shardMaxLen ≤ 65536 ∧ cfg.shardMaxLen % 16 = 0 := by
  have := ((configLegal_iff cfg).1 h).2.2.1
  simp only [List.mem_cons, List.not_mem_nil, or_false] at this
  omega

/-- The window is aligned, so it lies inside the 32-bit address space (20_memory.md R60). -/
theorem legal_base {cfg : Config} (h : configLegal cfg = true) : cfg.base.toNat + 2 ^ 25 ≤ 2 ^ 32 := by
  have := ((configLegal_iff cfg).1 h).2.2.2
  have := cfg.base.isLt
  omega

/-! ## The tables -/

@[simp] theorem length_powersFrom (poly : BitVec 9) (gen : Byte) (n : Nat) (x : Byte) :
    (powersFrom poly gen n x).length = n := by
  induction n generalizing x with
  | zero => rfl
  | succ n ih => simp [powersFrom, ih]

@[simp] theorem length_expPowers (cfg : Config) : (expPowers cfg).length = 255 := by simp [expPowers]
@[simp] theorem length_expTable (cfg : Config) : (expTable cfg).length = 256 := by simp [expTable]
@[simp] theorem length_logTable (cfg : Config) : (logTable cfg).length = 256 := by simp [logTable]

/-- The walk starts at its start. -/
theorem powersFrom_zero (poly : BitVec 9) (gen : Byte) (n : Nat) (x : Byte) :
    (powersFrom poly gen (n + 1) x)[0]'(by simp) = x := rfl

/-- Each power is the one before times the generator (41_field.md R132). -/
theorem powersFrom_succ (poly : BitVec 9) (gen : Byte) (n : Nat) (x : Byte) (i : Nat) (h : i + 1 < n) :
    (powersFrom poly gen n x)[i + 1]'(by simpa) =
      polymul poly ((powersFrom poly gen n x)[i]'(by simp; omega)) gen := by
  induction n generalizing x i with
  | zero => omega
  | succ n ih =>
    cases i with
    | zero =>
      cases n with
      | zero => omega
      | succ n => rfl
    | succ i =>
      simp only [powersFrom, List.getElem_cons_succ]
      exact ih _ i (by omega)

/-- A value found where the values before it differ from it is found at its place. -/
theorem indexOf_getElem (l : List Byte) (i : Nat) (hi : i < l.length) (start : Nat)
    (hne : ∀ j, (h : j < i) → l[j] ≠ l[i]) : indexOf (l[i]).toNat l start = start + i := by
  induction l generalizing i start with
  | nil => simp at hi
  | cons b bs ih =>
    cases i with
    | zero => simp [indexOf]
    | succ i =>
      have h0 := hne 0 (by omega)
      have hb : (b.toNat.beq (bs[i]'(by simpa using hi)).toNat) = false := by
        rw [← Bool.not_eq_true, Nat.beq_eq]
        intro h
        exact h0 (by simpa using BitVec.eq_of_toNat_eq h)
      simp only [List.getElem_cons_succ, indexOf, hb, cond_false]
      rw [ih i (by simpa using hi) (start + 1) fun j hj => by simpa using hne (j + 1) (by omega)]
      omega

/-- A value that does not occur is found at 0. -/
theorem indexOf_of_notMem (v : Nat) (l : List Byte) (start : Nat) (h : ∀ b ∈ l, b.toNat ≠ v) :
    indexOf v l start = 0 := by
  induction l generalizing start with
  | nil => rfl
  | cons b bs ih =>
    have hb : b.toNat.beq v = false := by
      rw [← Bool.not_eq_true, Nat.beq_eq]
      exact h b (by simp)
    simp only [indexOf, hb, cond_false]
    exact ih _ fun c hc => h c (List.mem_cons_of_mem _ hc)

/-- The check for distinct values says so. -/
theorem allDistinct_iff (seen : Nat) (l : List Byte) :
    allDistinct seen l = true ↔ l.Nodup ∧ ∀ b ∈ l, seen.testBit b.toNat = false := by
  induction l generalizing seen with
  | nil => simp [allDistinct]
  | cons b bs ih =>
    rw [allDistinct, Bool.and_eq_true, ih, List.nodup_cons]
    simp only [Nat.testBit_or, Bool.or_eq_false_iff, Nat.one_shiftLeft, Nat.testBit_two_pow]
    constructor
    · rintro ⟨hb, hnd, hall⟩
      refine ⟨⟨fun hmem => ?_, hnd⟩, fun c hc => ?_⟩
      · simpa using (hall b hmem).2
      · rcases List.mem_cons.1 hc with rfl | hc
        · simpa using hb
        · exact (hall c hc).1
    · rintro ⟨⟨hb, hnd⟩, hall⟩
      refine ⟨by simpa using hall b (by simp), hnd, fun c hc => ⟨hall c (by simp [hc]), ?_⟩⟩
      simp only [decide_eq_false_iff_not]
      intro h
      exact hb (by rw [BitVec.eq_of_toNat_eq h]; exact hc)

/-- The powers of a legal generator are pairwise distinct (41_field.md R131). -/
theorem nodup_expPowers {cfg : Config} (h : configLegal cfg = true) : (expPowers cfg).Nodup :=
  ((allDistinct_iff _ _).1 ((configLegal_iff cfg).1 h).2.1).1

/-! ## LutInit -/

variable (s : State)

/-- What the memory lists after LutInit: the two tables, and elsewhere what it listed before (41_field.md R134). -/
theorem State.read_fillTables (a : Nat) :
    Memory.read s.fillTables.mem a =
      if expBase ≤ a ∧ a < logBase then (expTable s.cfg)[a - expBase]?
      else if logBase ≤ a ∧ a < logBase + 256 then (logTable s.cfg)[a - logBase]?
      else Memory.read s.mem a := by
  rw [State.fillTables_mem, Memory.read_store, Memory.read_store]
  simp only [length_expTable, length_logTable]

/-- LutInit keeps the canonical form. -/
theorem State.wf_fillTables (h : Memory.wf s.mem = true) : Memory.wf s.fillTables.mem = true := by
  rw [State.fillTables_mem]
  exact Memory.wf_store _ _ _ (Memory.wf_store _ _ _ h)

end Sys2Proof.Machine
end

