-- ==== Sys2Proof/Laws/Bus.lean ====
section
/-! SUPPORT. The host bus, once: which region an offset lies in, which accesses get `ERROR`, what a write and a read
can do, and that the bytes of a value compose to it again. -/

namespace Sys2Proof.Machine

/-! ## Regions (20_memory.md R60) -/

theorem regionOf_registers_iff (cfg : Config) (off : Nat) : regionOf cfg off = .registers ↔ off < 0x1000 := by
  unfold regionOf
  repeat' split
  all_goals simp
  all_goals omega

theorem regionOf_unmapped_iff (cfg : Config) (off : Nat) :
    regionOf cfg off = .unmapped ↔ (0x1300 ≤ off ∧ off < 0x10000) ∨ (0x60000 ≤ off ∧ off < 0x1000000) ∨
      0x1000000 + 256 * cfg.shardMaxLen ≤ off := by
  unfold regionOf
  repeat' split
  all_goals simp
  all_goals omega

theorem isWritable_iff (cfg : Config) (off : Nat) :
    (regionOf cfg off).isWritable = true ↔ (0x1000 ≤ off ∧ off < 0x1100) ∨ (0x20000 ≤ off ∧ off < 0x60000) ∨
      (0x1000000 ≤ off ∧ off < 0x1000000 + 256 * cfg.shardMaxLen) := by
  unfold regionOf
  repeat' split
  all_goals simp [Region.isWritable]
  all_goals omega

theorem isMemoryByte_iff (cfg : Config) (a : Nat) :
    isMemoryByte cfg a = true ↔ (0x1000 ≤ a ∧ a < 0x1300) ∨ (0x10000 ≤ a ∧ a < 0x60000) ∨
      (0x1000000 ≤ a ∧ a < 0x1000000 + 256 * cfg.shardMaxLen) := by
  rw [isMemoryByte, Bool.and_eq_true, bne_iff_ne, bne_iff_ne, Ne, Ne, regionOf_registers_iff, regionOf_unmapped_iff]
  omega

@[simp] theorem regionOf_unmapped_isWritable : Region.isWritable .unmapped = false := rfl

/-- The tables' region, `EXP_LUT` or `LOG_LUT`. -/
theorem regionOf_lut {cfg : Config} {off : Nat} (h1 : 0x1100 ≤ off) (h2 : off < 0x1300) :
    regionOf cfg off = .expLut ∨ regionOf cfg off = .logLut := by
  unfold regionOf
  rw [if_neg (by omega), if_neg (by omega)]
  by_cases h : off < 0x1200
  · simp [h]
  · simp [h, h2]

/-! ## Sizes and alignment -/

theorem Size.bytes_cases (size : Size) : size.bytes = 1 ∨ size.bytes = 2 ∨ size.bytes = 4 := by
  cases size <;> simp [Size.bytes]

theorem Size.bytes_pos (size : Size) : 0 < size.bytes := by cases size <;> simp [Size.bytes]

theorem Size.bytes_eq_four_iff (size : Size) : size.bytes = 4 ↔ size = .word4 := by cases size <;> simp [Size.bytes]

/-- An aligned access stays between two multiples of 4 (20_memory.md R66). -/
theorem aligned_div_four {off x : Nat} {size : Size} (h : off % size.bytes = 0) (h1 : off ≤ x)
    (h2 : x < off + size.bytes) : x / 4 = off / 4 := by
  rcases size.bytes_cases with hs | hs | hs <;> rw [hs] at h h2 <;> omega

/-- The accesses that get no `ERROR` (20_memory.md R62, R63, R66). -/
theorem busError_eq_false_iff (cfg : Config) (off : Nat) (size : Size) :
    busError cfg off size = false ↔
      off % size.bytes = 0 ∧ (off < 0x1000 → size.bytes = 4) ∧ regionOf cfg off ≠ .unmapped := by
  rw [← regionOf_registers_iff cfg off, Size.bytes_eq_four_iff]
  simp [busError]
  tauto

/-- Every byte of an aligned access to a writable window is a byte of the same memory, and none of the tables or of
`GEN`. -/
theorem writable_bytes {cfg : Config} {off : Nat} {size : Size} (hl : configLegal cfg = true)
    (h : (regionOf cfg off).isWritable = true) (ha : off % size.bytes = 0) {x : Nat} (h1 : off ≤ x)
    (h2 : x < off + size.bytes) :
    isMemoryByte cfg x = true ∧ (x < 0x1100 ∨ 0x20000 ≤ x) := by
  have hm := legal_shardMaxLen hl
  have hd := aligned_div_four ha h1 h2
  rw [isWritable_iff] at h
  rw [isMemoryByte_iff]
  omega

/-- An address of the window and its offset (20_memory.md R60). -/
theorem inWindow_of_offset {cfg : Config} {addr : Word} {off : Nat} (h : off < 2 ^ 25)
    (ha : addr.toNat = cfg.base.toNat + off) : inWindow cfg addr = true ∧ offsetOf cfg addr = off := by
  simp only [inWindow, offsetOf, decide_eq_true_eq]
  omega

theorem offset_of_inWindow {cfg : Config} {addr : Word} (h : inWindow cfg addr = true) :
    offsetOf cfg addr < 2 ^ 25 ∧ addr.toNat = cfg.base.toNat + offsetOf cfg addr := by
  simp only [inWindow, offsetOf, decide_eq_true_eq] at *
  omega

/-! ## Registers (10_state.md R22) -/

theorem regAt_present (w : Fin 8) : regAt (0x040 + 4 * w.val) = .present w := by revert w; decide
theorem regAt_matRows (i : Fin 4) : regAt (0x080 + 8 * i.val) = .matRows i := by revert i; decide
theorem regAt_matCols (i : Fin 4) : regAt (0x084 + 8 * i.val) = .matCols i := by revert i; decide

theorem regAt_slotLen (j : Fin 256) : regAt (0x400 + 4 * j.val) = .slotLen j := by
  have h : (0x400 + 4 * j.val - 0x400) / 4 = j.val := by omega
  unfold regAt
  repeat rw [if_neg (by omega)]
  rw [if_pos (by omega), h, Fin.ofNat_eq_cast, Fin.cast_val_eq_self]

/-- The reserved offsets (10_state.md R43). -/
theorem regAt_reserved {off : Nat} (h : (0x02C ≤ off ∧ off < 0x040) ∨ (0x060 ≤ off ∧ off < 0x080) ∨
    (0x0A0 ≤ off ∧ off < 0x400) ∨ (0x800 ≤ off ∧ off < 0x1000)) : regAt off = .reserved := by
  unfold regAt
  repeat rw [if_neg (by omega)]

/-! ## Byte order (20_memory.md R64, R65) -/

@[simp] theorem length_splitLE (n : Nat) (v : Word) : (splitLE n v).length = n := by simp [splitLE]
@[simp] theorem length_offsets (off : Nat) (size : Size) : (offsets off size).length = size.bytes := by simp [offsets]

theorem getElem_splitLE (n : Nat) (v : Word) (i : Nat) (h : i < (splitLE n v).length) :
    (splitLE n v)[i] = v.extractLsb' (8 * i) 8 := by simp [splitLE]

/-- The `i`-th byte of a value. -/
theorem toNat_extract_byte (v : Word) (i : Nat) : (v.extractLsb' (8 * i) 8).toNat = v.toNat / 2 ^ (8 * i) % 256 := by
  simp [BitVec.extractLsb', Nat.shiftRight_eq_div_pow]

/-- The bytes of a value compose to its low `8n` bits. -/
theorem composeLE_splitLE (size : Size) (v : Word) :
    composeLE (splitLE size.bytes v) = BitVec.ofNat 32 (v.toNat % 2 ^ (8 * size.bytes)) := by
  have key : ∀ n, BitVec.ofNat 32 (v.toNat % 2 ^ n) = (v.setWidth n).setWidth 32 := by
    intro n
    apply BitVec.eq_of_toNat_eq
    simp
  rw [key]
  apply BitVec.eq_of_getLsbD_eq
  intro i hi
  cases size
  all_goals
    simp only [Size.bytes, splitLE, List.range_succ, List.range_zero, List.nil_append, List.map_cons,
      List.map_nil, List.cons_append, composeLE]
    interval_cases i <;> simp

/-! ## Writes -/

variable (s : State)

/-- A register write changes the six writable registers only. -/
theorem State.writeReg_frame (r : Reg) (v : Word) :
    s.writeReg r v =
      { s with
        arg0 := (s.writeReg r v).arg0, arg1 := (s.writeReg r v).arg1, present := (s.writeReg r v).present
        matRows := (s.writeReg r v).matRows, matCols := (s.writeReg r v).matCols
        slotLen := (s.writeReg r v).slotLen } := by
  cases r <;> rfl

/-- Everything a write that is no bus error can do (40_control.md R123). -/
theorem State.writeEffect_cases (off : Nat) (size : Size) (v : Word) :
    (off = 0x008 ∧ s.writeEffect off size v = s.writeCtrl v) ∨
    (off ≠ 0x008 ∧ s.status.busy = true ∧ s.writeEffect off size v = s.drop) ∨
    (off = 0x00C ∧ s.status.accepts = true ∧ s.writeEffect off size v = s.accept v) ∨
    (off = 0x00C ∧ s.status.busy = false ∧ s.status.accepts = false ∧ s.writeEffect off size v = s.drop) ∨
    (off < 0x1000 ∧ off ≠ 0x008 ∧ off ≠ 0x00C ∧ s.status.busy = false ∧
      s.writeEffect off size v = s.writeReg (regAt off) v) ∨
    ((regionOf s.cfg off).isWritable = true ∧ s.status.busy = false ∧
      s.writeEffect off size v = s.store off (splitLE size.bytes v)) ∨
    (0x1000 ≤ off ∧ (regionOf s.cfg off).isWritable = false ∧ s.status.busy = false ∧
      s.writeEffect off size v = s) := by
  unfold State.writeEffect
  by_cases h1 : off = 0x008
  · simp [h1]
  by_cases hb : s.status.busy = true
  · simp [h1, hb]
  by_cases h2 : off = 0x00C
  · by_cases ha : s.status.accepts = true
    · simp [h2, ha, hb]
    · simp [h2, ha, hb]
  by_cases h3 : off < 0x1000
  · have := (regionOf_registers_iff s.cfg off).2 h3
    simp [h1, h2, h3, hb, this]
  · have hr : regionOf s.cfg off ≠ .registers := fun h => h3 ((regionOf_registers_iff s.cfg off).1 h)
    by_cases hw : (regionOf s.cfg off).isWritable = true
    · simp [h1, h2, hb, hw, hr]
    · simp [h1, h2, hb, hw, hr]
      omega

theorem State.hostWrite_of_error {off : Nat} {size : Size} (v : Word) (h : busError s.cfg off size = true) :
    s.hostWrite off size v = (s.mark .busError).respond .writeError := by
  simp [State.hostWrite, h]

theorem State.hostWrite_of_ok {off : Nat} {size : Size} (v : Word) (h : busError s.cfg off size = false) :
    s.hostWrite off size v = (s.writeEffect off size v).respond .writeOk := by
  simp [State.hostWrite, h]

/-! ## Reads -/

theorem State.hostRead_of_error {off : Nat} {size : Size} (h : busError s.cfg off size = true) :
    s.hostRead off size = (s.mark .busError).respond (.readError 0) := by
  simp [State.hostRead, h]

/-- A read of a register that does not draw gives its value. -/
theorem State.hostRead_register {off : Nat} (h : off < 0x1000) (ha : off % 4 = 0)
    (hb : s.status.busy = false ∨ (regAt off).readableBusy = true) :
    s.hostRead off .word4 = s.respond (.readOk (s.readReg (regAt off))) := by
  have hr := (regionOf_registers_iff s.cfg off).2 h
  have he : busError s.cfg off .word4 = false :=
    (busError_eq_false_iff _ _ _).2 ⟨ha, fun _ => rfl, by rw [hr]; simp⟩
  have hd : s.readDraws off = false := by
    rcases hb with hb | hb <;> simp [State.readDraws, hr, hb]
  simp [State.hostRead, he, hd, State.readMarked, State.readValue, hr]

/-- A read of specified bytes outside the registers, while not busy, composes them and marks nothing. -/
theorem State.hostRead_bytes {off : Nat} {size : Size} (he : busError s.cfg off size = false)
    (h : 0x1000 ≤ off) (hd : s.readDraws off = false)
    (hs : ∀ i < size.bytes, s.specified (off + i) = true) :
    s.hostRead off size = s.respond (.readOk (composeLE ((offsets off size).map s.byte))) := by
  have hr : regionOf s.cfg off ≠ .registers := fun h' => by
    have := (regionOf_registers_iff s.cfg off).1 h'
    omega
  have hm : s.readMarked off size = false := by
    simp only [State.readMarked, Bool.and_eq_false_iff, List.any_eq_false]
    right
    intro a ha
    obtain ⟨i, hi, rfl⟩ := List.mem_map.1 ha
    simp [hs i (List.mem_range.1 hi)]
  simp [State.hostRead, he, hd, hm, State.readValue, hr]

/-- While the block is not busy and ready, no read draws. -/
theorem State.readDraws_idle {off : Nat} (hb : s.status.busy = false) (hr : s.status.ready = true) :
    s.readDraws off = false := by
  unfold State.readDraws
  split <;> simp [hb, hr]

end Sys2Proof.Machine
end

