-- ==== Sys2Proof/Laws/Exec.lean ====
section
/-! SUPPORT. What each command can answer, once: its errors change the completion status alone, and its success is
one named update of the state. The provers cite these instead of unfolding a meaning. -/

namespace Sys2Proof.Machine

variable (s : State)

/-! ## Several shards put into their slots -/

/-- Putting shards into slots changes memory and lengths only. -/
theorem State.putShards_frame (len : Nat) (shards : List (Nat × List Byte)) :
    s.putShards len shards =
      { s with mem := (s.putShards len shards).mem, slotLen := (s.putShards len shards).slotLen } := by
  unfold State.putShards
  induction shards generalizing s with
  | nil => rfl
  | cons p ps ih =>
    rw [List.foldl_cons]
    exact (ih (s.putShard p.1 len p.2)).trans rfl

theorem State.putShards_cons (len : Nat) (p : Nat × List Byte) (ps : List (Nat × List Byte)) :
    s.putShards len (p :: ps) = (s.putShard p.1 len p.2).putShards len ps := rfl

/-- What the memory lists outside the slots written is as before. -/
theorem State.read_putShards_outside (len : Nat) (shards : List (Nat × List Byte)) (a : Nat)
    (h : ∀ p ∈ shards, a < s.shardBase p.1 ∨ s.shardBase p.1 + p.2.length ≤ a) :
    Memory.read (s.putShards len shards).mem a = Memory.read s.mem a := by
  induction shards generalizing s with
  | nil => rfl
  | cons p ps ih =>
    rw [State.putShards_cons, ih _ fun q hq => by simpa using h q (List.mem_cons_of_mem _ hq), State.putShard_mem,
      Memory.read_store_outside _ _ _ _ (h p (by simp))]

/-- A byte of no slot written is as before. -/
theorem State.byte_putShards_outside (len : Nat) (shards : List (Nat × List Byte)) (a : Nat)
    (h : ∀ p ∈ shards, a < s.shardBase p.1 ∨ s.shardBase p.1 + p.2.length ≤ a) :
    (s.putShards len shards).byte a = s.byte a := by
  induction shards generalizing s with
  | nil => rfl
  | cons p ps ih =>
    rw [State.putShards_cons, ih _ fun q hq => by simpa using h q (List.mem_cons_of_mem _ hq),
      s.byte_putShard_outside _ _ _ _ (h p (by simp))]

/-- The bytes of every slot written, when the slots are distinct and the shards fit into them. -/
theorem State.byte_putShards_inside (len : Nat) (shards : List (Nat × List Byte))
    (hnd : (shards.map Prod.fst).Nodup) (hfit : ∀ p ∈ shards, p.2.length ≤ s.cfg.shardMaxLen)
    {slot : Nat} {bs : List Byte} (hp : (slot, bs) ∈ shards) (i : Nat) (hi : i < bs.length) :
    (s.putShards len shards).byte (s.shardBase slot + i) = bs[i] := by
  induction shards generalizing s with
  | nil => simp at hp
  | cons p ps ih =>
    rw [List.map_cons, List.nodup_cons] at hnd
    rw [State.putShards_cons]
    rcases List.mem_cons.1 hp with rfl | hp'
    · rw [State.byte_putShards_outside _ _ _ _ fun q hq => ?_, s.byte_putShard_inside _ _ _ _ hi]
      have hne : q.1 ≠ slot := fun h => hnd.1 (List.mem_map.2 ⟨q, hq, h⟩)
      have hq' := hfit q (List.mem_cons_of_mem _ hq)
      have hs' := hfit _ hp
      rw [State.shardBase_putShard]
      simp only [State.shardBase] at *
      rcases Nat.lt_or_gt_of_ne hne with h' | h'
      · have : (q.1 + 1) * s.cfg.shardMaxLen ≤ slot * s.cfg.shardMaxLen := Nat.mul_le_mul_right _ h'
        rw [Nat.add_mul] at this
        omega
      · have : (slot + 1) * s.cfg.shardMaxLen ≤ q.1 * s.cfg.shardMaxLen := Nat.mul_le_mul_right _ h'
        rw [Nat.add_mul] at this
        omega
    · exact ih (s.putShard p.1 len p.2) hnd.2 (fun q hq => hfit q (List.mem_cons_of_mem _ hq)) hp'

/-- The lengths after shards are put into their slots. -/
theorem State.len_putShards (len : Nat) (shards : List (Nat × List Byte)) (y : Nat) (hy : y < 256)
    (hl : len < 2 ^ 32) :
    (s.putShards len shards).len y = if y ∈ shards.map Prod.fst then len else s.len y := by
  induction shards generalizing s with
  | nil => rfl
  | cons p ps ih =>
    rw [State.putShards_cons, ih, State.putShard, State.len_setLen _ _ _ _ hy hl, State.len_store, List.map_cons]
    by_cases h : y ∈ ps.map Prod.fst
    · simp [h]
    · by_cases h' : p.1 = y
      · simp [h']
      · simp [h, h', Ne.symm h']

/-- Putting shards into slots keeps the canonical form. -/
theorem State.wf_putShards (len : Nat) (shards : List (Nat × List Byte)) (h : Memory.wf s.mem = true) :
    Memory.wf (s.putShards len shards).mem = true := by
  induction shards generalizing s with
  | nil => exact h
  | cons p ps ih => exact ih _ (Memory.wf_store _ _ _ h)

/-- Putting shards into slots lists bytes of those slots only, beside what was listed. -/
theorem State.mem_putShards (len : Nat) (shards : List (Nat × List Byte)) {c : Host.Cell}
    (h : c ∈ (s.putShards len shards).mem) :
    c ∈ s.mem ∨ ∃ p ∈ shards, s.shardBase p.1 ≤ c.1 ∧ c.1 < s.shardBase p.1 + p.2.length := by
  induction shards generalizing s with
  | nil => exact .inl h
  | cons p ps ih =>
    rcases ih (s.putShard p.1 len p.2) h with h | ⟨q, hq, h⟩
    · rcases Memory.mem_store (by simpa using h) with h | h
      · exact .inl h
      · exact .inr ⟨p, by simp, h⟩
    · exact .inr ⟨q, List.mem_cons_of_mem _ hq, h⟩

/-! ## The commands' answers -/

theorem exec_nop : exec .nop s = .next (s.complete .ok) := rfl

theorem exec_gfAdd : exec .gfAdd s = .next ((s.setResult (s.elemA ^^^ s.elemB)).complete .ok) := rfl

theorem exec_gfMul : exec .gfMul s = .next ((s.setResult (s.mul s.elemA s.elemB)).complete .ok) := rfl

theorem exec_gfDiv : exec .gfDiv s =
    match s.div s.elemA s.elemB with
    | .error e => .next (s.complete e)
    | .ok r => .next ((s.setResult r).complete .ok) := by
  simp only [exec, execGfDiv]
  cases s.div s.elemA s.elemB <;> rfl

theorem exec_gfInv : exec .gfInv s =
    match s.inverse s.elemA with
    | .error e => .next (s.complete e)
    | .ok r => .next ((s.setResult r).complete .ok) := by
  simp only [exec, execGfInv]
  cases s.inverse s.elemA <;> rfl

/-- `div` fails with `DIVIDE_BY_ZERO` only. -/
theorem State.div_eq_error_iff (a b : Byte) (e : ErrorCode) :
    s.div a b = .error e ↔ b = 0 ∧ e = .divideByZero := by
  unfold State.div
  split
  · next h => simp [h, eq_comm]
  · next h => split <;> simpa using fun h' => absurd h' h

/-- `inverse` fails with `DIVIDE_BY_ZERO` only. -/
theorem State.inverse_eq_error_iff (a : Byte) (e : ErrorCode) :
    s.inverse a = .error e ↔ a = 0 ∧ e = .divideByZero := by
  unfold State.inverse
  split
  · next h => simp [h, eq_comm]
  · next h => simpa using fun h' => absurd h' h

/-- The answers of `MAT_GEN`. -/
theorem execMatGen_cases {d : MatSel} {t : State} (h : exec (.matGen d) s = .next t) :
    ((s.count0 = 0 ∨ s.count1 = 0 ∨ s.count0 + s.count1 > 256) ∧ t = s.complete .matrixConstruction) ∨
    (¬ (s.count0 = 0 ∨ s.count1 = 0 ∨ s.count0 + s.count1 > 256) ∧
      t = (s.writeMat d (s.count0 + s.count1) s.count0 (s.buildGenerator s.count0 s.count1)).complete .ok) := by
  simp only [exec, execMatGen] at h
  split at h
  · next hc => exact .inl ⟨hc, by simpa [eq_comm] using h⟩
  · next hc => exact .inr ⟨hc, by simpa [eq_comm] using h⟩

/-- The answers of `MAT_SUB`. -/
theorem execMatSub_cases {d a : MatSel} {t : State} (h : exec (.matSub d a) s = .next t) :
    t = s.complete .dimensionMismatch ∨ t = s.complete .invalidIndex ∨
    (s.validMat a = true ∧ 1 ≤ s.count0 ∧ s.count0 ≤ 256 ∧ (∀ r ∈ s.rowList s.count0, r < s.rows a) ∧
      t = (s.writeMat d s.count0 (s.cols a)
        ((s.readMat a).submatrix (s.cols a) (s.rowList s.count0))).complete .ok) := by
  simp only [exec, execMatSub] at h
  split at h
  · exact .inl (by simpa [eq_comm] using h)
  · next hv =>
    split at h
    · exact .inl (by simpa [eq_comm] using h)
    · next hc =>
      split at h
      · exact .inr (.inl (by simpa [eq_comm] using h))
      · next hr =>
        refine .inr (.inr ⟨by simpa using hv, by omega, by omega, ?_, by simpa [eq_comm] using h⟩)
        simpa using hr

/-- The answers of `MAT_INV`. -/
theorem execMatInv_cases {d a : MatSel} {t : State} (h : exec (.matInv d a) s = .next t) :
    t = s.complete .dimensionMismatch ∨ t = s.complete .singularMatrix ∨
    ∃ R, s.validMat a = true ∧ s.rows a = s.cols a ∧ s.gjInvert (s.rows a) (s.readMat a) = some R ∧
      t = (s.writeMat d (s.rows a) (s.rows a) R).complete .ok := by
  simp only [exec, execMatInv] at h
  split at h
  · exact .inl (by simpa [eq_comm] using h)
  · next hv =>
    cases hg : s.gjInvert (s.rows a) (s.readMat a) with
    | none => rw [hg] at h; exact .inr (.inl (by simpa [eq_comm] using h))
    | some R =>
      rw [hg] at h
      simp only [not_or, not_not] at hv
      exact .inr (.inr ⟨R, hv.1, hv.2, rfl, by simpa [eq_comm] using h⟩)

/-- The answers of `MAT_MUL`. -/
theorem execMatMul_cases {d a b : MatSel} {t : State} (h : exec (.matMul d a b) s = .next t) :
    t = s.complete .dimensionMismatch ∨
    (s.validMat a = true ∧ s.validMat b = true ∧ s.cols a = s.rows b ∧
      t = (s.writeMat d (s.rows a) (s.cols b)
        (s.matmul (s.rows a) (s.cols a) (s.cols b) (s.readMat a) (s.readMat b))).complete .ok) := by
  simp only [exec, execMatMul] at h
  split at h
  · exact .inl (by simpa [eq_comm] using h)
  · next hv =>
    split at h
    · exact .inl (by simpa [eq_comm] using h)
    · next hc =>
      simp only [not_or, not_not] at hv hc
      exact .inr ⟨hv.1, hv.2, hc, by simpa [eq_comm] using h⟩

/-- The answers of `CODEC_NEW`. -/
theorem execCodecNew_cases {t : State} (h : exec .codecNew s = .next t) :
    t = s.complete .invalidShardCount ∨
    (1 ≤ s.count0 ∧ 1 ≤ s.count1 ∧ s.count0 + s.count1 ≤ 256 ∧
      t = ((s.store genBase ((s.buildGenerator s.count0 s.count1).bytes (s.count0 + s.count1) s.count0)).configure
        s.count0 s.count1).complete .ok) := by
  simp only [exec, execCodecNew] at h
  split at h
  · exact .inl (by simpa [eq_comm] using h)
  · next hc => exact .inr ⟨by omega, by omega, by omega, by simpa [eq_comm] using h⟩

/-- The answers of `ENCODE`. -/
theorem execEncode_cases {t : State} (h : exec .encode s = .next t) :
    t = s.complete .notConfigured ∨ t = s.complete .invalidShardCount ∨ t = s.complete .invalidDataSize ∨
    (s.status.cfgValid = true ∧ s.count0 = s.k ∧ s.lenOk (List.range s.k) = true ∧
      t = (s.putShards (s.len 0)
        ((List.range s.m).map fun r => (s.k + r, s.parityRow r (s.len 0) s.shard))).complete .ok) := by
  simp only [exec, execEncode] at h
  split at h
  · exact .inl (by simpa [eq_comm] using h)
  · next h1 =>
    split at h
    · exact .inr (.inl (by simpa [eq_comm] using h))
    · next h2 =>
      split at h
      · exact .inr (.inr (.inl (by simpa [eq_comm] using h)))
      · next h3 =>
        exact .inr (.inr (.inr ⟨by simpa using h1, by simpa using h2, by simpa using h3, by simpa [eq_comm] using h⟩))

/-- The answers of `RECONSTRUCT`. -/
theorem execReconstruct_cases {t : State} (h : exec .reconstruct s = .next t) :
    t = s.complete .notConfigured ∨ t = s.complete .invalidShardCount ∨ t = s.complete .insufficientShards ∨
    t = s.complete .invalidDataSize ∨ t = s.complete .reconstructionFailed ∨
    ∃ len Dm, s.status.cfgValid = true ∧ s.count0 = s.n ∧ s.k ≤ s.presentSlots.length ∧
      s.lenOk s.presentSlots = true ∧ len = s.len (s.presentSlots.headD 0) ∧
      s.gjInvert s.k (s.readGen.submatrix s.k (s.presentSlots.take s.k)) = some Dm ∧
      t = (s.putShards len (s.missingSlots.map fun i =>
        (i, s.rebuiltRow (s.recovered Dm (s.presentSlots.take s.k) len) len i))).complete .ok := by
  simp only [exec, execReconstruct] at h
  split at h
  · exact .inl (by simpa [eq_comm] using h)
  · next h1 =>
    split at h
    · exact .inr (.inl (by simpa [eq_comm] using h))
    · next h2 =>
      split at h
      · exact .inr (.inr (.inl (by simpa [eq_comm] using h)))
      · next h3 =>
        split at h
        · exact .inr (.inr (.inr (.inl (by simpa [eq_comm] using h))))
        · next h4 =>
          cases hg : s.gjInvert s.k (s.readGen.submatrix s.k (s.presentSlots.take s.k)) with
          | none => rw [hg] at h; exact .inr (.inr (.inr (.inr (.inl (by simpa [eq_comm] using h)))))
          | some Dm =>
            rw [hg] at h
            exact .inr (.inr (.inr (.inr (.inr ⟨_, Dm, by simpa using h1, by simpa using h2, by omega,
              by simpa using h4, rfl, rfl, by simpa [eq_comm] using h⟩))))

/-- Every command ends in `finish`, so it always answers a next state (40_control.md R112, R114). -/
theorem exec_eq_finish (i : Instr) : ∃ r, exec i s = finish s r := by
  cases i with
  | nop => exact ⟨.ok s, rfl⟩
  | gfAdd => exact ⟨.ok (s.setResult (s.elemA ^^^ s.elemB)), rfl⟩
  | gfMul => exact ⟨.ok (s.setResult (s.mul s.elemA s.elemB)), rfl⟩
  | gfDiv => exact ⟨_, rfl⟩
  | gfInv => exact ⟨_, rfl⟩
  | matGen d => exact ⟨_, rfl⟩
  | matSub d a => exact ⟨_, rfl⟩
  | matInv d a => exact ⟨_, rfl⟩
  | matMul d a b => exact ⟨_, rfl⟩
  | codecNew => exact ⟨_, rfl⟩
  | encode => exact ⟨_, rfl⟩
  | reconstruct => exact ⟨_, rfl⟩

/-- A command always answers a next state. -/
theorem exec_isNext (i : Instr) : ∃ t, exec i s = .next t := by
  obtain ⟨r, h⟩ := exec_eq_finish s i
  rw [h]
  cases r with
  | ok t => exact ⟨_, rfl⟩
  | error e => exact ⟨_, rfl⟩

/-! ## The length check -/

/-- `len_ok` of a non-empty list: every length equals the first, which lies in `1 .. SHARD_MAXLEN` (43_codec.md
R203). -/
theorem State.lenOk_iff (x : Nat) (xs : List Nat) :
    s.lenOk (x :: xs) = true ↔
      1 ≤ s.len x ∧ s.len x ≤ s.cfg.shardMaxLen ∧ ∀ y ∈ x :: xs, s.len y = s.len x := by
  simp [State.lenOk, and_assoc]

/-- In a list that passes the check every slot has the length of any other. -/
theorem State.lenOk_range {k : Nat} (hk : 1 ≤ k) :
    s.lenOk (List.range k) = true ↔
      1 ≤ s.len 0 ∧ s.len 0 ≤ s.cfg.shardMaxLen ∧ ∀ j < k, s.len j = s.len 0 := by
  obtain ⟨k, rfl⟩ : ∃ k', k = k' + 1 := ⟨k - 1, by omega⟩
  rw [List.range_succ_eq_map, State.lenOk_iff]
  refine and_congr_right fun _ => and_congr_right fun _ => ⟨fun h j hj => h j ?_, fun h y hy => h y ?_⟩
  · rcases j with _ | j
    · simp
    · simpa using hj
  · rcases List.mem_cons.1 hy with rfl | hy
    · omega
    · obtain ⟨j, hj, rfl⟩ := List.mem_map.1 hy
      have := List.mem_range.1 hj
      omega

end Sys2Proof.Machine
end

