-- ==== Sys2Proof/Laws/Cases.lean ====
section
/-! SUPPORT. Everything a command can do, and everything a step can do, once, for every command and every move. -/

namespace Sys2Proof.Machine

/-- The state a successful command completes: the state at acceptance with the command's writes (40_control.md
R112). -/
inductive State.Success (s : State) : Instr → State → Prop
  | nop : State.Success s .nop s
  | field {i : Instr} (r : Byte) (hi : i = .gfAdd ∨ i = .gfMul ∨ i = .gfDiv ∨ i = .gfInv) :
      State.Success s i (s.setResult r)
  | matrix {i : Instr} (d : MatSel) (rows cols : Nat) (R : Mat) (hr : rows ≤ 256) (hc : cols ≤ 256)
      (hi : i = .matGen d ∨ (∃ a, i = .matSub d a) ∨ (∃ a, i = .matInv d a) ∨ ∃ a b, i = .matMul d a b) :
      State.Success s i (s.writeMat d rows cols R)
  | configure (k m : Nat) (hk : 1 ≤ k) (hm : 1 ≤ m) (hn : k + m ≤ 256) :
      State.Success s .codecNew
        ((s.store genBase ((s.buildGenerator k m).bytes (k + m) k)).configure k m)
  | shards {i : Instr} (len : Nat) (sh : List (Nat × List Byte)) (hv : s.status.cfgValid = true)
      (hl : len ≤ s.cfg.shardMaxLen) (hsh : ∀ p ∈ sh, p.1 < s.n ∧ p.2.length = len)
      (hnd : (sh.map Prod.fst).Nodup) (hi : i = .encode ∨ i = .reconstruct) :
      State.Success s i (s.putShards len sh)

theorem State.validMat_iff (s : State) (a : MatSel) :
    s.validMat a = true ↔ 1 ≤ s.rows a ∧ s.rows a ≤ 256 ∧ 1 ≤ s.cols a ∧ s.cols a ≤ 256 := by
  simp [State.validMat]

@[simp] theorem State.length_rebuiltRow (s : State) (Dm : Mat) (sel : List Nat) (len i : Nat) :
    (s.rebuiltRow (s.recovered Dm sel len) len i).length = len := by
  unfold State.rebuiltRow
  split
  · next h => simp [State.recovered, Mat.tabulate, List.getD, h]
  · simp

/-- A command either completes with an error, writing the completion status alone, or completes its success. -/
theorem exec_cases {i : Instr} {s t : State} (h : exec i s = .next t) :
    (∃ e, e ≠ .ok ∧ t = s.complete e) ∨ ∃ u, s.Success i u ∧ t = u.complete .ok := by
  cases i with
  | nop => rw [exec_nop, Host.Outcome.next.injEq] at h; exact .inr ⟨_, .nop, h.symm⟩
  | gfAdd => rw [exec_gfAdd, Host.Outcome.next.injEq] at h; exact .inr ⟨_, .field _ (by simp), h.symm⟩
  | gfMul => rw [exec_gfMul, Host.Outcome.next.injEq] at h; exact .inr ⟨_, .field _ (by simp), h.symm⟩
  | gfDiv =>
    rw [exec_gfDiv] at h
    cases hd : s.div s.elemA s.elemB with
    | error e =>
      rw [hd, Host.Outcome.next.injEq] at h
      exact .inl ⟨e, by rw [((s.div_eq_error_iff _ _ e).1 hd).2]; decide, h.symm⟩
    | ok r => rw [hd, Host.Outcome.next.injEq] at h; exact .inr ⟨_, .field _ (by simp), h.symm⟩
  | gfInv =>
    rw [exec_gfInv] at h
    cases hd : s.inverse s.elemA with
    | error e =>
      rw [hd, Host.Outcome.next.injEq] at h
      exact .inl ⟨e, by rw [((s.inverse_eq_error_iff _ e).1 hd).2]; decide, h.symm⟩
    | ok r => rw [hd, Host.Outcome.next.injEq] at h; exact .inr ⟨_, .field _ (by simp), h.symm⟩
  | matGen d =>
    rcases execMatGen_cases s h with ⟨_, h⟩ | ⟨hc, h⟩
    · exact .inl ⟨_, by decide, h⟩
    · exact .inr ⟨_, .matrix d _ _ _ (by omega) (by omega) (.inl rfl), h⟩
  | matSub d a =>
    rcases execMatSub_cases s h with h | h | ⟨hv, h1, h2, _, h⟩
    · exact .inl ⟨_, by decide, h⟩
    · exact .inl ⟨_, by decide, h⟩
    · exact .inr ⟨_, .matrix d _ _ _ h2 ((s.validMat_iff a).1 hv).2.2.2 (.inr (.inl ⟨a, rfl⟩)), h⟩
  | matInv d a =>
    rcases execMatInv_cases s h with h | h | ⟨R, hv, _, _, h⟩
    · exact .inl ⟨_, by decide, h⟩
    · exact .inl ⟨_, by decide, h⟩
    · have := ((s.validMat_iff a).1 hv).2.1
      exact .inr ⟨_, .matrix d _ _ _ this this (.inr (.inr (.inl ⟨a, rfl⟩))), h⟩
  | matMul d a b =>
    rcases execMatMul_cases s h with h | ⟨hv, hw, _, h⟩
    · exact .inl ⟨_, by decide, h⟩
    · exact .inr ⟨_, .matrix d _ _ _ ((s.validMat_iff a).1 hv).2.1 ((s.validMat_iff b).1 hw).2.2.2
        (.inr (.inr (.inr ⟨a, b, rfl⟩))), h⟩
  | codecNew =>
    rcases execCodecNew_cases s h with h | ⟨h1, h2, h3, h⟩
    · exact .inl ⟨_, by decide, h⟩
    · exact .inr ⟨_, .configure _ _ h1 h2 h3, h⟩
  | encode =>
    rcases execEncode_cases s h with h | h | h | ⟨hv, _, hl, h⟩
    · exact .inl ⟨_, by decide, h⟩
    · exact .inl ⟨_, by decide, h⟩
    · exact .inl ⟨_, by decide, h⟩
    · refine .inr ⟨_, .shards (s.len 0) _ hv ?_ ?_ ?_ (.inl rfl), h⟩
      · rcases Nat.eq_zero_or_pos s.k with hk | hk
        · simp [hk, State.lenOk] at hl
        · exact ((s.lenOk_range hk).1 hl).2.1
      · intro p hp
        obtain ⟨r, hr, rfl⟩ := List.mem_map.1 hp
        have := List.mem_range.1 hr
        exact ⟨by simp only [State.n]; omega, by simp⟩
      · rw [List.map_map]
        exact List.Nodup.map (fun x y hxy => by simpa using hxy) List.nodup_range
  | reconstruct =>
    rcases execReconstruct_cases s h with h | h | h | h | h | ⟨len, Dm, hv, _, _, hl, hlen, _, h⟩
    iterate 5 · exact .inl ⟨_, by decide, h⟩
    · refine .inr ⟨_, .shards len _ hv ?_ ?_ ?_ (.inr rfl), h⟩
      · cases hp : s.presentSlots with
        | nil => simp [hp, State.lenOk] at hl
        | cons x xs =>
          rw [hp] at hl hlen
          rw [hlen]
          exact ((s.lenOk_iff x xs).1 hl).2.1
      · intro p hp
        obtain ⟨i, hi, rfl⟩ := List.mem_map.1 hp
        have := List.mem_range.1 (List.mem_filter.1 hi).1
        exact ⟨this, by simp⟩
      · rw [List.map_map]
        exact List.Nodup.map (fun x y hxy => by simpa using hxy) (List.nodup_range.filter _)

/-- The Core step: nothing while not busy, else the command or the `ILLEGAL` completion. -/
theorem coreStep_cases {s t : State} (h : coreStep s = .next t) :
    (s.status.busy = false ∧ t = s) ∨
    (s.status.busy = true ∧ ∃ i, decode s.curCmd = .command i ∧ exec i s = .next t) ∨
    (s.status.busy = true ∧ (∃ why, decode s.curCmd = .illegal why) ∧ t = s.complete .illegalCommand) := by
  unfold coreStep at h
  split at h
  · next hb =>
    cases hd : decode s.curCmd with
    | command i => rw [hd] at h; exact .inr (.inl ⟨hb, i, rfl, h⟩)
    | illegal why =>
      rw [hd] at h
      exact .inr (.inr ⟨hb, ⟨why, rfl⟩, by simpa [execIllegal, eq_comm] using h⟩)
  · next hb => exact .inl ⟨by simpa using hb, by simpa [eq_comm] using h⟩

/-- A host access that is answered is in the window. -/
theorem hostStep_cases {a : Access} {s t : State} (h : hostStep a s = .next t) :
    (∃ addr size, a = .read addr size ∧ inWindow s.cfg addr = true ∧ t = s.hostRead (offsetOf s.cfg addr) size) ∨
    (∃ addr size v, a = .write addr size v ∧ inWindow s.cfg addr = true ∧
      t = s.hostWrite (offsetOf s.cfg addr) size v) := by
  cases a with
  | read addr size =>
    simp only [hostStep] at h
    split at h
    · next hw => exact .inl ⟨addr, size, rfl, hw, by simpa [eq_comm] using h⟩
    · cases h
  | write addr size v =>
    simp only [hostStep] at h
    split at h
    · next hw => exact .inr ⟨addr, size, v, rfl, hw, by simpa [eq_comm] using h⟩
    · cases h

/-- A read changes responses, marks and the draw counter only (20_memory.md R70). -/
theorem State.hostRead_frame (s : State) (off : Nat) (size : Size) :
    s.hostRead off size =
      { s with responses := (s.hostRead off size).responses, marks := (s.hostRead off size).marks
               draws := (s.hostRead off size).draws } := by
  unfold State.hostRead
  split
  · rfl
  · split
    · rfl
    · split <;> rfl

/-- Every answer of a step is that of a move, on parameters a model accepts. -/
theorem step_cases {s t : State} (h : step s = .next t) :
    configLegal s.cfg = true ∧
      ((s.due = none ∧ t = s) ∨ ∃ move, s.due = some move ∧ take move { s with moves := s.moves.tail } = .next t) := by
  unfold step at h
  split at h
  · next hl =>
    refine ⟨hl, ?_⟩
    cases hd : s.due with
    | none => rw [hd] at h; exact .inl ⟨rfl, by simpa [eq_comm] using h⟩
    | some move => rw [hd] at h; exact .inr ⟨move, rfl, h⟩
  · cases h

/-- A step takes the move that is due. -/
theorem step_of_due {s : State} (hl : configLegal s.cfg = true) {move : Move} (hd : s.due = some move) :
    step s = take move { s with moves := s.moves.tail } := by
  simp [step, hl, hd]

/-- A scheduled move is due. -/
theorem State.due_of_moves {s : State} {move : Move} {rest : List Move} (h : s.moves = move :: rest) :
    s.due = some move := by
  simp [State.due, h]

end Sys2Proof.Machine
end

