-- ==== Sys2Proof/Laws/Field.lean ====
section
/-! SUPPORT. The field functions and the reference product: what holds of the table product in every state, what the
tables hold after LutInit, and that the reference product distributes over the exclusive-or. -/

namespace Sys2Proof.Machine

/-! ## The table product in every state -/

variable (s : State)

@[simp] theorem State.mul_zero_left (b : Byte) : s.mul 0 b = 0 := by simp [State.mul]
@[simp] theorem State.mul_zero_right (a : Byte) : s.mul a 0 = 0 := by simp [State.mul]

/-- The table product is commutative whatever the tables hold. -/
theorem State.mul_comm (a b : Byte) : s.mul a b = s.mul b a := by
  unfold State.mul
  simp only [Nat.add_comm (s.log a) (s.log b), or_comm]

theorem State.mul_of_ne_zero {a b : Byte} (ha : a ≠ 0) (hb : b ≠ 0) :
    s.mul a b = s.exp ((s.log a + s.log b) % 255) := if_neg (not_or.2 ⟨ha, hb⟩)

theorem State.inverse_of_ne_zero {a : Byte} (ha : a ≠ 0) : s.inverse a = .ok (s.exp (255 - s.log a)) :=
  if_neg ha

/-- The field functions read the tables only: two states with the same tables multiply alike. -/
theorem State.mul_congr {s t : State} (he : ∀ i < 256, t.exp i = s.exp i) (hl : ∀ a, t.log a = s.log a) (a b : Byte) :
    t.mul a b = s.mul a b := by
  unfold State.mul
  rw [hl, hl]
  split
  · rfl
  · exact he _ (by have := Nat.mod_lt (s.log a + s.log b) (show 255 > 0 by omega); omega)

/-! ## The tables after LutInit -/

/-- `EXP[i]` (41_field.md R132, R134). -/
theorem State.exp_of_tables {s : State} (h : s.TablesOk) (hr : s.status.ready = true) {i : Nat} (hi : i < 256) :
    s.exp i = (expTable s.cfg)[i]'(by simpa) := by
  rw [State.exp, State.byte_of_outside_gen _ (by simp only [expBase]; omega), (h hr).1 i hi,
    List.getElem?_eq_getElem (by simpa), Option.getD_some]

/-- `LOG[a]` (41_field.md R133, R134). -/
theorem State.log_of_tables {s : State} (h : s.TablesOk) (hr : s.status.ready = true) (a : Byte) :
    s.log a = ((logTable s.cfg)[a.toNat]'(by simpa using a.isLt)).toNat := by
  have ha : a.toNat < 256 := a.isLt
  rw [State.log, State.byte_of_outside_gen _ (by simp only [logBase]; omega), (h hr).2 _ ha,
    List.getElem?_eq_getElem (by simpa), Option.getD_some]

/-! ## The reference product (41_field.md R130) -/

theorem carryless_xor_left (a a' b : Nat) (is : List Nat) (p p' : Nat) :
    carryless (a ^^^ a') b is (p ^^^ p') = carryless a b is p ^^^ carryless a' b is p' := by
  induction is generalizing p p' with
  | nil => rfl
  | cons i is ih =>
    simp only [carryless]
    rw [← ih]
    congr 1
    split
    · rw [Nat.shiftLeft_xor_distrib]
      ac_rfl
    · rfl

theorem carryless_xor_right (a b b' : Nat) (is : List Nat) (p p' : Nat) :
    carryless a (b ^^^ b') is (p ^^^ p') = carryless a b is p ^^^ carryless a b' is p' := by
  induction is generalizing p p' with
  | nil => rfl
  | cons i is ih =>
    simp only [carryless]
    rw [← ih]
    congr 1
    rw [Nat.testBit_xor]
    cases b.testBit i <;> cases b'.testBit i <;> simp
    · rw [Nat.xor_assoc]
    · rw [Nat.xor_right_comm]
    · rw [show ∀ x y z : Nat, (x ^^^ y) ^^^ (z ^^^ y) = (x ^^^ z) ^^^ (y ^^^ y) by intros; ac_rfl, Nat.xor_self,
        Nat.xor_zero]

theorem reducePoly_xor (poly : Nat) (is : List Nat) (p p' : Nat) :
    reducePoly poly is (p ^^^ p') = reducePoly poly is p ^^^ reducePoly poly is p' := by
  induction is generalizing p p' with
  | nil => rfl
  | cons i is ih =>
    simp only [reducePoly]
    rw [← ih]
    congr 1
    rw [Nat.testBit_xor]
    cases p.testBit i <;> cases p'.testBit i <;> simp
    · rw [Nat.xor_assoc]
    · rw [Nat.xor_right_comm]
    · rw [show ∀ x y z : Nat, (x ^^^ y) ^^^ (z ^^^ y) = (x ^^^ z) ^^^ (y ^^^ y) by intros; ac_rfl, Nat.xor_self,
        Nat.xor_zero]

theorem ofNat_xor_eight (x y : Nat) : BitVec.ofNat 8 (x ^^^ y) = BitVec.ofNat 8 x ^^^ BitVec.ofNat 8 y := by
  apply BitVec.eq_of_toNat_eq
  simp

/-- The reference product distributes over the field sum, on the left. -/
theorem polymul_xor_left (poly : BitVec 9) (a a' b : Byte) :
    polymul poly (a ^^^ a') b = polymul poly a b ^^^ polymul poly a' b := by
  unfold polymul
  rw [← ofNat_xor_eight, ← reducePoly_xor, ← carryless_xor_left, BitVec.toNat_xor, Nat.xor_self]

/-- The reference product distributes over the field sum, on the right. -/
theorem polymul_xor_right (poly : BitVec 9) (a b b' : Byte) :
    polymul poly a (b ^^^ b') = polymul poly a b ^^^ polymul poly a b' := by
  unfold polymul
  rw [← ofNat_xor_eight, ← reducePoly_xor, ← carryless_xor_right, BitVec.toNat_xor, Nat.xor_self]

end Sys2Proof.Machine
end

