-- ==== Sys2Proof/Laws/Invariant.lean ====
section
/-! SUPPORT. What each part of the invariant depends on: the parts carry over to a state that agrees on those fields,
and through a store that keeps to its memory. -/

namespace Sys2Proof.Machine

variable {s t : State}

theorem State.MemOk.congr (h : s.MemOk) (hc : t.cfg = s.cfg) (hm : t.mem = s.mem) : t.MemOk :=
  ⟨by rw [hm]; exact h.wf, by rw [hm, hc]; exact h.mapped⟩

theorem State.MemOk.of_store (h : s.MemOk) (a : Nat) (bs : List Byte) (hc : t.cfg = s.cfg)
    (hm : t.mem = Memory.store s.mem a bs)
    (hb : ∀ x, a ≤ x → x < a + bs.length → isMemoryByte s.cfg x = true) : t.MemOk := by
  refine ⟨by rw [hm]; exact Memory.wf_store _ _ _ h.wf, fun c hcm => ?_⟩
  rw [hm] at hcm
  rw [hc]
  rcases Memory.mem_store hcm with h' | h'
  · exact h.mapped c h'
  · exact hb _ h'.1 h'.2

theorem State.TablesOk.congr (h : s.TablesOk) (hm : t.mem = s.mem) (hc : t.cfg = s.cfg)
    (hr : t.status.ready = s.status.ready) : t.TablesOk := by
  intro hready
  rw [hr] at hready
  rw [hm, hc]
  exact h hready

theorem State.TablesOk.of_store (h : s.TablesOk) (a : Nat) (bs : List Byte) (hm : t.mem = Memory.store s.mem a bs)
    (hc : t.cfg = s.cfg) (hr : t.status.ready = s.status.ready) (hd : a + bs.length ≤ 0x1100 ∨ 0x1300 ≤ a) :
    t.TablesOk := by
  intro hready
  rw [hr] at hready
  have := h hready
  rw [hm, hc]
  refine ⟨fun i hi => ?_, fun i hi => ?_⟩
  · rw [Memory.read_store_outside _ _ _ _ (by simp only [expBase]; omega)]
    exact this.1 i hi
  · rw [Memory.read_store_outside _ _ _ _ (by simp only [logBase]; omega)]
    exact this.2 i hi

theorem State.ConfigOk.congr (h : s.ConfigOk) (hk : t.cfgK = s.cfgK) (hm : t.cfgM = s.cfgM)
    (hv : t.status.cfgValid = s.status.cfgValid) : t.ConfigOk := by
  constructor
  · intro h'
    rw [hv] at h'
    simpa [State.n, State.k, State.m, hk, hm] using h.valid h'
  · intro h'
    rw [hv] at h'
    simpa [State.n, State.k, State.m, hk, hm] using h.none h'

theorem State.StatusOk.congr (h : s.StatusOk) (he : t.errcode = s.errcode) (hc : t.curCmd = s.curCmd)
    (hst : t.status = s.status) : t.StatusOk := by
  constructor
  · rw [hst, he]; exact h.err
  · rw [he]; exact h.code
  · rw [hst, he]; exact h.fatal
  · rw [hst, he]; exact h.busy
  · rw [hst, hc]; exact h.idle
  · rw [hst, he]; exact h.unready

end Sys2Proof.Machine
end

