-- ==== Sys2Proof/Laws/Matrix.lean ====
section
/-! SUPPORT. The matrix functions: they read the tables only, so two states with the same tables compute alike; and the
entries of sums and products. -/

namespace Sys2Proof.Machine

/-- Two states with the same tables. -/
def SameTables (s t : State) : Prop := (∀ i < 256, t.exp i = s.exp i) ∧ ∀ a, t.log a = s.log a

/-- States that agree on the bytes of the tables have the same tables. -/
theorem sameTables_of_bytes {s t : State} (h : ∀ a, 0x1100 ≤ a → a < 0x1300 → t.byte a = s.byte a) :
    SameTables s t := by
  refine ⟨fun i hi => h _ (by simp only [expBase]; omega) (by simp only [expBase]; omega), fun a => ?_⟩
  have := a.isLt
  rw [State.log, State.log, h _ (by simp only [logBase]; omega) (by simp only [logBase]; omega)]

variable {s t : State}

theorem SameTables.mul (h : SameTables s t) (a b : Byte) : t.mul a b = s.mul a b := State.mul_congr h.1 h.2 a b

theorem SameTables.invNonzero (h : SameTables s t) (a : Byte) : t.invNonzero a = s.invNonzero a := by
  rw [State.invNonzero, State.invNonzero, h.2, h.1 _ (by omega)]

theorem SameTables.gpow (h : SameTables s t) (x : Byte) (e : Nat) : t.gpow x e = s.gpow x e := by
  unfold State.gpow
  rw [h.2]
  split
  · rfl
  · split
    · rfl
    · exact h.1 _ (by have := Nat.mod_lt (s.log x * e) (show 255 > 0 by omega); omega)

theorem SameTables.gjColumns (h : SameTables s t) (n : Nat) (cols : List Nat) (W : Mat) :
    t.gjColumns n cols W = s.gjColumns n cols W := by
  have hm : t.mul = s.mul := funext fun a => funext fun b => h.mul a b
  induction cols generalizing W with
  | nil => rfl
  | cons col cols ih =>
    simp only [State.gjColumns]
    split
    · rfl
    · rw [ih]
      simp only [State.eliminate, State.normalise, hm, h.invNonzero]

theorem SameTables.gjInvert (h : SameTables s t) (n : Nat) (M : Mat) : t.gjInvert n M = s.gjInvert n M := by
  rw [State.gjInvert, State.gjInvert, h.gjColumns]

/-- The generator matrix depends on the tables only (42_matrix.md R169). -/
theorem SameTables.buildGenerator (h : SameTables s t) (k m : Nat) : t.buildGenerator k m = s.buildGenerator k m := by
  have hm : t.mul = s.mul := funext fun a => funext fun b => h.mul a b
  have hp : t.gpow = s.gpow := funext fun x => funext fun e => h.gpow x e
  simp only [State.buildGenerator, State.matmul, State.vandermonde, State.topInverse, h.gjInvert, hm, hp]

/-- The field sum over a range, unfolded at its end. -/
theorem xorSum_range_succ (n : Nat) (f : Nat → Byte) :
    xorSum ((List.range (n + 1)).map f) = xorSum ((List.range n).map f) ^^^ f n := by
  have key : ∀ (l : List Byte) (b : Byte), xorSum (l ++ [b]) = xorSum l ^^^ b := by
    intro l b
    induction l with
    | nil => simp [xorSum]
    | cons x l ih =>
      simp only [xorSum, List.cons_append, List.foldr_cons] at ih ⊢
      rw [ih, BitVec.xor_assoc]
  rw [List.range_succ, List.map_append, List.map_singleton, key]

/-- An element of a product (42_matrix.md R167). -/
theorem State.entry_matmul (s : State) (p q r : Nat) (A B : Mat) {i j : Nat} (hi : i < p) (hj : j < r) :
    (s.matmul p q r A B).entry i j = xorSum ((List.range q).map fun l => s.mul (A.entry i l) (B.entry l j)) :=
  Mat.entry_tabulate _ _ _ hi hj

/-- An element of a row submatrix (42_matrix.md R168). -/
theorem Mat.entry_submatrix (M : Mat) (cols : Nat) (rows : List Nat) {j c : Nat} (hj : j < rows.length) (hc : c < cols) :
    (M.submatrix cols rows).entry j c = M.entry rows[j] c := by
  simp [Mat.entry, Mat.submatrix, List.getD, hj, hc]

end Sys2Proof.Machine
end

