-- ==== Sys2Proof/Laws/PerInstr.lean ====
section
/-! SUPPORT. Statements made instruction by instruction: every instruction's word lies in the instruction's own row of
the opcode table, and the instruction is well formed; and no word lies in two rows. -/

namespace Sys2Proof.Laws

/-- Mask and match of an instruction's row, 30_encoding.md R95. -/
def WordInRow.row : Instr → Word × Word
  | .nop => (0xFFFFFFFF, 0x00000000)
  | .gfAdd => (0xFFFFFFFF, 0x00000001)
  | .gfMul => (0xFFFFFFFF, 0x00000002)
  | .gfDiv => (0xFFFFFFFF, 0x00000003)
  | .gfInv => (0xFFFFFFFF, 0x00000004)
  | .matGen _ => (0xFFFFFCFF, 0x00000010)
  | .matSub _ _ => (0xFFFFF0FF, 0x00000011)
  | .matInv _ _ => (0xFFFFF0FF, 0x00000012)
  | .matMul _ _ _ => (0xFFFFC0FF, 0x00000013)
  | .codecNew => (0xFFFFFFFF, 0x00000020)
  | .encode => (0xFFFFFFFF, 0x00000021)
  | .reconstruct => (0xFFFFFFFF, 0x00000022)

/-- The instruction is well formed and its word is in its row. -/
def WordInRow.Statement (i : Instr) : Prop :=
  i.wellFormed = true ∧ inRow (encode i) (WordInRow.row i).1 (WordInRow.row i).2 = true

theorem WordInRow.nop : WordInRow.Statement .nop := ⟨rfl, by decide⟩
theorem WordInRow.gfAdd : WordInRow.Statement .gfAdd := ⟨rfl, by decide⟩
theorem WordInRow.gfMul : WordInRow.Statement .gfMul := ⟨rfl, by decide⟩
theorem WordInRow.gfDiv : WordInRow.Statement .gfDiv := ⟨rfl, by decide⟩
theorem WordInRow.gfInv : WordInRow.Statement .gfInv := ⟨rfl, by decide⟩
theorem WordInRow.matGen (d : MatSel) : WordInRow.Statement (.matGen d) := by
  revert d
  unfold WordInRow.Statement
  decide
theorem WordInRow.matSub (d a : MatSel) : WordInRow.Statement (.matSub d a) := by
  revert d a
  unfold WordInRow.Statement
  decide
theorem WordInRow.matInv (d a : MatSel) : WordInRow.Statement (.matInv d a) := by
  revert d a
  unfold WordInRow.Statement
  decide
theorem WordInRow.matMul (d a b : MatSel) : WordInRow.Statement (.matMul d a b) := by
  revert d a b
  unfold WordInRow.Statement
  decide
theorem WordInRow.codecNew : WordInRow.Statement .codecNew := ⟨rfl, by decide⟩
theorem WordInRow.encode : WordInRow.Statement .encode := ⟨rfl, by decide⟩
theorem WordInRow.reconstruct : WordInRow.Statement .reconstruct := ⟨rfl, by decide⟩

/-- A word in a row has the row's opcode in its low byte, since every mask covers it (30_encoding.md R95): so the rows
do not overlap. -/
theorem opcode_of_inRow (w : Word) (i : Instr) (h : inRow w (WordInRow.row i).1 (WordInRow.row i).2 = true) :
    w.extractLsb' 0 8 = (WordInRow.row i).2.extractLsb' 0 8 := by
  have h' : w &&& (WordInRow.row i).1 = (WordInRow.row i).2 := by simpa [inRow] using h
  rw [← h']
  apply BitVec.eq_of_getLsbD_eq
  intro j hj
  cases i <;> interval_cases j <;> simp [WordInRow.row]

end Sys2Proof.Laws
end

