-- ==== Sys2Proof/Tests/Slice0.lean ====
section
/-! SUPPORT. The model's own tests: ill-formed terms that the checks refuse, words written out from 30_encoding.md R95,
one step each on the examples of the spec (95_test_vectors.md and the examples of the command rules), and, for every
statement with hypotheses, a state and operands that meet them. -/

namespace Sys2Proof.Tests

set_option maxRecDepth 100000
-- One theorem at a time: every `decide +kernel` waits in a thread of its own otherwise.
set_option Elab.async false

open Sys2Proof Sys2Proof.Machine Sys2Proof.Claims

/-! ## Well-formedness (30_encoding.md R96): one ill-formed term for each check -/

theorem test_wellFormed_accepts : CmdFields.wellFormed { opc := 0x13, d := 3, a := 1, b := 2, rsv := 0 } = true := by
  decide
theorem test_refuses_unassignedOpcode :
    CmdFields.error { opc := 0x05, d := 0, a := 0, b := 0, rsv := 0 } = some .unassignedOpcode := by decide
theorem test_refuses_reservedBits :
    CmdFields.error { opc := 0x13, d := 0, a := 0, b := 0, rsv := 0x20000 } = some .reservedBits := by decide
theorem test_refuses_unusedD :
    CmdFields.error { opc := 0x01, d := 1, a := 0, b := 0, rsv := 0 } = some .unusedD := by decide
theorem test_refuses_unusedA :
    CmdFields.error { opc := 0x10, d := 3, a := 1, b := 0, rsv := 0 } = some .unusedA := by decide
theorem test_refuses_unusedB :
    CmdFields.error { opc := 0x12, d := 3, a := 3, b := 2, rsv := 0 } = some .unusedB := by decide
theorem test_instr_wellFormed : (Instr.matMul 3 3 3).wellFormed = true := by decide

/-! ## Decoding: the words of 30_encoding.md R95, bit 31 first, selectors written in -/

theorem test_decode_nop : decode 0b00000000000000000000000000000000 = .command .nop := by decide
theorem test_decode_gfAdd : decode 0b00000000000000000000000000000001 = .command .gfAdd := by decide
theorem test_decode_gfMul : decode 0b00000000000000000000000000000010 = .command .gfMul := by decide
theorem test_decode_gfDiv : decode 0b00000000000000000000000000000011 = .command .gfDiv := by decide
theorem test_decode_gfInv : decode 0b00000000000000000000000000000100 = .command .gfInv := by decide
theorem test_decode_matGen : decode 0b00000000000000000000001000010000 = .command (.matGen 2) := by decide
theorem test_decode_matSub : decode 0b00000000000000000000110100010001 = .command (.matSub 1 3) := by decide
theorem test_decode_matInv : decode 0b00000000000000000000011000010010 = .command (.matInv 2 1) := by decide
theorem test_decode_matMul : decode 0b00000000000000000010011100010011 = .command (.matMul 3 1 2) := by decide
theorem test_decode_codecNew : decode 0b00000000000000000000000000100000 = .command .codecNew := by decide
theorem test_decode_encode : decode 0b00000000000000000000000000100001 = .command .encode := by decide
theorem test_decode_reconstruct : decode 0b00000000000000000000000000100010 = .command .reconstruct := by decide
theorem test_decode_illegal_opcode_23 : decode 0x00000023 = .illegal .unassignedOpcode := by decide
theorem test_decode_illegal_bit14 : decode 0x00004013 = .illegal .reservedBits := by decide
/-- R98: `mat.mul m3, m1, m2` is `enc(0x13, 3, 1, 2)`, the word `0x2713` of 95_test_vectors.md V5. -/
theorem test_encode_matMul : encode (.matMul 3 1 2) = 0x00002713 := by decide
theorem test_decodeTableWord : decodeTableWord 32 0x00000612 = some (.matInv 2 1) := by decide

/-! ## The tables of 95_test_vectors.md V1 -/

/-- `EXP[0 .. 255]`, V1. -/
def vExp : List Byte :=
  [0x01, 0x02, 0x04, 0x08, 0x10, 0x20, 0x40, 0x80, 0x1d, 0x3a, 0x74, 0xe8, 0xcd, 0x87, 0x13, 0x26] ++
  [0x4c, 0x98, 0x2d, 0x5a, 0xb4, 0x75, 0xea, 0xc9, 0x8f, 0x03, 0x06, 0x0c, 0x18, 0x30, 0x60, 0xc0] ++
  [0x9d, 0x27, 0x4e, 0x9c, 0x25, 0x4a, 0x94, 0x35, 0x6a, 0xd4, 0xb5, 0x77, 0xee, 0xc1, 0x9f, 0x23] ++
  [0x46, 0x8c, 0x05, 0x0a, 0x14, 0x28, 0x50, 0xa0, 0x5d, 0xba, 0x69, 0xd2, 0xb9, 0x6f, 0xde, 0xa1] ++
  [0x5f, 0xbe, 0x61, 0xc2, 0x99, 0x2f, 0x5e, 0xbc, 0x65, 0xca, 0x89, 0x0f, 0x1e, 0x3c, 0x78, 0xf0] ++
  [0xfd, 0xe7, 0xd3, 0xbb, 0x6b, 0xd6, 0xb1, 0x7f, 0xfe, 0xe1, 0xdf, 0xa3, 0x5b, 0xb6, 0x71, 0xe2] ++
  [0xd9, 0xaf, 0x43, 0x86, 0x11, 0x22, 0x44, 0x88, 0x0d, 0x1a, 0x34, 0x68, 0xd0, 0xbd, 0x67, 0xce] ++
  [0x81, 0x1f, 0x3e, 0x7c, 0xf8, 0xed, 0xc7, 0x93, 0x3b, 0x76, 0xec, 0xc5, 0x97, 0x33, 0x66, 0xcc] ++
  [0x85, 0x17, 0x2e, 0x5c, 0xb8, 0x6d, 0xda, 0xa9, 0x4f, 0x9e, 0x21, 0x42, 0x84, 0x15, 0x2a, 0x54] ++
  [0xa8, 0x4d, 0x9a, 0x29, 0x52, 0xa4, 0x55, 0xaa, 0x49, 0x92, 0x39, 0x72, 0xe4, 0xd5, 0xb7, 0x73] ++
  [0xe6, 0xd1, 0xbf, 0x63, 0xc6, 0x91, 0x3f, 0x7e, 0xfc, 0xe5, 0xd7, 0xb3, 0x7b, 0xf6, 0xf1, 0xff] ++
  [0xe3, 0xdb, 0xab, 0x4b, 0x96, 0x31, 0x62, 0xc4, 0x95, 0x37, 0x6e, 0xdc, 0xa5, 0x57, 0xae, 0x41] ++
  [0x82, 0x19, 0x32, 0x64, 0xc8, 0x8d, 0x07, 0x0e, 0x1c, 0x38, 0x70, 0xe0, 0xdd, 0xa7, 0x53, 0xa6] ++
  [0x51, 0xa2, 0x59, 0xb2, 0x79, 0xf2, 0xf9, 0xef, 0xc3, 0x9b, 0x2b, 0x56, 0xac, 0x45, 0x8a, 0x09] ++
  [0x12, 0x24, 0x48, 0x90, 0x3d, 0x7a, 0xf4, 0xf5, 0xf7, 0xf3, 0xfb, 0xeb, 0xcb, 0x8b, 0x0b, 0x16] ++
  [0x2c, 0x58, 0xb0, 0x7d, 0xfa, 0xe9, 0xcf, 0x83, 0x1b, 0x36, 0x6c, 0xd8, 0xad, 0x47, 0x8e, 0x01]

/-- `LOG[0 .. 255]`, V1. -/
def vLog : List Byte :=
  [0x00, 0x00, 0x01, 0x19, 0x02, 0x32, 0x1a, 0xc6, 0x03, 0xdf, 0x33, 0xee, 0x1b, 0x68, 0xc7, 0x4b] ++
  [0x04, 0x64, 0xe0, 0x0e, 0x34, 0x8d, 0xef, 0x81, 0x1c, 0xc1, 0x69, 0xf8, 0xc8, 0x08, 0x4c, 0x71] ++
  [0x05, 0x8a, 0x65, 0x2f, 0xe1, 0x24, 0x0f, 0x21, 0x35, 0x93, 0x8e, 0xda, 0xf0, 0x12, 0x82, 0x45] ++
  [0x1d, 0xb5, 0xc2, 0x7d, 0x6a, 0x27, 0xf9, 0xb9, 0xc9, 0x9a, 0x09, 0x78, 0x4d, 0xe4, 0x72, 0xa6] ++
  [0x06, 0xbf, 0x8b, 0x62, 0x66, 0xdd, 0x30, 0xfd, 0xe2, 0x98, 0x25, 0xb3, 0x10, 0x91, 0x22, 0x88] ++
  [0x36, 0xd0, 0x94, 0xce, 0x8f, 0x96, 0xdb, 0xbd, 0xf1, 0xd2, 0x13, 0x5c, 0x83, 0x38, 0x46, 0x40] ++
  [0x1e, 0x42, 0xb6, 0xa3, 0xc3, 0x48, 0x7e, 0x6e, 0x6b, 0x3a, 0x28, 0x54, 0xfa, 0x85, 0xba, 0x3d] ++
  [0xca, 0x5e, 0x9b, 0x9f, 0x0a, 0x15, 0x79, 0x2b, 0x4e, 0xd4, 0xe5, 0xac, 0x73, 0xf3, 0xa7, 0x57] ++
  [0x07, 0x70, 0xc0, 0xf7, 0x8c, 0x80, 0x63, 0x0d, 0x67, 0x4a, 0xde, 0xed, 0x31, 0xc5, 0xfe, 0x18] ++
  [0xe3, 0xa5, 0x99, 0x77, 0x26, 0xb8, 0xb4, 0x7c, 0x11, 0x44, 0x92, 0xd9, 0x23, 0x20, 0x89, 0x2e] ++
  [0x37, 0x3f, 0xd1, 0x5b, 0x95, 0xbc, 0xcf, 0xcd, 0x90, 0x87, 0x97, 0xb2, 0xdc, 0xfc, 0xbe, 0x61] ++
  [0xf2, 0x56, 0xd3, 0xab, 0x14, 0x2a, 0x5d, 0x9e, 0x84, 0x3c, 0x39, 0x53, 0x47, 0x6d, 0x41, 0xa2] ++
  [0x1f, 0x2d, 0x43, 0xd8, 0xb7, 0x7b, 0xa4, 0x76, 0xc4, 0x17, 0x49, 0xec, 0x7f, 0x0c, 0x6f, 0xf6] ++
  [0x6c, 0xa1, 0x3b, 0x52, 0x29, 0x9d, 0x55, 0xaa, 0xfb, 0x60, 0x86, 0xb1, 0xbb, 0xcc, 0x3e, 0x5a] ++
  [0xcb, 0x59, 0x5f, 0xb0, 0x9c, 0xa9, 0xa0, 0x51, 0x0b, 0xf5, 0x16, 0xeb, 0x7a, 0x75, 0x2c, 0xd7] ++
  [0x4f, 0xae, 0xd5, 0xe9, 0xe6, 0xe7, 0xad, 0xe8, 0x74, 0xd6, 0xf4, 0xea, 0xa8, 0x50, 0x58, 0xaf]

theorem test_expTable : expTable Config.default = vExp := by decide +kernel
theorem test_logTable : logTable Config.default = vLog := by decide +kernel
theorem legal_default : configLegal Config.default = true := by decide +kernel
/-- 41_field.md R131: 2 has order 51 for the polynomial `0x11B`, so this pair is refused. -/
theorem test_illegal_generator : configLegal { Config.default with fieldPoly := 0x11B } = false := by decide +kernel
theorem test_illegal_maxlen : configLegal { Config.default with shardMaxLen := 100 } = false := by decide +kernel

/-! ## Small states -/

/-- The block after LutInit, with the tables of V1. -/
def ready : State :=
  { State.reset with
      status := { State.reset.status with ready := true }
      mem := Memory.cellsFrom expBase (vExp ++ vLog) }

/-- `ready` with operands. -/
def args (a b : Word) : State := { ready with arg0 := a, arg1 := b }

/-- A state with bytes at an offset. -/
def put (s : State) (off : Nat) (bs : List Byte) : State := s.store off bs

/-- A state with the matrix `rows × cols` in `MAT[i]`. -/
def withMat (s : State) (i : MatSel) (rows cols : Nat) (bs : List Byte) : State :=
  (s.store (matBase i) bs).setDims i rows cols

/-- What `f` says of the next state. -/
def answer {α : Type} (o : Host.Outcome State Fault Refusal) (f : State → α) : Option α :=
  match o with
  | .next t => some (f t)
  | .fault _ => none
  | .refused _ => none

/-- The error code and some bytes of the next state. -/
def codeAndBytes (o : Host.Outcome State Fault Refusal) (off n : Nat) : Option (Byte × List Byte) :=
  answer o fun t => (t.errcode, (List.range n).map fun i => t.byte (off + i))

/-- The bytes of `G(2,2)`, V5. -/
def g22 : List Byte := [0x01, 0x00, 0x00, 0x01, 0x03, 0x02, 0x02, 0x03]

/-! ## One step of each command, on the vectors of 95_test_vectors.md -/

/-- R118: `NOP` leaves `STATUS = 0x06`. -/
theorem test_nop : answer (exec .nop ready) (fun t => (t.status.word, t.errcode)) = some (0x06, 0) := by decide
/-- V2: the upper operand bits are ignored. -/
theorem test_gfAdd : answer (exec .gfAdd (args 0x1FF 0x001)) (fun t => t.result) = some 0xFE := by decide
/-- V2. -/
theorem test_gfMul : answer (exec .gfMul (args 0x53 0xCA)) (fun t => t.result) = some 0x8F := by decide
/-- V2: reduction by the polynomial. -/
theorem test_gfMul_reduces : answer (exec .gfMul (args 0x80 0x02)) (fun t => t.result) = some 0x1D := by decide
/-- V2: `LOG[a] < LOG[b]` wraps. -/
theorem test_gfDiv : answer (exec .gfDiv (args 0x02 0x8E)) (fun t => t.result) = some 0x04 := by decide
/-- V2, 90_conflicts.md C3: `div(0, 0)` fails, `RESULT` unchanged, not `FATAL`. -/
theorem test_gfDiv_by_zero :
    answer (exec .gfDiv { args 0 0 with result := 0x99 }) (fun t => (t.result, t.errcode, t.status.word)) =
      some (0x99, 0x04, 0x0E) := by decide
/-- V2: `inverse(1)` reads `EXP[255]`. -/
theorem test_gfInv_one : answer (exec .gfInv (args 0x01 0)) (fun t => t.result) = some 0x01 := by decide
/-- V2. -/
theorem test_gfInv : answer (exec .gfInv (args 0x53 0)) (fun t => t.result) = some 0x8C := by decide
/-- V3: `gpow(3, 2)`, `gpow(0, 0)`, `gpow(0, 5)`, `gpow(2, 255)`. -/
theorem test_gpow : (ready.gpow 3 2, ready.gpow 0 0, ready.gpow 0 5, ready.gpow 2 255) = (0x05, 0x01, 0x00, 0x01) := by
  decide
/-- V5: `mat.gen m0, 2, 2`. -/
theorem test_matGen : codeAndBytes (exec (.matGen 0) (args 2 2)) 0x20000 8 = some (0, g22) := by decide +kernel
/-- V5: the sum does not wrap. -/
theorem test_matGen_sum : answer (exec (.matGen 0) (args 0xFFFFFFFF 1)) (fun t => t.errcode) = some 0x08 := by decide
/-- V5: `mat.sub m0, m0, [1]` in place; bytes 2 to 7 stay. -/
theorem test_matSub_in_place :
    codeAndBytes (exec (.matSub 0 0) (put (withMat (args 1 0) 0 4 2 g22) 0x1000 [0x01])) 0x20000 8 =
      some (0, [0x00, 0x01, 0x00, 0x01, 0x03, 0x02, 0x02, 0x03]) := by decide +kernel
/-- V5: row index 4 of 4 rows. -/
theorem test_matSub_index :
    answer (exec (.matSub 1 0) (put (withMat (args 1 0) 0 4 2 g22) 0x1000 [0x04]))
      (fun t => (t.errcode, t.status.word)) = some (0x0B, 0x0E) := by decide +kernel
/-- V5: a pivot swap. -/
theorem test_matInv_swap :
    codeAndBytes (exec (.matInv 2 1) (withMat ready 1 2 2 [0x00, 0x03, 0x02, 0x00])) 0x40000 4 =
      some (0, [0x00, 0x8E, 0xF4, 0x00]) := by decide +kernel
/-- V5: a singular matrix, row 0 = 2 times row 1. -/
theorem test_matInv_singular :
    answer (exec (.matInv 2 1) (withMat ready 1 2 2 [0x02, 0x04, 0x01, 0x02])) (fun t => (t.errcode, t.status.word)) =
      some (0x05, 0x0E) := by decide +kernel
/-- V5: a `2 × 3` by a `3 × 2` matrix. -/
theorem test_matMul :
    codeAndBytes (exec (.matMul 3 1 2) (withMat (withMat ready 1 2 3 [0x01, 0x02, 0x03, 0x04, 0x05, 0x06]) 2 3 2
      [0x01, 0x00, 0x00, 0x01, 0x01, 0x01])) 0x50000 4 = some (0, [0x02, 0x01, 0x02, 0x03]) := by decide +kernel
/-- V5: inner dimensions disagree, `FATAL`. -/
theorem test_matMul_fatal :
    answer (exec (.matMul 3 1 2) (withMat (withMat ready 1 2 3 []) 2 2 2 [])) (fun t => (t.errcode, t.status.word)) =
      some (0x07, 0x1E) := by decide
/-- V6: `rs.new 2, 1`. -/
theorem test_codecNew :
    answer (exec .codecNew (args 2 1)) (fun t => (t.cfgK, t.cfgM, t.status.word,
      (List.range 6).map fun i => t.byte (0x10000 + i))) =
      some (2, 1, 0x26, [0x01, 0x00, 0x00, 0x01, 0x03, 0x02]) := by decide +kernel
/-- V6: `(256, 0)` is rejected. -/
theorem test_codecNew_rejects : answer (exec .codecNew (args 256 0)) (fun t => (t.errcode, t.cfgK)) = some (0x01, 0) := by
  decide

/-- The configuration `(2, 1)` of V6 with the shards of V8's first row: slot 0 = `01 02`, slot 1 = `03 04`, slot 2 =
`05 0e`, slot 0 missing from the presence map. -/
def code21 : State :=
  { put (put (put (put (args 3 0) 0x10000 [0x01, 0x00, 0x00, 0x01, 0x03, 0x02]) 0x1000000 [0x01, 0x02])
      0x1001000 [0x03, 0x04]) 0x1002000 [0x05, 0x0E] with
    status := { ready.status with cfgValid := true }
    cfgK := 2
    cfgM := 1
    present := ready.present.set 0 0b110
    slotLen := ((ready.slotLen.set 0 2).set 1 2).set 2 2 }

/-- V8, first row. -/
theorem test_encode :
    codeAndBytes (exec .encode (put { code21 with arg0 := 2 } 0x1002000 [0xFF, 0xFF])) 0x1002000 2 =
      some (0, [0x05, 0x0E]) := by decide +kernel
/-- V8: the count is checked before the lengths. -/
theorem test_encode_count :
    answer (exec .encode { code21 with arg0 := 3, slotLen := code21.slotLen.set 0 3 }) (fun t => t.errcode) =
      some 0x01 := by decide +kernel
/-- R206's example: slot 0 is restored, and gets its length. -/
theorem test_reconstruct :
    answer (exec .reconstruct (put { code21 with slotLen := code21.slotLen.set 0 9 } 0x1000000 [0xFF, 0xFF]))
      (fun t => (t.errcode, t.len 0, t.byte 0x1000000, t.byte 0x1000001)) = some (0, 2, 0x01, 0x02) := by
  decide +kernel
/-- 60_exceptions.md R244: too few shards. -/
theorem test_reconstruct_insufficient :
    answer (exec .reconstruct { code21 with present := ready.present.set 0 0b100 }) (fun t => t.errcode) =
      some 0x03 := by decide +kernel
/-- R121: an unassigned opcode completes with code 9. -/
theorem test_illegal :
    answer (coreStep { ready with status := ready.status.onAccept, curCmd := 5 })
      (fun t => (t.errcode, t.status.word)) = some (0x09, 0x0E) := by decide
/-- From reset, with nothing placed: the first step is LutInit (log 15). -/
theorem test_first_step : answer (step State.reset) (fun t => (t.status.word, t.mem)) =
    some (0x02, ready.mem) := by decide +kernel
/-- `withFetchWord` runs exactly its word. -/
theorem test_withFetchWord :
    answer (step (State.reset.withFetchWord 32 0x413)) (fun t => (t.errcode, t.status.word)) = some (0x07, 0x1E) := by
  decide +kernel

/-! ## The bus, on the vectors of 95_test_vectors.md V11, V12 -/

/-- The response to one access of an otherwise unchanged block. -/
def response (s : State) (a : Access) : Option (Option Response) := answer (hostStep a s) fun t => t.responses.head?

/-- V12: unmapped, misaligned and narrow accesses. -/
theorem test_bus_errors :
    [response ready (.read 0x1300 .word4), response ready (.read 0x60000 .word4), response ready (.read 0x1100000 .word4),
      response ready (.read 0x1000001 .half2), response ready (.read 0x002 .half2)] =
      List.replicate 5 (some (some (.readError 0))) := by decide
/-- V1, V12: `EXP` and `LOG` read as words. -/
theorem test_table_reads :
    (response ready (.read 0x1100 .word4), response ready (.read 0x1250 .word4)) =
      (some (some (.readOk 0x08040201)), some (some (.readOk 0xCE94D036))) := by decide +kernel
/-- V12: a word store seen as a byte and as a half word. -/
theorem test_store_little_endian :
    answer (hostStep (.write 0x1000000 .word4 0x44332211) ready) (fun t =>
      (response t (.read 0x1000000 .byte1), response t (.read 0x1000002 .half2))) =
      some (some (some (.readOk 0x11)), some (some (.readOk 0x4433))) := by decide +kernel
/-- V12: `MAT_ROWS[0]` stores nine bits. -/
theorem test_matRows_nine_bits :
    answer (hostStep (.write 0x080 .word4 0xFFFF) ready) (fun t => response t (.read 0x080 .word4)) =
      some (some (some (.readOk 0x1FF))) := by decide
/-- V11: a `CMD` write before `READY` is dropped. -/
theorem test_cmd_not_ready :
    answer (hostStep (.write 0x00C .word4 0) State.reset) (fun t => t.status.word) = some 0x40 := by decide

/-! ## States that meet the invariants -/

theorem read_ready (a : Nat) (h : expBase ≤ a) : Memory.read ready.mem a = (vExp ++ vLog)[a - expBase]? := by
  rw [show ready.mem = Memory.cellsFrom expBase (vExp ++ vLog) from rfl, Memory.read_cellsFrom, if_pos h]

theorem length_vExp : vExp.length = 256 := rfl

theorem ready_tables : ready.TablesOk := by
  intro _
  rw [show ready.cfg = Config.default from rfl, test_expTable, test_logTable]
  refine ⟨fun i hi => ?_, fun i hi => ?_⟩
  · rw [read_ready _ (Nat.le_add_right _ _), Nat.add_sub_cancel_left,
      List.getElem?_append_left (by rw [length_vExp]; exact hi)]
  · rw [read_ready _ (by simp only [expBase, logBase]; omega),
      List.getElem?_append_right (by rw [length_vExp]; simp only [expBase, logBase]; omega), length_vExp]
    congr 1
    simp only [expBase, logBase]
    omega

theorem ready_mem : ready.MemOk := ⟨by decide +kernel, by decide +kernel⟩

/-- The block after LutInit. -/
theorem ready_inv : ready.Inv :=
  ⟨legal_default, ready_mem, ⟨rfl, by decide, rfl, by decide, by decide, by decide⟩,
    ⟨by decide, by decide⟩, ready_tables⟩

/-- The block with a command in flight. -/
def busy (w : Word) : State := { ready with status := ready.status.onAccept, curCmd := w }

theorem busy_inv (w : Word) : (busy w).Inv :=
  ⟨legal_default, ready_mem.congr rfl rfl,
    ⟨rfl, by show (0 : Byte).toNat ≤ 0x0B; decide, rfl, fun _ => ⟨rfl, rfl, rfl⟩, fun h => Bool.noConfusion h,
      fun h => Bool.noConfusion h⟩,
    ⟨fun h => Bool.noConfusion h, fun _ => ⟨rfl, rfl⟩⟩, ready_tables.congr rfl rfl rfl⟩

/-- The block after a `DIMENSION_MISMATCH`. -/
def fatal : State := ready.complete .dimensionMismatch

theorem fatal_inv : fatal.Inv :=
  ⟨legal_default, ready_mem.congr rfl rfl,
    ⟨rfl, by decide, rfl, by decide, by decide, by decide⟩, ⟨by decide, by decide⟩, ready_tables.congr rfl rfl rfl⟩

/-- Bytes put outside the tables leave them. -/
theorem put_tables {s : State} (h : s.TablesOk) {off : Nat} (ho : 0x1300 ≤ off) (bs : List Byte) :
    (put s off bs).TablesOk :=
  h.of_store off bs rfl rfl rfl (.inr ho)

theorem code21_tables : code21.TablesOk := by
  have h := ready_tables.congr (t := args 3 0) rfl rfl rfl
  have h1 := put_tables h (off := 0x10000) (by decide) [0x01, 0x00, 0x00, 0x01, 0x03, 0x02]
  have h2 := put_tables h1 (off := 0x1000000) (by decide) [0x01, 0x02]
  have h3 := put_tables h2 (off := 0x1001000) (by decide) [0x03, 0x04]
  have h4 := put_tables h3 (off := 0x1002000) (by decide) [0x05, 0x0E]
  exact h4.congr rfl rfl rfl

theorem code21_inv : code21.Inv :=
  ⟨legal_default, ⟨by decide +kernel, by decide +kernel⟩, ⟨rfl, by decide, rfl, by decide, by decide, by decide⟩,
    ⟨by decide, by decide⟩, code21_tables⟩

/-- `GEN` holds the generator matrix of `(2, 1)`, 42_matrix.md R169. -/
theorem code21_gen : code21.GenOk := by
  intro _
  decide +kernel

/-- `s` with a schedule. -/
def sched (s : State) (l : List Move) : State := { s with moves := l }

/-- The invariants say nothing of the schedule. -/
theorem sched_inv {s : State} (h : s.Inv) (l : List Move) : (sched s l).Inv :=
  ⟨h.legal, h.mem.congr rfl rfl, h.status.congr rfl rfl rfl, h.config.congr rfl rfl rfl, h.tables.congr rfl rfl rfl⟩

theorem sched_gen {s : State} (h : s.GenOk) (l : List Move) : (sched s l).GenOk := fun hv r hr c hc => by
  rw [SameTables.buildGenerator (s := s) (t := sched s l) ⟨fun _ _ => rfl, fun _ => rfl⟩]
  exact h hv r hr c hc

theorem exists_of_answer {α : Type} {o : Host.Outcome State Fault Refusal} {f : State → α} {x : α}
    (h : answer o f = some x) : ∃ t, o = .next t ∧ f t = x := by
  cases o with
  | next t => exact ⟨t, rfl, by simpa [answer] using h⟩
  | fault _ => cases h
  | refused _ => cases h

/-- A schedule's first move answers a next state with the property `f`. -/
theorem exists_step {α : Type} {s : State} (hl : configLegal s.cfg = true) {move : Move} {rest : List Move}
    (hm : s.moves = move :: rest) {f : State → α} {x : α} (h : answer (take move (sched s rest)) f = some x) :
    ∃ t, step s = .next t ∧ f t = x := by
  rw [step_of_due hl (State.due_of_moves hm), hm]
  exact exists_of_answer h

/-! ## Witnesses: for every statement with hypotheses, a state and operands that meet them all, clause by clause -/

/-- StepRunsDecodedCommand, both clauses, with a `MAT_MUL` word. -/
theorem witness_StepRunsDecodedCommand :
    (configLegal (busy 0x3F13).cfg = true ∧ (busy 0x3F13).status.busy = true ∧
      decode (busy 0x3F13).curCmd = .command (.matMul 3 3 3) ∧ (busy 0x3F13).moves = []) ∧
    (sched (busy 0x3F13) [.core]).moves = .core :: [] :=
  ⟨⟨legal_default, rfl, by decide, rfl⟩, rfl⟩

/-- IllegalWordCompletesWithCode9. -/
theorem witness_IllegalWordCompletesWithCode9 :
    ∃ (s : State) (rest : List Move), configLegal s.cfg = true ∧ s.status.busy = true ∧ s.moves = .core :: rest ∧
      ∀ i, decode s.curCmd ≠ .command i :=
  ⟨sched (busy 0x4000) [.core], [], legal_default, rfl, rfl, fun i => by
    rw [show decode (sched (busy 0x4000) [.core]).curCmd = .illegal .reservedBits by decide]
    simp⟩

/-- CmdWriteIsAcceptedOrDropped: accepted; dropped while busy, before `READY`, and while `FATAL`. -/
theorem witness_CmdWriteIsAcceptedOrDropped :
    let move : Move := .host (.write 0x00C .word4 0x22)
    (∃ s, configLegal s.cfg = true ∧ atOffset s 0x00C 0x00C ∧ s.moves = move :: [] ∧
      s.status.busy = false ∧ s.status.ready = true ∧ s.status.fatal = false) ∧
    (∃ s, configLegal s.cfg = true ∧ atOffset s 0x00C 0x00C ∧ s.moves = move :: [] ∧ s.status.busy = true) ∧
    (∃ s, configLegal s.cfg = true ∧ atOffset s 0x00C 0x00C ∧ s.moves = move :: [] ∧ s.status.ready = false) ∧
    (∃ s, configLegal s.cfg = true ∧ atOffset s 0x00C 0x00C ∧ s.moves = move :: [] ∧ s.status.fatal = true) := by
  have ho : ∀ s : State, s.cfg = Config.default → atOffset s 0x00C 0x00C := fun s hs => by
    unfold atOffset
    rw [hs]
    decide
  exact ⟨⟨sched ready _, legal_default, ho _ rfl, rfl, rfl, rfl, rfl⟩,
    ⟨sched (busy 0) _, legal_default, ho _ rfl, rfl, rfl⟩,
    ⟨sched State.reset _, legal_default, ho _ rfl, rfl, rfl⟩, ⟨sched fatal _, legal_default, ho _ rfl, rfl, rfl⟩⟩

/-- BusyDropsEveryOtherWrite: the last byte of slot 255, and `ARG0`. -/
theorem witness_BusyDropsEveryOtherWrite :
    (∃ (s : State) (addr v : Word) (size : Size) (off : Nat) (rest : List Move), configLegal s.cfg = true ∧
      s.status.busy = true ∧ atOffset s addr off ∧ ¬ illegalAccess s.cfg off size.bytes ∧ off ≠ 0x008 ∧
      s.moves = .host (.write addr size v) :: rest ∧ off = 0x10FFFFF) ∧
    (∃ (s : State) (addr v : Word) (size : Size) (off : Nat) (rest : List Move), configLegal s.cfg = true ∧
      s.status.busy = true ∧ atOffset s addr off ∧ ¬ illegalAccess s.cfg off size.bytes ∧ off ≠ 0x008 ∧
      s.moves = .host (.write addr size v) :: rest ∧ off = 0x018) :=
  ⟨⟨sched (busy 0) [.host (.write 0x10FFFFF .byte1 1)], 0x10FFFFF, 1, .byte1, 0x10FFFFF, [], legal_default, rfl,
      ⟨by decide, by decide⟩, by unfold illegalAccess unmapped; decide, by decide, rfl, rfl⟩,
    ⟨sched (busy 0) [.host (.write 0x018 .word4 5)], 0x018, 5, .word4, 0x018, [], legal_default, rfl,
      ⟨by decide, by decide⟩, by unfold illegalAccess unmapped; decide, by decide, rfl, rfl⟩⟩

/-- CtrlWriteTakesEffectAlways, on a busy block. -/
theorem witness_CtrlWriteTakesEffectAlways :
    ∃ (s : State) (addr v : Word) (rest : List Move), configLegal s.cfg = true ∧ atOffset s addr 0x008 ∧
      s.moves = .host (.write addr .word4 v) :: rest :=
  ⟨sched (busy 0) [.host (.write 0x008 .word4 3)], 0x008, 3, [], legal_default, ⟨by decide, by decide⟩, rfl⟩

/-- EveryAcceptedWordCompletes, with an empty schedule and with the Core's turn in it. -/
theorem witness_EveryAcceptedWordCompletes :
    (configLegal (busy 0xFF).cfg = true ∧ (busy 0xFF).status.busy = true ∧ (busy 0xFF).due = some .core) ∧
    (sched (busy 0) [.core, .reset]).due = some .core := ⟨⟨legal_default, rfl, rfl⟩, rfl⟩

/-- FailingCommandWritesOnlyStatus: `GF_DIV` by 0 (test_gfDiv_by_zero), and the fatal code. -/
theorem witness_FailingCommandWritesOnlyStatus :
    (∃ t, exec .gfDiv (args 5 0) = .next t ∧ t.errcode ≠ 0) ∧
    ∃ t, exec (.matMul 0 1 2) ready = .next t ∧ t.errcode ≠ 0 :=
  ⟨⟨_, rfl, by decide⟩, ⟨_, rfl, by decide⟩⟩

/-- A `CMD` write and the Core's turn, run from a state. -/
def handshake (s : State) (w : Word) : State := sched s [.host (.write 0x00C .word4 w), .core]

/-- HandshakeTellsAcceptance: a write that is accepted, and one that is dropped. -/
theorem witness_HandshakeTellsAcceptance :
    (ready.status.busy = false ∧ atOffset (handshake ready 0) 0x00C 0x00C ∧
      ∃ t, Host.Core.run Sys2Proof.core 2 (handshake ready 0) = .next t ∧ t.status.done = true) ∧
    (fatal.status.busy = false ∧ atOffset (handshake fatal 0) 0x00C 0x00C ∧
      ∃ t, Host.Core.run Sys2Proof.core 2 (handshake fatal 0) = .next t ∧ t.status.wdrop = true) :=
  ⟨⟨rfl, ⟨by decide, by decide⟩,
      exists_of_answer (f := fun t => t.status.done)
        (by decide +kernel : answer (Host.Core.run Sys2Proof.core 2 (handshake ready 0)) _ = some true)⟩,
    ⟨rfl, ⟨by decide, by decide⟩,
      exists_of_answer (f := fun t => t.status.wdrop)
        (by decide +kernel : answer (Host.Core.run Sys2Proof.core 2 (handshake fatal 0)) _ = some true)⟩⟩

/-- A `CODEC_NEW` in flight with the counts `(1, 1)`. -/
def codecNewBusy : State := { busy 0x20 with arg0 := 1, arg1 := 1 }

/-- StickyFlags: each clause: a step that is no reset from a ready, a configured, a fatal block; one that sets
`READY`; one that sets `CFG_VALID`; one that sets `FATAL`. -/
theorem witness_StickyFlags :
    (∃ t, step (sched code21 [.host (.read 0 .word4)]) = .next t ∧ code21.status.ready = true ∧
      code21.status.cfgValid = true) ∧
    (∃ t, step (sched fatal [.host (.read 0 .word4)]) = .next t ∧ fatal.status.fatal = true) ∧
    (∃ t, step State.reset = .next t ∧ State.reset.status.ready = false ∧ t.status.ready = true) ∧
    (∃ t, step (sched codecNewBusy [.core]) = .next t ∧ t.status.cfgValid = true) ∧
    (∃ t, step (sched (busy 0x2413) [.core]) = .next t ∧ t.status.fatal = true) := by
  refine ⟨?_, ?_, ?_, ?_, ?_⟩
  · obtain ⟨t, h, _⟩ := exists_step (s := sched code21 [.host (.read 0 .word4)]) legal_default rfl
      (f := fun t => t.status.ready) (x := true) (by decide)
    exact ⟨t, h, rfl, rfl⟩
  · obtain ⟨t, h, _⟩ := exists_step (s := sched fatal [.host (.read 0 .word4)]) legal_default rfl
      (f := fun t => t.status.ready) (x := true) (by decide)
    exact ⟨t, h, rfl⟩
  · obtain ⟨t, h, h'⟩ := exists_of_answer (o := step State.reset) (f := fun t => t.status.ready) (x := true)
      (by decide +kernel)
    exact ⟨t, h, rfl, h'⟩
  · exact exists_step (s := sched codecNewBusy [.core]) legal_default rfl (f := fun t => t.status.cfgValid)
      (by decide +kernel)
  · exact exists_step (s := sched (busy 0x2413) [.core]) legal_default rfl (f := fun t => t.status.fatal) (by decide)

/-- FatalBlockAcceptsNothingUntilReset. -/
theorem witness_FatalBlockAcceptsNothingUntilReset :
    (sched fatal [.host (.write 0x00C .word4 0)]).Inv ∧ fatal.status.fatal = true ∧
      ∃ t, step (sched fatal [.host (.write 0x00C .word4 0)]) = .next t ∧ t.status.wdrop = true :=
  ⟨sched_inv fatal_inv _, rfl, exists_step (s := sched fatal [.host (.write 0x00C .word4 0)]) legal_default rfl
    (f := fun t => t.status.wdrop) (by decide)⟩

/-- InterruptRisesOnlyAtCompletionOrEnable: at a completion, and at a `CTRL` write. -/
theorem witness_InterruptRisesOnlyAtCompletionOrEnable :
    (∃ s t, step s = .next t ∧ s.irq = false ∧ t.irq = true ∧ s.due = some .core) ∧
    (∃ s t, step s = .next t ∧ s.irq = false ∧ t.irq = true ∧ s.due = some (.host (.write 0x008 .word4 1))) := by
  refine ⟨?_, ?_⟩
  · obtain ⟨t, h, h'⟩ := exists_step (s := sched { busy 0 with irqEn := true } [.core]) legal_default rfl
      (f := State.irq) (x := true) (by decide)
    exact ⟨_, t, h, by decide, h', rfl⟩
  · obtain ⟨t, h, h'⟩ := exists_step (s := sched (ready.complete .ok) [.host (.write 0x008 .word4 1)]) legal_default
      rfl (f := State.irq) (x := true) (by decide)
    exact ⟨_, t, h, by decide, h', rfl⟩

/-- ResultWrittenOnlyByFieldCommands: a field command that changes `RESULT`, and a reset that does. -/
theorem witness_ResultWrittenOnlyByFieldCommands :
    (∃ t, step (sched { busy 0x01 with arg0 := 0x53 } [.core]) = .next t ∧ t.result = 0x53) ∧
    (∃ t, step (sched { ready with result := 0x53 } [.reset]) = .next t ∧ t.result = 0) :=
  ⟨exists_step (s := sched { busy 0x01 with arg0 := 0x53 } [.core]) legal_default rfl (f := fun t => t.result)
      (by decide),
    exists_step (s := sched { ready with result := 0x53 } [.reset]) legal_default rfl (f := fun t => t.result)
      (by decide)⟩

/-- CommandsWriteOnlyTheirOwnState: commands that succeed, of each kind. -/
theorem witness_CommandsWriteOnlyTheirOwnState :
    (∃ t, exec .gfAdd (args 1 2) = .next t ∧ t.errcode = 0) ∧
    (∃ t, exec (.matGen 3) (args 1 1) = .next t ∧ t.errcode = 0) ∧
    (∃ t, exec .codecNew (args 1 1) = .next t ∧ t.errcode = 0) ∧
    (∃ t, exec .reconstruct code21 = .next t ∧ t.errcode = 0) :=
  ⟨exists_of_answer (f := fun t => t.errcode) (by decide), exists_of_answer (f := fun t => t.errcode) (by decide +kernel),
    exists_of_answer (f := fun t => t.errcode) (by decide +kernel),
    exists_of_answer (f := fun t => t.errcode) (by decide +kernel)⟩

/-- GfMulWritesTableProduct, GfDivWritesTableQuotient, GfInvWritesTableInverse: zero and non-zero operands of the
table commands. -/
theorem witness_field_operands :
    (0x8E : Byte) = BitVec.ofNat 8 (args 0x102 0x38E).arg1.toNat ∧ (0x8E : Byte) ≠ 0 ∧
      (0 : Byte) = BitVec.ofNat 8 (args 5 0x100).arg1.toNat ∧ (0x02 : Byte) = BitVec.ofNat 8 (args 0x102 0).arg0.toNat ∧
      (0 : Byte) = BitVec.ofNat 8 (args 0x100 0).arg0.toNat := by decide

/-- LutInitFillsTheTables: LutInit due on a block that is not ready, and on one that is. -/
theorem witness_LutInitFillsTheTables :
    (configLegal (sched State.reset [.lutInit]).cfg = true ∧ (sched State.reset [.lutInit]).moves = .lutInit :: [] ∧
      State.reset.status.ready = false) ∧
    (configLegal (sched ready [.lutInit]).cfg = true ∧ (sched ready [.lutInit]).moves = .lutInit :: [] ∧
      ready.status.ready = true) := ⟨⟨legal_default, rfl, rfl⟩, ⟨legal_default, rfl, rfl⟩⟩

/-- TableProductIsFieldProduct, InverseIsTheOnlyInverse, FieldLaws, GeneratorTopIsIdentity: a ready block that meets
the invariant, with inverses that exist. -/
theorem witness_ready_field :
    ready.Inv ∧ ready.status.ready = true ∧ ready.inverse 0x02 = .ok 0x8E ∧ ready.inverse 0xFF = .ok 0xFD :=
  ⟨ready_inv, rfl, by rfl, by rfl⟩

/-- MatGenWritesTheGenerator: the counts `(255, 1)` and `(1, 255)`. -/
theorem witness_MatGenWritesTheGenerator :
    (255 = (args 255 1).arg0.toNat ∧ 1 = (args 255 1).arg1.toNat ∧ 1 ≤ 255 ∧ 1 ≤ 1 ∧ 255 + 1 ≤ 256) ∧
    (1 = (args 1 255).arg0.toNat ∧ 255 = (args 1 255).arg1.toNat ∧ 1 + 255 ≤ 256) := by decide

/-- MatSubWritesTheRows: one row taken from a `4 × 2` matrix, its last one. -/
theorem witness_MatSubWritesTheRows :
    let s := put (withMat (args 1 0) 0 4 2 g22) 0x1000 [0x03]
    1 = s.arg0.toNat ∧ 2 = s.cols 0 ∧ 1 ≤ s.rows 0 ∧ s.rows 0 ≤ 256 ∧
      ∀ j < 1, (s.byte (0x1000 + j)).toNat < s.rows 0 := by decide +kernel

/-- MatInvWritesTheInverse. -/
theorem witness_MatInvWritesTheInverse :
    let s := withMat ready 1 2 2 [0x01, 0x02, 0x03, 0x04]
    2 = s.rows 1 ∧ s.cols 1 = 2 ∧ s.gjInvert 2 (s.readMat 1) = some [[0x02, 0x01], [0x8F, 0x8E]] := by decide +kernel

/-- MatMulWritesTheProduct: the largest and the smallest dimensions. -/
theorem witness_MatMulWritesTheProduct :
    (let s := withMat (withMat ready 1 256 256 []) 2 256 1 []
    256 = s.rows 1 ∧ 256 = s.cols 1 ∧ 256 = s.rows 2 ∧ 1 = s.cols 2) ∧
    (let s := withMat ready 1 1 1 []
    1 = s.rows 1 ∧ 1 = s.cols 1) := by decide

theorem invalidSource_iff (s : State) (a : MatSel) : invalidSource s a ↔ s.validMat a = false := by
  have h := s.validMat_iff a
  unfold invalidSource
  rw [← Bool.not_eq_true, h]
  omega

/-- MatCommandErrors, clause by clause: counts just out of range, a source invalid by each of its four bounds, one at
its upper bounds that is valid and not square, a bad index, a singular source, disagreeing inner dimensions. -/
theorem witness_MatCommandErrors :
    256 < (args 200 57).arg0.toNat + (args 200 57).arg1.toNat ∧ (args 0 4).arg0.toNat = 0 ∧
    (args 4 0).arg1.toNat = 0 ∧ 256 < (args 257 0).arg0.toNat ∧
    (∀ d ∈ [(0, 1), (257, 1), (1, 0), (1, 257)], invalidSource (withMat ready 1 d.1 d.2 []) 1) ∧
    (¬ invalidSource (withMat ready 1 256 255 []) 1 ∧
      (withMat ready 1 256 255 []).rows 1 ≠ (withMat ready 1 256 255 []).cols 1) ∧
    (let s := put (withMat (args 1 0) 0 4 2 g22) 0x1000 [0x04]
    ¬ invalidSource s 0 ∧ 1 ≤ s.arg0.toNat ∧ s.arg0.toNat ≤ 256 ∧ s.rows 0 ≤ (s.byte (0x1000 + 0)).toNat) ∧
    (let s := withMat ready 1 1 1 [0x00]
    ¬ invalidSource s 1 ∧ s.rows 1 = s.cols 1 ∧ s.gjInvert (s.rows 1) (s.readMat 1) = none) ∧
    (withMat (withMat ready 1 2 3 []) 2 2 2 []).cols 1 ≠ (withMat (withMat ready 1 2 3 []) 2 2 2 []).rows 2 := by
  simp only [invalidSource_iff]
  decide +kernel

/-- GaussJordanInverts: an invertible and a singular matrix. -/
theorem witness_GaussJordanInverts :
    ready.Inv ∧ ready.status.ready = true ∧ ready.gjInvert 1 [[0x03]] = some [[0xF4]] ∧
      ready.gjInvert 2 [[0x01, 0x01], [0x01, 0x01]] = none :=
  ⟨ready_inv, rfl, by decide +kernel, by decide +kernel⟩

/-- VandermondeRowsArePowers: the last element of the largest matrix; R163's own example `gpow(2, 8) = 0x1D`. -/
theorem witness_VandermondeRowsArePowers :
    ready.Inv ∧ ready.status.ready = true ∧ 256 ≤ 256 ∧ 255 < 256 ∧ power ready 2 8 = 0x1D :=
  ⟨ready_inv, rfl, le_rfl, by decide, by decide +kernel⟩

/-- GeneratorFollowsThePoints holds of `G(2,2)` as V5 writes it: its last row maps the points `0, 1` to the point 3. -/
theorem test_generator_points :
    (fieldSum 2 fun j => ready.mul (g22.getD (3 * 2 + j) 0) (power ready (BitVec.ofNat 8 j) 1)) = 3 := by
  decide +kernel

/-- GeneratorTopIsIdentity, AnyGeneratorRowsAreInvertible, GeneratorFollowsThePoints: the counts `(255, 1)`; two rows of three for `(2, 1)`. -/
theorem witness_generator :
    ready.Inv ∧ ready.status.ready = true ∧ 1 ≤ 255 ∧ 255 + 1 ≤ 256 ∧
      [1, 2].length = 2 ∧ [1, 2].Nodup ∧ (∀ r ∈ [1, 2], r < 2 + 1) :=
  ⟨ready_inv, rfl, by decide, by decide, rfl, by decide, by decide⟩

/-- CodecNewConfigures: the counts `(1, 255)`. -/
theorem witness_CodecNewConfigures :
    1 = (args 1 255).arg0.toNat ∧ 255 = (args 1 255).arg1.toNat ∧ 1 + 255 ≤ 256 := by decide

/-- EncodeWritesTheParity. -/
theorem witness_EncodeWritesTheParity :
    let s := { code21 with arg0 := 2 }
    s.ConfigOk ∧ s.status.cfgValid = true ∧ s.arg0.toNat = s.k ∧ 1 ≤ 2 ∧ 2 ≤ s.cfg.shardMaxLen ∧
      ∀ j < s.k, s.len j = 2 :=
  ⟨code21_inv.config.congr rfl rfl rfl, rfl, rfl, by decide, by decide, by decide⟩

/-- ReconstructWritesTheMissingShards, on R206's example. -/
theorem witness_ReconstructWritesTheMissingShards :
    code21.ConfigOk ∧ code21.status.cfgValid = true ∧ code21.arg0.toNat = code21.n ∧
      (List.range code21.n).filter code21.isPresent = [1, 2] ∧ code21.k ≤ [1, 2].length ∧
      [1, 2].take code21.k = [1, 2] ∧ 1 ≤ 2 ∧ 2 ≤ code21.cfg.shardMaxLen ∧ (∀ x ∈ [1, 2], code21.len x = 2) ∧
      code21.gjInvert code21.k (code21.readGen.submatrix code21.k [1, 2]) = some [[0xF5, 0xF4], [0x01, 0x00]] :=
  ⟨code21_inv.config, rfl, rfl, by decide, by decide, rfl, by decide, by decide, by decide, by decide +kernel⟩

/-- CodecCommandErrors, clause by clause, at the boundaries of V6, V8 and V9. -/
theorem witness_CodecCommandErrors :
    (args 0 1).arg0.toNat < 1 ∧ (args 1 0).arg1.toNat < 1 ∧
    256 < (args 256 1).arg0.toNat + (args 256 1).arg1.toNat ∧ ready.status.cfgValid = false ∧
    (code21.status.cfgValid = true ∧ code21.arg0.toNat ≠ code21.k) ∧
    (let s := { code21 with arg0 := 2 }
    s.status.cfgValid = true ∧ s.arg0.toNat ≠ s.n) ∧
    (let s := { code21 with arg0 := 2, slotLen := code21.slotLen.set 1 3 }
    s.status.cfgValid = true ∧ s.arg0.toNat = s.k ∧ 1 < s.k ∧ s.len 1 ≠ s.len 0) ∧
    (let s := { code21 with arg0 := 2, slotLen := (code21.slotLen.set 0 4097).set 1 4097 }
    s.arg0.toNat = s.k ∧ 0 < s.k ∧ s.cfg.shardMaxLen < s.len 0) ∧
    (let s := { code21 with present := ready.present.set 0 0b100 }
    s.status.cfgValid = true ∧ s.arg0.toNat = s.n ∧ ((List.range s.n).filter s.isPresent).length < s.k) ∧
    (let s := { code21 with slotLen := code21.slotLen.set 2 0 }
    s.status.cfgValid = true ∧ s.arg0.toNat = s.n ∧ s.k ≤ ((List.range s.n).filter s.isPresent).length ∧
      2 ∈ (List.range s.n).filter s.isPresent ∧ s.len 2 = 0) := by decide

/-- The data shards of V8's first row. -/
def data21 (i c : Nat) : Byte := (([[0x01, 0x02], [0x03, 0x04]] : List (List Byte)).getD i []).getD c 0

/-- ReconstructRestoresEveryShard, on V9's first row: slot 0 is missing, the present slots hold the encoding. -/
theorem witness_ReconstructRestoresEveryShard :
    code21.Inv ∧ code21.GenOk ∧ code21.status.cfgValid = true ∧ code21.status.ready = true ∧
      code21.arg0.toNat = code21.n ∧ code21.k ≤ ((List.range code21.n).filter code21.isPresent).length ∧
      2 ≤ code21.cfg.shardMaxLen ∧
      ∀ slot < code21.n, code21.isPresent slot = true →
        code21.len slot = 2 ∧ ∀ c < 2, code21.shard slot c = encodedByte code21 data21 slot c :=
  ⟨code21_inv, code21_gen, rfl, rfl, rfl, by decide, by decide, by unfold encodedByte; decide +kernel⟩

/-- One host access due, at an offset of the window (`BASE` is 0 in these states). -/
def readAt (s : State) (off : Nat) (size : Size) : State := sched s [.host (.read (BitVec.ofNat 32 off) size)]
def writeAt (s : State) (off : Nat) (size : Size) (v : Word) : State :=
  sched s [.host (.write (BitVec.ofNat 32 off) size v)]

/-- BusErrorChangesNothing, clause by clause: misaligned, narrow, and the first and last byte of each unmapped range
of R60; a read due, and a write due. -/
theorem witness_BusErrorChangesNothing :
    configLegal ready.cfg = true ∧
    (∀ off ∈ [0x1300, 0xFFFF, 0x60000, 0xFFFFFF, 0x1100000, 0x1FFFFFF],
      illegalAccess ready.cfg off Size.byte1.bytes ∧ atOffset (readAt ready off .byte1) (BitVec.ofNat 32 off) off ∧
        (readAt ready off .byte1).moves = .host (.read (BitVec.ofNat 32 off) .byte1) :: []) ∧
    (illegalAccess ready.cfg 0x1000002 Size.word4.bytes ∧ atOffset (writeAt ready 0x1000002 .word4 1) 0x1000002 0x1000002 ∧
      (writeAt ready 0x1000002 .word4 1).moves = .host (.write 0x1000002 .word4 1) :: []) ∧
    (illegalAccess ready.cfg 0xFFE Size.half2.bytes ∧ atOffset (readAt ready 0xFFE .half2) 0xFFE 0xFFE ∧
      (readAt ready 0xFFE .half2).moves = .host (.read 0xFFE .half2) :: []) := by
  refine ⟨legal_default, ?_⟩
  unfold illegalAccess unmapped atOffset
  decide

/-- ReadsHaveNoSideEffects, StoreThenLoadLittleEndian: the first and last byte of each writable window, a store and a
load due; the window's neighbours are in no writable window. -/
theorem witness_StoreThenLoadLittleEndian :
    (configLegal ready.cfg = true ∧ ready.status.busy = false) ∧
    (∀ off ∈ [0x1000, 0x10FF, 0x20000, 0x5FFFF, 0x1000000, 0x10FFFFF],
      writableByte ready.cfg off ∧ off % Size.byte1.bytes = 0 ∧
        (let s := sched ready [.host (.write (BitVec.ofNat 32 off) .byte1 0x1FF), .host (.read (BitVec.ofNat 32 off) .byte1)]
        atOffset s (BitVec.ofNat 32 off) off ∧ s.moves =
          .host (.write (BitVec.ofNat 32 off) .byte1 0x1FF) :: .host (.read (BitVec.ofNat 32 off) .byte1) :: []) ∧
        atOffset (readAt ready off .byte1) (BitVec.ofNat 32 off) off ∧ ¬ illegalAccess ready.cfg off Size.byte1.bytes) ∧
    (∀ off ∈ [0xFFF, 0x1100, 0x1FFFF, 0x60000, 0xFFFFFF, 0x1100000], ¬ writableByte ready.cfg off) := by
  refine ⟨⟨legal_default, rfl⟩, ?_⟩
  unfold writableByte illegalAccess unmapped atOffset
  decide

/-- RegisterWrites, RegistersReadTheirValue: the first and last register of each clause, written and read. -/
theorem witness_registers :
    (configLegal ready.cfg = true ∧ ready.status.busy = false) ∧
    ∀ off ∈ [0x014, 0x018, 0x01C, 0x020, 0x024, 0x040 + 4 * 0, 0x040 + 4 * 7, 0x080 + 8 * 0, 0x080 + 8 * 3, 0x084 + 8 * 0,
        0x084 + 8 * 3, 0x400 + 4 * 0, 0x400 + 4 * 255],
      atOffset (readAt ready off .word4) (BitVec.ofNat 32 off) off ∧
        (readAt ready off .word4).moves = .host (.read (BitVec.ofNat 32 off) .word4) :: [] ∧
        (writeAt ready off .word4 0xFFFFFFFF).moves = .host (.write (BitVec.ofNat 32 off) .word4 0xFFFFFFFF) :: [] := by
  refine ⟨⟨legal_default, rfl⟩, ?_⟩
  unfold atOffset
  decide

/-- ReadOnlyWritesAreIgnored: the first and last offset of each range of read-only and reserved locations, each a
legal access. -/
theorem witness_ReadOnlyWritesAreIgnored :
    (configLegal ready.cfg = true ∧ ready.status.busy = false) ∧
    ∀ off ∈ [0x000, 0x028, 0x02C, 0x03C, 0x060, 0x07C, 0x0A0, 0x3FC, 0x800, 0xFFC, 0x1100, 0x12FC, 0x10000, 0x1FFFC],
      ¬ illegalAccess ready.cfg off Size.word4.bytes ∧ atOffset (writeAt ready off .word4 1) (BitVec.ofNat 32 off) off ∧
        (writeAt ready off .word4 1).moves = .host (.write (BitVec.ofNat 32 off) .word4 1) :: [] := by
  refine ⟨⟨legal_default, rfl⟩, ?_⟩
  unfold illegalAccess unmapped atOffset
  decide

/-- AlwaysReadableRegisters: the constants, `STATUS`, `CTRL`, `CMD`, `ERRCODE` and the ends of the reserved ranges,
on a busy block. -/
theorem witness_AlwaysReadableRegisters :
    configLegal (busy 0).cfg = true ∧
    ∀ off ∈ [0x000, 0x004, 0x008, 0x00C, 0x010, 0x028, 0x02C, 0x03C, 0x060, 0x07C, 0x0A0, 0x3FC, 0x800, 0xFFC],
      atOffset (readAt (busy 0) off .word4) (BitVec.ofNat 32 off) off ∧ off % 4 = 0 ∧
        (readAt (busy 0) off .word4).moves = .host (.read (BitVec.ofNat 32 off) .word4) :: [] := by
  refine ⟨legal_default, ?_⟩
  unfold atOffset
  decide

/-- HostReadsTheTables: the first and last table entries, on a ready block that meets the invariant. -/
theorem witness_HostReadsTheTables :
    (∀ off, (readAt ready off .byte1).Inv) ∧ ready.status.ready = true ∧ ready.status.busy = false ∧
    ∀ i ∈ [0, 255], i < 256 ∧ atOffset (readAt ready (0x1100 + i) .byte1) (BitVec.ofNat 32 (0x1100 + i)) (0x1100 + i) ∧
      atOffset (readAt ready (0x1200 + i) .byte1) (BitVec.ofNat 32 (0x1200 + i)) (0x1200 + i) ∧
      (readAt ready (0x1100 + i) .byte1).moves = .host (.read (BitVec.ofNat 32 (0x1100 + i)) .byte1) :: [] := by
  refine ⟨fun _ => sched_inv ready_inv _, rfl, rfl, ?_⟩
  unfold atOffset
  decide

/-- A due access, and the marks it leaves. -/
def Marks (s : State) (a : Access) (l : List HostMark) : Prop :=
  (sched s [.host a]).due = some (.host a) ∧ ∃ t, step (sched s [.host a]) = .next t ∧ t.marks = l

theorem marks_of_answer {s : State} {a : Access} {l : List HostMark} (hl : configLegal s.cfg = true)
    (h : answer (hostStep a (sched s [])) (fun t => t.marks) = some l) : Marks s a l :=
  ⟨rfl, exists_step (s := sched s [.host a]) hl rfl h⟩

/-- HostFaultsAreMarked: a bus error; an unspecified read for each of its reasons (`RESULT` while busy, a table before
`READY`, a byte never written, a byte of `GEN` just outside the matrix). -/
theorem witness_HostFaultsAreMarked :
    (illegalAccess ready.cfg 0x1300 1 ∧ Marks ready (.read 0x1300 .byte1) [.busError]) ∧
    (unspecifiedData (busy 0) 0x014 4 ∧ Marks (busy 0) (.read 0x014 .word4) [.unspecifiedRead]) ∧
    (unspecifiedData State.reset 0x12FF 1 ∧ Marks State.reset (.read 0x12FF .byte1) [.unspecifiedRead]) ∧
    (unspecifiedData ready 0x1000000 2 ∧ Marks ready (.read 0x1000000 .half2) [.unspecifiedRead]) ∧
    (unspecifiedData code21 0x10006 1 ∧ Marks code21 (.read 0x10006 .byte1) [.unspecifiedRead]) := by
  unfold unspecifiedData reservedOffset holdsNoValue illegalAccess unmapped
  exact ⟨⟨by decide, marks_of_answer legal_default (by decide)⟩,
    ⟨by decide, marks_of_answer legal_default (by decide)⟩, ⟨by decide, marks_of_answer legal_default (by decide)⟩,
    ⟨by decide +kernel, marks_of_answer legal_default (by decide +kernel)⟩,
    ⟨by decide +kernel, marks_of_answer legal_default (by decide +kernel)⟩⟩

/-- HostFaultsAreMarked, the clauses that leave no mark and those of writes: a readable register while busy, the last
byte of the matrix in `GEN`, the last byte of the tables; a dropped write and an accepted one; a reset. -/
theorem witness_HostFaultsAreMarked_other :
    (¬ unspecifiedData (busy 0) 0x02C 4 ∧ Marks (busy 0) (.read 0x02C .word4) []) ∧
    (¬ unspecifiedData code21 0x10005 1 ∧ Marks code21 (.read 0x10005 .byte1) []) ∧
    (¬ unspecifiedData ready 0x12FF 1 ∧ Marks ready (.read 0x12FF .byte1) []) ∧
    Marks (busy 0) (.write 0x018 .word4 1) [.droppedWrite] ∧ Marks ready (.write 0x00C .word4 1) [] ∧
    (∃ t, step (sched ready [.reset]) = .next t ∧ t.marks = []) := by
  unfold unspecifiedData reservedOffset holdsNoValue
  exact ⟨⟨by decide, marks_of_answer legal_default (by decide)⟩,
    ⟨by decide +kernel, marks_of_answer legal_default (by decide +kernel)⟩,
    ⟨by decide +kernel, marks_of_answer legal_default (by decide +kernel)⟩,
    marks_of_answer legal_default (by decide), marks_of_answer legal_default (by decide),
    exists_step (s := sched ready [.reset]) legal_default rfl (f := fun t => t.marks) (by decide)⟩

/-- HostReadsComposeTheBytes: the last word of the tables of a ready block, the last byte of the window's memories, and a
byte beside the tables before `READY`. -/
theorem witness_HostReadsComposeTheBytes :
    (ready.status.busy = false ∧ ready.status.ready = true ∧ ¬ illegalAccess ready.cfg 0x12FC Size.word4.bytes ∧
      atOffset (readAt ready 0x12FC .word4) 0x12FC 0x12FC ∧ ¬ illegalAccess ready.cfg 0x10FFFFF Size.byte1.bytes) ∧
    (State.reset.status.busy = false ∧ ¬ illegalAccess State.reset.cfg 0x10FE Size.half2.bytes ∧
      atOffset (readAt State.reset 0x10FE .half2) 0x10FE 0x10FE) := by
  unfold illegalAccess unmapped atOffset
  decide

/-- The composition of R64 on the first word of `EXP` (V1: `0x0804_0201`). -/
theorem test_littleEndian : littleEndian (fun i => ready.byte (0x1100 + i)) 4 = 0x08040201 := by decide +kernel

/-- ResetEstablishesTheResetState, ReadyFollowsReset: a reset due while a command is in flight, and alone. -/
theorem witness_reset :
    (configLegal (sched (busy 0x21) [.reset]).cfg = true ∧ (sched (busy 0x21) [.reset]).moves = .reset :: []) ∧
      (busy 0x21).status.busy = true := ⟨⟨legal_default, rfl⟩, rfl⟩

/-- StepKeepsInv, StepKeepsGenerator: steps from states that meet the invariants: a ready block, a configured block.
-/
theorem witness_StepKeeps :
    (let s := sched ready [.host (.write 0x00C .word4 0x20)]
    s.Inv ∧ ∃ t, step s = .next t ∧ t.curCmd = 0x20) ∧
    (let s := sched code21 [.host (.write 0x1000000 .byte1 7)]
    s.Inv ∧ s.GenOk ∧ ∃ t, step s = .next t ∧ t.byte 0x1000000 = 7) :=
  ⟨⟨sched_inv ready_inv _, exists_step (s := sched ready [.host (.write 0x00C .word4 0x20)]) legal_default rfl
      (f := fun t => t.curCmd) (by decide)⟩,
    ⟨sched_inv code21_inv _, sched_gen code21_gen _,
      exists_step (s := sched code21 [.host (.write 0x1000000 .byte1 7)]) legal_default rfl
        (f := fun t => t.byte 0x1000000) (by decide +kernel)⟩⟩

end Sys2Proof.Tests
end

section
/-! The state's invariants and frames (10_state.md): what each agent's move can answer, what each update leaves
unchanged, and from these the statements about every step, every command and the registers. -/

namespace Sys2Proof.Machine

variable {s t u : State} {i : Instr}

/-! ## What each agent's move can answer -/

/-- The Core's turn changes nothing while idle; else it completes with an error, or completes a success
(40_control.md R112, R121). -/
theorem coreStep_completes (h : coreStep s = .next t) :
    (s.status.busy = false ∧ t = s) ∨
    (s.status.busy = true ∧ ∃ e, e ≠ .ok ∧ t = s.complete e) ∨
    (s.status.busy = true ∧ ∃ i u, decode s.curCmd = .command i ∧ s.Success i u ∧ t = u.complete .ok) := by
  rcases coreStep_cases h with hidle | ⟨hb, i, hd, hx⟩ | ⟨hb, -, rfl⟩
  · exact .inl hidle
  · rcases exec_cases hx with ⟨e, he, rfl⟩ | ⟨u, hu, rfl⟩
    · exact .inr (.inl ⟨hb, e, he, rfl⟩)
    · exact .inr (.inr ⟨hb, i, u, hd, hu, rfl⟩)
  · exact .inr (.inl ⟨hb, _, by decide, rfl⟩)

/-- A host access either touches the record of the run only, or is a write that is no bus error and has its effect. -/
theorem hostStep_effect {a : Access} (h : hostStep a s = .next t) :
    t = { s with responses := t.responses, marks := t.marks, draws := t.draws } ∨
    ∃ off size v, busError s.cfg off size = false ∧ t = (s.writeEffect off size v).respond .writeOk := by
  rcases hostStep_cases h with ⟨addr, size, -, -, rfl⟩ | ⟨addr, size, v, -, -, rfl⟩
  · exact .inl (s.hostRead_frame _ _)
  · cases he : busError s.cfg (offsetOf s.cfg addr) size with
    | true => rw [s.hostWrite_of_error v he]; exact .inl rfl
    | false => exact .inr ⟨_, size, v, he, s.hostWrite_of_ok v he⟩

theorem lutInitStep_of_ready (h : s.status.ready = true) : lutInitStep s = s := by simp [lutInitStep, h]

theorem lutInitStep_of_unready (h : s.status.ready = false) : lutInitStep s = s.fillTables := by
  simp [lutInitStep, h]

/-! ## What putting shards into slots leaves unchanged -/

section
variable (s : State) (len : Nat) (sh : List (Nat × List Byte))

@[simp] theorem State.putShards_cfg : (s.putShards len sh).cfg = s.cfg := by rw [s.putShards_frame]
@[simp] theorem State.putShards_status : (s.putShards len sh).status = s.status := by rw [s.putShards_frame]
@[simp] theorem State.putShards_irqEn : (s.putShards len sh).irqEn = s.irqEn := by rw [s.putShards_frame]
@[simp] theorem State.putShards_result : (s.putShards len sh).result = s.result := by rw [s.putShards_frame]
@[simp] theorem State.putShards_arg0 : (s.putShards len sh).arg0 = s.arg0 := by rw [s.putShards_frame]
@[simp] theorem State.putShards_arg1 : (s.putShards len sh).arg1 = s.arg1 := by rw [s.putShards_frame]
@[simp] theorem State.putShards_present : (s.putShards len sh).present = s.present := by rw [s.putShards_frame]
@[simp] theorem State.putShards_cfgK : (s.putShards len sh).cfgK = s.cfgK := by rw [s.putShards_frame]
@[simp] theorem State.putShards_cfgM : (s.putShards len sh).cfgM = s.cfgM := by rw [s.putShards_frame]
@[simp] theorem State.putShards_matRows : (s.putShards len sh).matRows = s.matRows := by rw [s.putShards_frame]
@[simp] theorem State.putShards_matCols : (s.putShards len sh).matCols = s.matCols := by rw [s.putShards_frame]
end

/-! ## Each memory keeps to its own window (20_memory.md R60) -/

/-- A matrix command's destination lies in the matrix window. -/
theorem State.byte_writeMat_outside_window (s : State) (d : MatSel) {rows cols : Nat} (R : Mat) (hr : rows ≤ 256)
    (hc : cols ≤ 256) {a : Nat} (h : a < 0x20000 ∨ 0x60000 ≤ a) : (s.writeMat d rows cols R).byte a = s.byte a := by
  have hd := matBase_range d
  have hsize := matrix_size_le hr hc
  exact s.byte_writeMat_outside d rows cols R a (by omega)

/-- The configured matrix lies in `GEN`. -/
theorem generator_size_le {k m : Nat} (h : k + m ≤ 256) : (k + m) * k ≤ 0x10000 :=
  matrix_size_le h (by omega)

/-- CODEC_NEW writes `GEN` only. -/
theorem State.byte_configure_outside_gen (s : State) {k m : Nat} (R : Mat) (hn : k + m ≤ 256) {a : Nat}
    (h : a < 0x10000 ∨ 0x20000 ≤ a) :
    ((s.store genBase (R.bytes (k + m) k)).configure k m).byte a = s.byte a := by
  have hsize := generator_size_le hn
  have hout : a < genBase ∨ genBase + (R.bytes (k + m) k).length ≤ a := by
    rw [Mat.length_bytes]
    simp only [genBase]
    omega
  rw [State.byte_of_outside_gen _ h, State.byte_of_outside_gen _ h, State.configure_mem, State.store_mem,
    Memory.read_store_outside _ _ _ _ hout, State.configure_memEra, State.store_memEra]

/-- Shards lie above every other memory. -/
theorem State.byte_putShards_below (s : State) (len : Nat) (sh : List (Nat × List Byte)) {a : Nat}
    (h : a < 0x1000000) : (s.putShards len sh).byte a = s.byte a :=
  s.byte_putShards_outside len sh a fun p _ => .inl (by simp only [State.shardBase]; omega)

/-! ## What a successful command leaves unchanged -/

/-- Only CODEC_NEW changes a flag, `CFG_VALID`. -/
theorem State.Success.status_eq (h : s.Success i u) :
    u.status = s.status ∨ (i = .codecNew ∧ u.status = s.status.onConfigured) := by
  cases h with
  | nop => exact .inl rfl
  | field r hi => exact .inl rfl
  | matrix d rows cols R hr hc hi => exact .inl rfl
  | configure k m hk hm hn => exact .inr ⟨rfl, rfl⟩
  | shards len sh hv hl hsh hnd hi => exact .inl (s.putShards_status len sh)

/-- Only the field commands write `RESULT` (10_state.md R36). -/
theorem State.Success.result_eq (h : s.Success i u) :
    u.result = s.result ∨ i = .gfAdd ∨ i = .gfMul ∨ i = .gfDiv ∨ i = .gfInv := by
  cases h with
  | nop => exact .inl rfl
  | field r hi => exact .inr hi
  | matrix d rows cols R hr hc hi => exact .inl rfl
  | configure k m hk hm hn => exact .inl rfl
  | shards len sh hv hl hsh hnd hi => exact .inl (s.putShards_result len sh)

/-- No command writes the operand registers, the presence map, `CTRL` or the parameters (10_state.md R33, R37,
R40). -/
theorem State.Success.registers_eq (h : s.Success i u) :
    u.arg0 = s.arg0 ∧ u.arg1 = s.arg1 ∧ u.present = s.present ∧ u.irqEn = s.irqEn ∧ u.cfg = s.cfg := by
  cases h with
  | nop => exact ⟨rfl, rfl, rfl, rfl, rfl⟩
  | field r hi => exact ⟨rfl, rfl, rfl, rfl, rfl⟩
  | matrix d rows cols R hr hc hi => exact ⟨rfl, rfl, rfl, rfl, rfl⟩
  | configure k m hk hm hn => exact ⟨rfl, rfl, rfl, rfl, rfl⟩
  | shards len sh hv hl hsh hnd hi => simp

/-- No command writes `IDX` or the tables (10_state.md R44, R45). -/
theorem State.Success.byte_below_gen (h : s.Success i u) {a : Nat} (ha : a < 0x10000) : u.byte a = s.byte a := by
  cases h with
  | nop => rfl
  | field r hi => rfl
  | matrix d rows cols R hr hc hi => exact s.byte_writeMat_outside_window d R hr hc (.inl (by omega))
  | configure k m hk hm hn => exact s.byte_configure_outside_gen _ hn (.inl ha)
  | shards len sh hv hl hsh hnd hi => exact s.byte_putShards_below len sh (by omega)

/-- Only CODEC_NEW writes the configuration and `GEN` (10_state.md R38, R46). -/
theorem State.Success.config_eq (h : s.Success i u) (hne : i ≠ .codecNew) :
    u.cfgK = s.cfgK ∧ u.cfgM = s.cfgM ∧ u.status.cfgValid = s.status.cfgValid ∧
      ∀ a, 0x10000 ≤ a → a < 0x20000 → u.byte a = s.byte a := by
  cases h with
  | nop => exact ⟨rfl, rfl, rfl, fun _ _ _ => rfl⟩
  | field r hi => exact ⟨rfl, rfl, rfl, fun _ _ _ => rfl⟩
  | matrix d rows cols R hr hc hi =>
    exact ⟨rfl, rfl, rfl, fun a _ ha => s.byte_writeMat_outside_window d R hr hc (.inl ha)⟩
  | configure k m hk hm hn => exact absurd rfl hne
  | shards len sh hv hl hsh hnd hi =>
    exact ⟨by simp, by simp, by simp, fun a _ ha => s.byte_putShards_below len sh (by omega)⟩

/-- Only the matrix commands write the work matrices (10_state.md R41, R47). -/
theorem State.Success.matrices_eq (h : s.Success i u)
    (hne : (∀ d, i ≠ .matGen d) ∧ (∀ d a, i ≠ .matSub d a) ∧ (∀ d a, i ≠ .matInv d a) ∧
      ∀ d a b, i ≠ .matMul d a b) :
    u.matRows = s.matRows ∧ u.matCols = s.matCols ∧ ∀ a, 0x20000 ≤ a → a < 0x60000 → u.byte a = s.byte a := by
  cases h with
  | nop => exact ⟨rfl, rfl, fun _ _ _ => rfl⟩
  | field r hi => exact ⟨rfl, rfl, fun _ _ _ => rfl⟩
  | matrix d rows cols R hr hc hi =>
    obtain ⟨hgen, hsub, hinv, hmul⟩ := hne
    rcases hi with hi | ⟨a, hi⟩ | ⟨a, hi⟩ | ⟨a, b, hi⟩
    · exact absurd hi (hgen d)
    · exact absurd hi (hsub d a)
    · exact absurd hi (hinv d a)
    · exact absurd hi (hmul d a b)
  | configure k m hk hm hn => exact ⟨rfl, rfl, fun a ha _ => s.byte_configure_outside_gen _ hn (.inr ha)⟩
  | shards len sh hv hl hsh hnd hi =>
    exact ⟨by simp, by simp, fun a _ ha => s.byte_putShards_below len sh (by omega)⟩

/-- Only ENCODE and RECONSTRUCT write the shards and their lengths (10_state.md R42, R48). -/
theorem State.Success.shards_eq (h : s.Success i u) (he : i ≠ .encode) (hr : i ≠ .reconstruct) :
    u.slotLen = s.slotLen ∧ ∀ a, 0x1000000 ≤ a → u.byte a = s.byte a := by
  cases h with
  | nop => exact ⟨rfl, fun _ _ => rfl⟩
  | field r hi => exact ⟨rfl, fun _ _ => rfl⟩
  | matrix d rows cols R hrows hcols hi =>
    exact ⟨rfl, fun a ha => s.byte_writeMat_outside_window d R hrows hcols (.inr (by omega))⟩
  | configure k m hk hm hn => exact ⟨rfl, fun a ha => s.byte_configure_outside_gen _ hn (.inr (by omega))⟩
  | shards len sh hv hl hsh hnd hi => exact absurd hi (not_or.2 ⟨he, hr⟩)

/-- Settles O18: an error writes the completion status alone, and a success keeps to its own state. -/
theorem commandsWriteOnlyTheirOwnState : Obligations.CommandsWriteOnlyTheirOwnState := by
  intro i s t h
  rcases exec_cases h with ⟨e, -, rfl⟩ | ⟨u, hu, rfl⟩
  · exact ⟨⟨rfl, rfl, rfl, rfl, rfl⟩, fun _ _ _ => rfl, fun _ => ⟨rfl, rfl, rfl, fun _ _ _ => rfl⟩,
      fun _ => ⟨rfl, rfl, fun _ _ _ => rfl⟩, fun _ _ => ⟨rfl, fun _ _ => rfl⟩⟩
  · exact ⟨hu.registers_eq, fun a _ ha => hu.byte_below_gen (by omega), hu.config_eq, hu.matrices_eq, hu.shards_eq⟩

/-! ## The flags and `RESULT` over a step -/

/-- No host write changes `RESULT`, `READY`, `CFG_VALID` or `FATAL` (10_state.md R27, R30, R31, R36). -/
theorem State.writeEffect_keeps (s : State) (off : Nat) (size : Size) (v : Word) :
    (s.writeEffect off size v).result = s.result ∧
    (s.writeEffect off size v).status.ready = s.status.ready ∧
    (s.writeEffect off size v).status.cfgValid = s.status.cfgValid ∧
    (s.writeEffect off size v).status.fatal = s.status.fatal := by
  rcases s.writeEffect_cases off size v with ⟨-, h⟩ | ⟨-, -, h⟩ | ⟨-, -, h⟩ | ⟨-, -, -, h⟩ | ⟨-, -, -, -, h⟩ |
    ⟨-, -, h⟩ | ⟨-, -, -, h⟩ <;> rw [h]
  iterate 4 · exact ⟨rfl, rfl, rfl, rfl⟩
  · rw [s.writeReg_frame]; exact ⟨rfl, rfl, rfl, rfl⟩
  iterate 2 · exact ⟨rfl, rfl, rfl, rfl⟩

/-- No host access changes `RESULT`, `READY`, `CFG_VALID` or `FATAL`. -/
theorem hostStep_keeps {a : Access} (h : hostStep a s = .next t) :
    t.result = s.result ∧ t.status.ready = s.status.ready ∧ t.status.cfgValid = s.status.cfgValid ∧
      t.status.fatal = s.status.fatal := by
  rcases hostStep_effect h with h | ⟨off, size, v, -, rfl⟩
  · rw [h]; exact ⟨rfl, rfl, rfl, rfl⟩
  · exact s.writeEffect_keeps off size v

/-- LutInit changes no flag but `READY`, and not `RESULT` (41_field.md R134). -/
theorem lutInitStep_keeps (s : State) :
    (lutInitStep s).result = s.result ∧ (lutInitStep s).status.cfgValid = s.status.cfgValid ∧
      (lutInitStep s).status.fatal = s.status.fatal ∧ (lutInitStep s).status.ready = true := by
  cases hr : s.status.ready with
  | true => rw [lutInitStep_of_ready hr]; exact ⟨rfl, rfl, rfl, hr⟩
  | false => rw [lutInitStep_of_unready hr]; exact ⟨rfl, rfl, rfl, rfl⟩

/-- The Core keeps `READY`, and what it does to `CFG_VALID` and `FATAL` (10_state.md R30, R31; 40_control.md R113). -/
theorem coreStep_flags (h : coreStep s = .next t) :
    t.status.ready = s.status.ready ∧
    (t.status.cfgValid = s.status.cfgValid ∨
      (t.status.cfgValid = true ∧ s.status.busy = true ∧ decode s.curCmd = .command .codecNew ∧ t.errcode = 0)) ∧
    (t.status.fatal = s.status.fatal ∨ (t.status.fatal = true ∧ s.status.busy = true ∧ t.errcode = 0x07)) := by
  rcases coreStep_completes h with ⟨-, rfl⟩ | ⟨hb, e, -, rfl⟩ | ⟨hb, i, u, hd, hu, rfl⟩
  · exact ⟨rfl, .inl rfl, .inl rfl⟩
  · refine ⟨rfl, .inl rfl, ?_⟩
    by_cases he : e = .dimensionMismatch
    · subst he; exact .inr ⟨by simp, hb, rfl⟩
    · have hcode : (e.code == 0x07) = false := beq_eq_false_iff_ne.2 (mt e.code_eq_seven.1 he)
      exact .inl (by rw [State.complete_status, Status.onComplete_fatal, hcode, Bool.or_false])
  · rcases hu.status_eq with hst | ⟨rfl, hst⟩
    · exact ⟨by simp [hst], .inl (by simp [hst]), .inl (by simp [hst])⟩
    · exact ⟨by simp [hst], .inr ⟨by simp [hst], hb, hd, rfl⟩, .inl (by simp [hst])⟩

/-- Settles O14, by the move that is due: the host keeps all three flags, LutInit sets `READY`, the Core the others. -/
theorem stickyFlags : Obligations.StickyFlags := by
  intro s t h hreset
  rcases step_cases h with ⟨-, ⟨-, rfl⟩ | ⟨move, hd, ht⟩⟩
  · simp_all
  · cases move with
    | host a =>
      obtain ⟨-, hr, hc, hf⟩ := hostStep_keeps ht
      simp_all
    | core =>
      obtain ⟨hr, hc, hf⟩ := coreStep_flags ht
      refine ⟨hr.trans, fun h => hc.elim (·.trans h) (·.1), fun h => hf.elim (·.trans h) (·.1), ?_, ?_, ?_⟩
      · intro h0 h1
        exact Bool.noConfusion (h1.symm.trans (hr.trans h0))
      · intro h0 h1
        rcases hc with hc | ⟨-, hcause⟩
        · exact Bool.noConfusion (h1.symm.trans (hc.trans h0))
        · exact ⟨hd, hcause⟩
      · intro h0 h1
        rcases hf with hf | ⟨-, hcause⟩
        · exact Bool.noConfusion (h1.symm.trans (hf.trans h0))
        · exact ⟨hd, hcause⟩
    | lutInit =>
      obtain rfl := Host.Outcome.next.inj ht
      obtain ⟨-, hc, hf, hr⟩ := lutInitStep_keeps { s with moves := s.moves.tail }
      simp_all
    | reset => exact absurd hd hreset

/-- The Core changes `RESULT` only at the success of a field command (10_state.md R36). -/
theorem coreStep_result (h : coreStep s = .next t) (hne : t.result ≠ s.result) :
    s.status.busy = true ∧ t.errcode = 0 ∧
      (decode s.curCmd = .command .gfAdd ∨ decode s.curCmd = .command .gfMul ∨
        decode s.curCmd = .command .gfDiv ∨ decode s.curCmd = .command .gfInv) := by
  rcases coreStep_completes h with ⟨-, rfl⟩ | ⟨-, e, -, rfl⟩ | ⟨hb, i, u, hd, hu, rfl⟩
  · exact absurd rfl hne
  · exact absurd rfl hne
  · rcases hu.result_eq with hres | hfield
    · exact absurd hres hne
    · exact ⟨hb, rfl, by simpa [hd] using hfield⟩

/-- Settles O17, by the move that is due: neither the host nor LutInit writes `RESULT`. -/
theorem resultWrittenOnlyByFieldCommands : Obligations.ResultWrittenOnlyByFieldCommands := by
  intro s t h hne
  rcases step_cases h with ⟨-, ⟨-, rfl⟩ | ⟨move, hd, ht⟩⟩
  · exact absurd rfl hne
  · cases move with
    | host a => exact absurd (hostStep_keeps ht).1 hne
    | core =>
      have hcore := coreStep_result ht hne
      exact .inr ⟨hd, hcore⟩
    | lutInit =>
      obtain rfl := Host.Outcome.next.inj ht
      exact absurd (lutInitStep_keeps _).1 hne
    | reset => exact .inl hd

/-! ## The invariant through each update -/

/-- The invariant after an update of the flags that keeps `READY` and `CFG_VALID`, memory and configuration. -/
theorem State.Inv.of_status (h : s.Inv) (hc : t.cfg = s.cfg) (hm : t.mem = s.mem) (hk : t.cfgK = s.cfgK)
    (hp : t.cfgM = s.cfgM) (hr : t.status.ready = s.status.ready) (hv : t.status.cfgValid = s.status.cfgValid)
    (hst : t.StatusOk) : t.Inv :=
  ⟨by rw [hc]; exact h.legal, h.mem.congr hc hm, hst, h.config.congr hk hp hv, h.tables.congr hm hc hr⟩

/-- The invariant reads nothing of the other registers, the schedule and the record of the run. -/
theorem State.Inv.congr (h : s.Inv) (hc : t.cfg = s.cfg) (hm : t.mem = s.mem) (hk : t.cfgK = s.cfgK)
    (hp : t.cfgM = s.cfgM) (hst : t.status = s.status) (he : t.errcode = s.errcode) (hcur : t.curCmd = s.curCmd) :
    t.Inv :=
  h.of_status hc hm hk hp (by rw [hst]) (by rw [hst]) (h.status.congr he hcur hst)

/-- A store that keeps to the memories and off the tables. -/
theorem State.Inv.store (h : s.Inv) {a : Nat} {bs : List Byte}
    (hb : ∀ x, a ≤ x → x < a + bs.length → isMemoryByte s.cfg x = true)
    (hd : a + bs.length ≤ 0x1100 ∨ 0x1300 ≤ a) : (s.store a bs).Inv :=
  ⟨h.legal, h.mem.of_store a bs rfl rfl hb, h.status.congr rfl rfl rfl, h.config.congr rfl rfl rfl,
    h.tables.of_store a bs rfl rfl rfl hd⟩

/-- A host store into a writable window (20_memory.md R60). -/
theorem State.Inv.store_writable (h : s.Inv) {off : Nat} {size : Size} (v : Word)
    (hw : (regionOf s.cfg off).isWritable = true) (ha : off % size.bytes = 0) :
    (s.store off (splitLE size.bytes v)).Inv := by
  have hpos := size.bytes_pos
  have hbytes {x : Nat} := writable_bytes h.legal hw ha (x := x)
  have hlast := (hbytes (x := off + size.bytes - 1) (by omega) (by omega)).2
  have hfirst := (hbytes le_rfl (by omega)).2
  refine h.store (fun x h1 h2 => (hbytes h1 (by simpa using h2)).1) ?_
  rw [length_splitLE]
  have := size.bytes_cases
  omega

theorem State.Inv.writeCtrl (h : s.Inv) (v : Word) : (s.writeCtrl v).Inv := by
  obtain ⟨herr, hcode, hfatal, hbusy, hidle, hunready⟩ := h.status
  refine h.of_status rfl rfl rfl rfl rfl rfl ⟨herr, hcode, hfatal, fun hb => ?_, hidle, fun hr => ?_⟩
  · obtain ⟨hr, hdone, he⟩ := hbusy hb
    exact ⟨hr, by simp [hdone], he⟩
  · obtain ⟨hdone, he, hv⟩ := hunready hr
    exact ⟨by simp [hdone], he, hv⟩

theorem State.Inv.drop (h : s.Inv) : s.drop.Inv := by
  obtain ⟨herr, hcode, hfatal, hbusy, hidle, hunready⟩ := h.status
  exact h.of_status rfl rfl rfl rfl rfl rfl ⟨herr, hcode, hfatal, hbusy, hidle, hunready⟩

/-- Acceptance, 40_control.md R110 and R111. -/
theorem State.Inv.accept (h : s.Inv) (ha : s.status.accepts = true) (w : Word) : (s.accept w).Inv := by
  obtain ⟨⟨-, hready⟩, hfatal⟩ : (s.status.busy = false ∧ s.status.ready = true) ∧ s.status.fatal = false := by
    simpa [Status.accepts] using ha
  refine h.of_status rfl rfl rfl rfl rfl rfl ⟨rfl, by simp, by simp [hfatal], fun _ => ⟨hready, rfl, rfl⟩, by simp, ?_⟩
  simp [hready]

theorem State.Inv.writeReg (h : s.Inv) (r : Reg) (v : Word) : (s.writeReg r v).Inv := by
  rw [s.writeReg_frame]
  exact h.congr rfl rfl rfl rfl rfl rfl rfl

/-- Every host write that is no bus error, 40_control.md R123. -/
theorem State.Inv.writeEffect (h : s.Inv) {off : Nat} {size : Size} (v : Word)
    (hok : busError s.cfg off size = false) : (s.writeEffect off size v).Inv := by
  have ha := ((busError_eq_false_iff _ _ _).1 hok).1
  rcases s.writeEffect_cases off size v with ⟨-, hw⟩ | ⟨-, -, hw⟩ | ⟨-, hacc, hw⟩ | ⟨-, -, -, hw⟩ |
    ⟨-, -, -, -, hw⟩ | ⟨hreg, -, hw⟩ | ⟨-, -, -, hw⟩ <;> rw [hw]
  · exact h.writeCtrl v
  · exact h.drop
  · exact h.accept hacc v
  · exact h.drop
  · exact h.writeReg _ v
  · exact h.store_writable v hreg ha
  · exact h

theorem State.Inv.hostStep (h : s.Inv) {a : Access} (ht : hostStep a s = .next t) : t.Inv := by
  rcases hostStep_effect ht with ht | ⟨off, size, v, hok, rfl⟩
  · rw [ht]; exact h.congr rfl rfl rfl rfl rfl rfl rfl
  · exact (h.writeEffect v hok).congr rfl rfl rfl rfl rfl rfl rfl

/-- The destination write of a matrix command (42_matrix.md R162). -/
theorem State.Inv.writeMat (h : s.Inv) (d : MatSel) {rows cols : Nat} (R : Mat) (hr : rows ≤ 256) (hc : cols ≤ 256) :
    (s.writeMat d rows cols R).Inv := by
  have hd := matBase_range d
  have hsize := matrix_size_le hr hc
  have hstore : (s.store (matBase d) (R.bytes rows cols)).Inv := by
    refine h.store (fun x h1 h2 => ?_) (.inr (by omega))
    rw [Mat.length_bytes] at h2
    rw [isMemoryByte_iff]
    omega
  exact hstore.congr rfl rfl rfl rfl rfl rfl rfl

/-- The writes of a successful CODEC_NEW (43_codec.md R201), which a block that is not ready has never accepted. -/
theorem State.Inv.configure (h : s.Inv) (hready : s.status.ready = true) (R : Mat) {k m : Nat} (hk : 1 ≤ k)
    (hm : 1 ≤ m) (hn : k + m ≤ 256) : ((s.store genBase (R.bytes (k + m) k)).configure k m).Inv := by
  have hsize := generator_size_le hn
  have hstore : (s.store genBase (R.bytes (k + m) k)).Inv := by
    refine h.store (fun x h1 h2 => ?_) (.inr (by simp [genBase]))
    rw [Mat.length_bytes] at h2
    simp only [genBase] at h1 h2
    rw [isMemoryByte_iff]
    omega
  obtain ⟨herr, hcode, hfatal, hbusy, hidle, -⟩ := h.status
  have hk9 : k % 512 = k := Nat.mod_eq_of_lt (by omega)
  have hm9 : m % 512 = m := Nat.mod_eq_of_lt (by omega)
  refine ⟨h.legal, hstore.mem.congr rfl rfl, ⟨herr, hcode, hfatal, hbusy, hidle, by simp [hready]⟩,
    ⟨fun _ => ?_, by simp⟩, hstore.tables.congr rfl rfl rfl⟩
  simp [State.n, State.k, State.m, hk9, hm9, hk, hm, hn]

/-- A shard put into a slot (10_state.md R48). -/
theorem State.Inv.putShard (h : s.Inv) {slot : Nat} (len : Nat) {bs : List Byte} (hslot : slot < 256)
    (hfit : bs.length ≤ s.cfg.shardMaxLen) : (s.putShard slot len bs).Inv := by
  have hend : slot * s.cfg.shardMaxLen + s.cfg.shardMaxLen ≤ 256 * s.cfg.shardMaxLen := by
    rw [← Nat.succ_mul]
    exact Nat.mul_le_mul_right _ hslot
  have hstore : (s.store (s.shardBase slot) bs).Inv := by
    refine h.store (fun x h1 h2 => ?_) (.inr (by simp only [State.shardBase]; omega))
    simp only [State.shardBase] at h1 h2
    rw [isMemoryByte_iff]
    omega
  exact hstore.congr rfl rfl rfl rfl rfl rfl rfl

theorem State.Inv.putShards (h : s.Inv) (len : Nat) {sh : List (Nat × List Byte)}
    (hfit : ∀ p ∈ sh, p.1 < 256 ∧ p.2.length ≤ s.cfg.shardMaxLen) : (s.putShards len sh).Inv := by
  induction sh generalizing s with
  | nil => exact h
  | cons p ps ih =>
    obtain ⟨hslot, hlen⟩ := hfit p (by simp)
    rw [State.putShards_cons]
    exact ih (h.putShard len hslot hlen) fun q hq => hfit q (List.mem_cons_of_mem _ hq)

/-- The writes of every successful command of a ready block. -/
theorem State.Success.inv (hu : s.Success i u) (h : s.Inv) (hready : s.status.ready = true) : u.Inv := by
  cases hu with
  | nop => exact h
  | field r hi => exact h.congr rfl rfl rfl rfl rfl rfl rfl
  | matrix d rows cols R hr hc hi => exact h.writeMat d R hr hc
  | configure k m hk hm hn => exact h.configure hready _ hk hm hn
  | shards len sh hv hl hsh hnd hi =>
    have hn := (h.config.valid hv).2.2
    refine h.putShards len fun p hp => ?_
    obtain ⟨hslot, hlen⟩ := hsh p hp
    exact ⟨by omega, by omega⟩

/-- Completion of the command in flight, 40_control.md R113. While it was in flight `ERRCODE` was 0, so the block was
not fatal. -/
theorem State.Inv.complete (h : s.Inv) (hb : s.status.busy = true) (e : ErrorCode) : (s.complete e).Inv := by
  obtain ⟨hready, -, he⟩ := h.status.busy hb
  have hfatal : s.status.fatal = false := by simp [h.status.fatal, he]
  exact h.of_status rfl rfl rfl rfl rfl rfl
    ⟨rfl, e.code_le, by simp [hfatal], by simp, fun _ => rfl, by simp [hready]⟩

theorem State.Inv.coreStep (h : s.Inv) (ht : coreStep s = .next t) : t.Inv := by
  rcases coreStep_completes ht with ⟨-, rfl⟩ | ⟨hb, e, -, rfl⟩ | ⟨hb, i, u, -, hu, rfl⟩
  · exact h
  · exact h.complete hb e
  · have hub : u.status.busy = true := by
      rcases hu.status_eq with hst | ⟨-, hst⟩ <;> simp [hst, hb]
    exact (hu.inv h (h.status.busy hb).1).complete hub .ok

/-- The tables hold their values after LutInit, 41_field.md R134. -/
theorem State.tablesOk_fillTables (s : State) : s.fillTables.TablesOk := by
  refine fun _ => ⟨fun i hi => ?_, fun i hi => ?_⟩
  · rw [s.read_fillTables, if_pos (by simp only [expBase, logBase]; omega), Nat.add_sub_cancel_left,
      State.fillTables_cfg]
  · rw [s.read_fillTables, if_neg (by simp only [expBase, logBase]; omega), if_pos (by omega),
      Nat.add_sub_cancel_left, State.fillTables_cfg]

/-- LutInit stores both tables in their windows. -/
theorem State.MemOk.fillTables (h : s.MemOk) : s.fillTables.MemOk := by
  have hlog : (s.store logBase (logTable s.cfg)).MemOk := by
    refine h.of_store _ _ rfl rfl fun x h1 h2 => ?_
    simp only [length_logTable, logBase] at h1 h2
    rw [isMemoryByte_iff]
    omega
  refine hlog.of_store expBase (expTable s.cfg) rfl rfl fun x h1 h2 => ?_
  simp only [length_expTable, expBase] at h1 h2
  rw [isMemoryByte_iff]
  omega

/-- LutInit runs before any command has been accepted (41_field.md R134). -/
theorem State.Inv.lutInitStep (h : s.Inv) : (lutInitStep s).Inv := by
  cases hr : s.status.ready with
  | true => rw [lutInitStep_of_ready hr]; exact h
  | false =>
    obtain ⟨herr, hcode, hfatal, hbusy, hidle, -⟩ := h.status
    have hb : s.status.busy ≠ true := fun hb => Bool.noConfusion (hr.symm.trans (hbusy hb).1)
    rw [lutInitStep_of_unready hr]
    exact ⟨h.legal, h.mem.fillTables, ⟨herr, hcode, hfatal, fun hb' => absurd hb' hb, hidle, by simp⟩,
      h.config.congr rfl rfl rfl, s.tablesOk_fillTables⟩

/-- The reset state of legal parameters, 10_state.md R52. -/
theorem resetWith_inv {cfg : Config} (hl : configLegal cfg = true) : (State.resetWith cfg).Inv := by
  refine ⟨hl, ⟨rfl, fun c hc => by cases hc⟩, ⟨rfl, Nat.zero_le _, rfl, ?_, fun _ => rfl, fun _ => ⟨rfl, rfl, rfl⟩⟩,
    ⟨?_, fun _ => ⟨rfl, rfl⟩⟩, ?_⟩
  all_goals exact fun h => Bool.noConfusion h

/-- Settles O52, by the move that is due: the invariant holds after each agent's turn. -/
theorem stepKeepsInv : Obligations.StepKeepsInv := by
  intro s t h ht
  have hs : State.Inv { s with moves := s.moves.tail } := h.congr rfl rfl rfl rfl rfl rfl rfl
  rcases step_cases ht with ⟨-, ⟨-, rfl⟩ | ⟨move, -, ht⟩⟩
  · exact h
  · cases move with
    | host a => exact hs.hostStep ht
    | core => exact hs.coreStep ht
    | lutInit =>
      obtain rfl := Host.Outcome.next.inj ht
      exact hs.lutInitStep
    | reset =>
      obtain rfl := Host.Outcome.next.inj ht
      exact (resetWith_inv h.legal).congr rfl rfl rfl rfl rfl rfl rfl

/-- The default parameters are legal (00_scope.md R6, 41_field.md R131): 255 distinct powers of 2 modulo `0x11D`. -/
theorem configLegal_default : configLegal Config.default = true := by decide +kernel

/-- Settles O51; no configuration is held, so `GEN` need hold nothing. -/
theorem resetStateSatisfiesInv : Obligations.ResetStateSatisfiesInv :=
  ⟨resetWith_inv configLegal_default, fun hv => Bool.noConfusion hv⟩

/-! ## Host accesses to the registers (10_state.md R22 to R43) -/

/-- A due read of a register gives its value, and changes nothing else: always for those of 40_control.md R116, of the
others while the block is not busy. -/
theorem step_read_register {addr : Word} {off v : Nat} {rest : List Move} (hl : configLegal s.cfg = true)
    (ha : Claims.atOffset s addr off) (hm : s.moves = .host (.read addr .word4) :: rest) (r : Reg)
    (hoff : off < 0x1000 ∧ off % 4 = 0) (hr : regAt off = r) (hb : s.status.busy = false ∨ r.readableBusy = true)
    (hv : s.readReg r = BitVec.ofNat 32 v) :
    step s = .next { s with moves := rest, responses := .readOk (BitVec.ofNat 32 v) :: s.responses } := by
  subst hr
  obtain ⟨hw, ho⟩ := inWindow_of_offset ha.1 ha.2
  have hread := State.hostRead_register { s with moves := rest } hoff.1 hoff.2 hb
  rw [step_of_due hl (State.due_of_moves hm), hm, ← hv]
  simp only [List.tail_cons, take, hostStep, hw, ho, hread, if_true]
  rfl

/-- A due write of a register other than `CTRL` and `CMD` of a block that is not busy stores what the register
implements, gets `OK`, and changes nothing else. -/
theorem step_write_register {addr v : Word} {off : Nat} {rest : List Move} (hl : configLegal s.cfg = true)
    (ha : Claims.atOffset s addr off) (hm : s.moves = .host (.write addr .word4 v) :: rest)
    (hb : s.status.busy = false) (r : Reg) (hoff : off < 0x1000 ∧ off % 4 = 0 ∧ off ≠ 0x008 ∧ off ≠ 0x00C)
    (hr : regAt off = r) :
    step s = .next ((State.writeReg { s with moves := rest } r v).respond .writeOk) := by
  subst hr
  obtain ⟨hlt, h4, hctrl, hcmd⟩ := hoff
  obtain ⟨hw, ho⟩ := inWindow_of_offset ha.1 ha.2
  have hregion := (regionOf_registers_iff s.cfg off).2 hlt
  have hok : busError s.cfg off .word4 = false :=
    (busError_eq_false_iff _ _ _).2 ⟨h4, fun _ => rfl, by simp [hregion]⟩
  rw [step_of_due hl (State.due_of_moves hm), hm]
  simp [take, hostStep, hw, ho, State.hostWrite, hok, State.writeEffect, hctrl, hcmd, hb, hregion]

/-- `STATUS` as a number, 10_state.md R25. -/
theorem Status.word_eq (f : Status) :
    f.word = BitVec.ofNat 32 (f.busy.toNat + 2 * f.ready.toNat + 4 * f.done.toNat + 8 * f.err.toNat +
      16 * f.fatal.toNat + 32 * f.cfgValid.toNat + 64 * f.wdrop.toNat) := by
  obtain ⟨busy, ready, done, err, fatal, cfgValid, wdrop⟩ := f
  revert busy ready done err fatal cfgValid wdrop
  decide

theorem flagBit_zero (b : Bool) : flagBit b 0 = BitVec.ofNat 32 b.toNat := by cases b <;> rfl

/-- Settles O45, register by register: each is readable while busy. -/
theorem alwaysReadableRegisters : Obligations.AlwaysReadableRegisters := by
  intro s addr off rest hl ha hm
  refine ⟨?_, ?_, ?_, ?_, ?_, ?_, ?_⟩
  · rintro rfl; exact step_read_register hl ha hm .id (by decide) rfl (.inr rfl) rfl
  · rintro rfl; exact step_read_register hl ha hm .status (by decide) rfl (.inr rfl) s.status.word_eq
  · rintro rfl; exact step_read_register hl ha hm .ctrl (by decide) rfl (.inr rfl) (flagBit_zero s.irqEn)
  · rintro rfl; exact step_read_register hl ha hm .cmd (by decide) rfl (.inr rfl) rfl
  · rintro rfl; exact step_read_register hl ha hm .errcode (by decide) rfl (.inr rfl) (by simp [State.readReg])
  · rintro rfl; exact step_read_register hl ha hm .paramMaxlen (by decide) rfl (.inr rfl) rfl
  · intro h4 hres
    exact step_read_register hl ha hm .reserved (by omega) (regAt_reserved hres) (.inr rfl) rfl

/-- Settles O46, register by register. -/
theorem registersReadTheirValue : Obligations.RegistersReadTheirValue := by
  intro s addr off rest hl ha hb hm
  have hread (r : Reg) {v : Nat} (hoff : off < 0x1000 ∧ off % 4 = 0) (hr : regAt off = r) :=
    step_read_register (v := v) hl ha hm r hoff hr (.inl hb)
  refine ⟨?_, ?_, ?_, ?_, ?_, ?_, ?_, ?_, ?_⟩
  · rintro rfl; exact hread .result (by decide) rfl (by simp [State.readReg])
  · rintro rfl; exact hread .arg0 (by decide) rfl (by simp [State.readReg])
  · rintro rfl; exact hread .arg1 (by decide) rfl (by simp [State.readReg])
  · rintro rfl; exact hread .cfgK (by decide) rfl (by simp [State.readReg])
  · rintro rfl; exact hread .cfgM (by decide) rfl (by simp [State.readReg])
  · rintro w rfl; exact hread (.present w) (by omega) (regAt_present w) (by simp [State.readReg])
  · rintro i rfl; exact hread (.matRows i) (by omega) (regAt_matRows i) (by simp [State.readReg])
  · rintro i rfl; exact hread (.matCols i) (by omega) (regAt_matCols i) (by simp [State.readReg])
  · rintro j rfl; exact hread (.slotLen j) (by omega) (regAt_slotLen j) (by simp [State.readReg])

/-- Settles O43, register by register. -/
theorem registerWrites : Obligations.RegisterWrites := by
  intro s addr v off rest hl ha hb hm
  refine ⟨?_, ?_, ?_, ?_, ?_, ?_⟩
  · rintro rfl; exact step_write_register hl ha hm hb .arg0 (by decide) rfl
  · rintro rfl; exact step_write_register hl ha hm hb .arg1 (by decide) rfl
  · rintro w rfl; exact step_write_register hl ha hm hb (.present w) (by omega) (regAt_present w)
  · rintro i rfl
    rw [BitVec.ofNat_toNat]
    exact step_write_register hl ha hm hb (.matRows i) (by omega) (regAt_matRows i)
  · rintro i rfl
    rw [BitVec.ofNat_toNat]
    exact step_write_register hl ha hm hb (.matCols i) (by omega) (regAt_matCols i)
  · rintro j rfl; exact step_write_register hl ha hm hb (.slotLen j) (by omega) (regAt_slotLen j)

end Sys2Proof.Machine
end

section
/-! Host accesses to the memories (20_memory.md): which accesses get `ERROR`, what a due read and a due write answer,
that the read of a byte window composes its bytes, and from these the statements about the bus. -/

namespace Sys2Proof.Machine

variable {s : State} {addr v : Word} {size : Size} {off : Nat} {rest : List Move}

/-! ## Which accesses get `ERROR` (20_memory.md R62, R63, R66) -/

/-- The accesses the spec names are those that get `ERROR`. -/
theorem illegalAccess_iff (cfg : Config) (off : Nat) (size : Size) :
    Claims.illegalAccess cfg off size.bytes ↔ busError cfg off size = true := by
  rw [← Bool.not_eq_false, busError_eq_false_iff, Ne, regionOf_unmapped_iff, Claims.illegalAccess, Claims.unmapped]
  tauto

theorem busError_of_legal {cfg : Config} (h : ¬ Claims.illegalAccess cfg off size.bytes) :
    busError cfg off size = false :=
  Bool.eq_false_iff.2 (mt (illegalAccess_iff cfg off size).2 h)

/-- An aligned access to a writable window gets no `ERROR`. -/
theorem busError_of_writable {cfg : Config} (hw : (regionOf cfg off).isWritable = true)
    (ha : off % size.bytes = 0) : busError cfg off size = false := by
  rw [isWritable_iff] at hw
  rw [busError_eq_false_iff, Ne, regionOf_unmapped_iff]
  omega

theorem regionOf_ne_registers (cfg : Config) (h : 0x1000 ≤ off) : regionOf cfg off ≠ .registers := by
  rw [Ne, regionOf_registers_iff]
  omega

/-- Only the offsets of the tables lie in their regions (20_memory.md R60). -/
theorem range_of_regionOf_lut {cfg : Config} (h : regionOf cfg off = .expLut ∨ regionOf cfg off = .logLut) :
    0x1100 ≤ off ∧ off < 0x1300 := by
  revert h
  unfold regionOf
  repeat' split
  all_goals simp
  all_goals omega

/-! ## A due access is answered -/

theorem step_read (hl : configLegal s.cfg = true) (ha : Claims.atOffset s addr off)
    (hm : s.moves = .host (.read addr size) :: rest) :
    step s = .next (State.hostRead { s with moves := rest } off size) := by
  obtain ⟨hw, ho⟩ := inWindow_of_offset ha.1 ha.2
  rw [step_of_due hl (State.due_of_moves hm), hm]
  simp [take, hostStep, hw, ho]

theorem step_write (hl : configLegal s.cfg = true) (ha : Claims.atOffset s addr off)
    (hm : s.moves = .host (.write addr size v) :: rest) :
    step s = .next (State.hostWrite { s with moves := rest } off size v) := by
  obtain ⟨hw, ho⟩ := inWindow_of_offset ha.1 ha.2
  rw [step_of_due hl (State.due_of_moves hm), hm]
  simp [take, hostStep, hw, ho]

/-- Settles O40: both kinds of access go to the branch of `ERROR`, which touches the record of the run only. -/
theorem busErrorChangesNothing : Obligations.BusErrorChangesNothing := by
  intro s addr v size off rest hl ha hill
  have he := (illegalAccess_iff s.cfg off size).1 hill
  refine ⟨fun hm => ⟨_, step_read hl ha hm, ?_⟩, fun hm => ⟨_, step_write hl ha hm, ?_⟩⟩
  · rw [State.hostRead_of_error { s with moves := rest } he]
    rfl
  · rw [State.hostWrite_of_error { s with moves := rest } v he]
    rfl

/-! ## Reads -/

/-- A read that is no bus error gets `OK`, whatever it returns (20_memory.md R61). -/
theorem State.hostRead_gives_ok (s : State) (h : busError s.cfg off size = false) :
    ∃ data, (s.hostRead off size).responses = .readOk data :: s.responses := by
  cases hd : s.readDraws off with
  | true => exact ⟨drawnData s.draws size, by simp [State.hostRead, h, hd]⟩
  | false =>
    refine ⟨s.readValue off size, ?_⟩
    cases hm : s.readMarked off size <;> simp [State.hostRead, h, hd, hm]

/-- Settles O41, by the frame of a host read. -/
theorem readsHaveNoSideEffects : Obligations.ReadsHaveNoSideEffects := by
  intro s addr size off rest hl ha hm
  exact ⟨_, step_read hl ha hm, State.hostRead_frame _ off size,
    fun hlegal => State.hostRead_gives_ok { s with moves := rest } (busError_of_legal hlegal)⟩

/-- While the block is not busy, only the tables before `READY` give a new value at each read (40_control.md R122). -/
theorem State.readDraws_of_idle (s : State) (hb : s.status.busy = false)
    (hr : s.status.ready = true ∨ off < 0x1100 ∨ 0x1300 ≤ off) : s.readDraws off = false := by
  rcases hr with hr | hout
  · exact s.readDraws_idle hb hr
  · have hnot : ¬ (regionOf s.cfg off = .expLut ∨ regionOf s.cfg off = .logLut) := fun h => by
      have := range_of_regionOf_lut h
      omega
    unfold State.readDraws
    split <;> simp_all

/-- A read of a byte window that does not draw composes the bytes, and at most marks the run. -/
theorem State.hostRead_window (s : State) (he : busError s.cfg off size = false) (h : 0x1000 ≤ off)
    (hd : s.readDraws off = false) :
    s.hostRead off size =
      { s with
        marks := (s.hostRead off size).marks
        responses := .readOk (composeLE ((offsets off size).map s.byte)) :: s.responses } := by
  have hreg := regionOf_ne_registers s.cfg h
  cases hm : s.readMarked off size <;> simp [State.hostRead, he, hd, hm, State.readValue, hreg] <;> rfl

/-! ## Byte order (20_memory.md R64) -/

/-- The first byte is the lowest digit. -/
theorem composeLE_cons (b : Byte) (bs : List Byte) :
    composeLE (b :: bs) = BitVec.ofNat 32 b.toNat + composeLE bs * BitVec.ofNat 32 256 := by
  have hb : b.setWidth 32 = BitVec.ofNat 32 b.toNat := BitVec.eq_of_toNat_eq (by simp)
  have hdisj : b.setWidth 32 &&& composeLE bs <<< 8 = 0 := by
    apply BitVec.eq_of_getLsbD_eq
    intro i hi
    by_cases h8 : i < 8
    · simp [h8]
    · simp [BitVec.getLsbD_of_ge b i (by omega)]
  rw [composeLE, ← BitVec.add_eq_or_of_and_eq_zero _ _ hdisj, BitVec.shiftLeft_eq_mul_twoPow, hb]
  rfl

/-- The lowest digit of a number split off. -/
theorem littleEndian_succ (f : Nat → Byte) (n : Nat) :
    Claims.littleEndian f (n + 1) = (f 0).toNat + Claims.littleEndian (fun i => f (i + 1)) n * 256 := by
  induction n with
  | zero => simp [Claims.littleEndian]
  | succ n ih =>
    rw [Claims.littleEndian, ih, Claims.littleEndian]
    ring

/-- Composing bytes gives the number of which they are the base-256 digits, modulo the width of a word. -/
theorem composeLE_map_range (f : Nat → Byte) (n : Nat) :
    composeLE ((List.range n).map f) = BitVec.ofNat 32 (Claims.littleEndian f n) := by
  induction n generalizing f with
  | zero => rfl
  | succ n ih =>
    rw [List.range_succ_eq_map, List.map_cons, List.map_map, composeLE_cons, littleEndian_succ, BitVec.ofNat_add,
      BitVec.ofNat_mul, ← ih]
    rfl

theorem composeLE_offsets (f : Nat → Byte) (off : Nat) (size : Size) :
    composeLE ((offsets off size).map f) =
      BitVec.ofNat 32 (Claims.littleEndian (fun i => f (off + i)) size.bytes) := by
  rw [offsets, List.map_map]
  exact composeLE_map_range _ _

/-- Settles O54: the read does not draw, so it composes the bytes it reads. -/
theorem hostReadsComposeTheBytes : Obligations.HostReadsComposeTheBytes := by
  intro s addr size off rest hl ha hoff hlegal hb hr hm
  refine ⟨_, step_read hl ha hm, ?_⟩
  rw [← composeLE_offsets]
  exact State.hostRead_window { s with moves := rest } (busError_of_legal hlegal) hoff
    (State.readDraws_of_idle _ hb hr)

/-! ## Writes -/

/-- What a write above the registers does to a block that is not busy: it stores the value's bytes in a writable
window (20_memory.md R65), and has no effect elsewhere (R68). -/
theorem State.writeEffect_window (s : State) (size : Size) (v : Word) (hb : s.status.busy = false)
    (hoff : 0x1000 ≤ off) :
    s.writeEffect off size v =
      if (regionOf s.cfg off).isWritable then s.store off (splitLE size.bytes v) else s := by
  have hctrl : off ≠ 0x008 := by omega
  have hcmd : off ≠ 0x00C := by omega
  simp [State.writeEffect, hctrl, hcmd, hb, regionOf_ne_registers s.cfg hoff]

theorem State.hostWrite_writable (s : State) (v : Word) (hb : s.status.busy = false)
    (hw : (regionOf s.cfg off).isWritable = true) (ha : off % size.bytes = 0) :
    s.hostWrite off size v = (s.store off (splitLE size.bytes v)).respond .writeOk := by
  have hoff := (isWritable_iff s.cfg off).1 hw
  rw [s.hostWrite_of_ok v (busError_of_writable hw ha), s.writeEffect_window size v hb (by omega), if_pos hw]

theorem State.hostWrite_readOnly (s : State) (v : Word) (he : busError s.cfg off size = false)
    (hb : s.status.busy = false) (hoff : 0x1000 ≤ off) (hw : ¬ (regionOf s.cfg off).isWritable = true) :
    s.hostWrite off size v = s.respond .writeOk := by
  rw [s.hostWrite_of_ok v he, s.writeEffect_window size v hb hoff, if_neg hw]

/-- A write to a read-only or reserved register has no effect (10_state.md R23, R43). -/
theorem State.writeReg_readOnly (s : State) (v : Word)
    (h : off ∈ [0x000, 0x004, 0x010, 0x014, 0x020, 0x024, 0x028] ∨ Claims.reservedOffset off) :
    s.writeReg (regAt off) v = s := by
  rcases h with h | h
  · simp only [List.mem_cons, List.not_mem_nil, or_false] at h
    rcases h with rfl | rfl | rfl | rfl | rfl | rfl | rfl <;> rfl
  · rw [regAt_reserved h]
    rfl

/-- Settles O44: a register by the register it is, a byte of the tables or of `GEN` by its window. -/
theorem readOnlyWritesAreIgnored : Obligations.ReadOnlyWritesAreIgnored := by
  intro s addr v size off rest hl ha hb hlegal hm hro
  have he := busError_of_legal hlegal
  by_cases hoff : off < 0x1000
  · obtain ⟨halign, hword, -⟩ := (busError_eq_false_iff _ _ _).1 he
    obtain rfl := (Size.bytes_eq_four_iff size).1 (hword hoff)
    have hreg : off ∈ [0x000, 0x004, 0x010, 0x014, 0x020, 0x024, 0x028] ∨ Claims.reservedOffset off := by
      rcases hro with h | h
      · exact .inl h
      · exact .inr (by rw [Claims.reservedOffset]; omega)
    have hat : off ≠ 0x008 ∧ off ≠ 0x00C := by
      simp only [List.mem_cons, List.not_mem_nil, or_false] at hro
      omega
    rw [step_write_register hl ha hm hb _ ⟨hoff, halign, hat⟩ rfl, State.writeReg_readOnly _ v hreg]
    rfl
  · have hw : ¬ (regionOf s.cfg off).isWritable = true := by
      rw [isWritable_iff]
      simp only [List.mem_cons, List.not_mem_nil, or_false] at hro
      omega
    rw [step_write hl ha hm]
    exact congrArg _ (State.hostWrite_readOnly { s with moves := rest } v he hb (by omega) hw)

/-! ## A store read back (20_memory.md R71) -/

/-- Every byte stored by an aligned write to a writable window is the value's, and is specified. -/
theorem State.byte_store_writable (s : State) (v : Word) (hl : configLegal s.cfg = true)
    (hw : (regionOf s.cfg off).isWritable = true) (ha : off % size.bytes = 0) {i : Nat} (hi : i < size.bytes) :
    (s.store off (splitLE size.bytes v)).byte (off + i) = v.extractLsb' (8 * i) 8 ∧
      (s.store off (splitLE size.bytes v)).specified (off + i) = true := by
  have hout : off + i < 0x10000 ∨ 0x20000 ≤ off + i := by
    have := (writable_bytes hl hw ha (Nat.le_add_right off i) (by omega)).2
    omega
  have hlen : i < (splitLE size.bytes v).length := by simpa using hi
  constructor
  · rw [State.byte_store_inside _ _ _ _ hlen hout, getElem_splitLE]
  · simp [State.specified, State.genUnspecified_eq_false _ hout, Memory.read_store_inside _ _ _ _ hlen]

/-- A read of a stored value's bytes returns its low bits. -/
theorem State.hostRead_store (s : State) (v : Word) (hl : configLegal s.cfg = true) (hb : s.status.busy = false)
    (hw : (regionOf s.cfg off).isWritable = true) (ha : off % size.bytes = 0) :
    (s.store off (splitLE size.bytes v)).hostRead off size =
      (s.store off (splitLE size.bytes v)).respond
        (.readOk (BitVec.ofNat 32 (v.toNat % 2 ^ (8 * size.bytes)))) := by
  have hoff := (isWritable_iff s.cfg off).1 hw
  have hbytes {i : Nat} := s.byte_store_writable v hl hw ha (i := i)
  have hmap : (offsets off size).map (s.store off (splitLE size.bytes v)).byte = splitLE size.bytes v := by
    rw [offsets, List.map_map, splitLE]
    exact List.map_congr_left fun i hi => (hbytes (List.mem_range.1 hi)).1
  have hd := State.readDraws_of_idle (s.store off (splitLE size.bytes v)) hb (off := off) (.inr (by omega))
  have he : busError (s.store off (splitLE size.bytes v)).cfg off size = false := busError_of_writable hw ha
  rw [State.hostRead_bytes _ he (by omega) hd fun i hi => (hbytes hi).2, hmap, composeLE_splitLE]

/-- Settles O42: the write stores the value's bytes, and the read finds them. -/
theorem storeThenLoadLittleEndian : Obligations.StoreThenLoadLittleEndian := by
  intro s addr v size off rest hl ha hb hwritable halign hm
  have hw := (isWritable_iff s.cfg off).2 hwritable
  have hwrite := State.hostWrite_writable { s with moves := .host (.read addr size) :: rest } v hb hw halign
  rw [step_write hl ha hm, hwrite]
  refine ⟨_, _, rfl, rfl, fun i hi => ?_, fun a hout => ?_, step_read hl ha rfl, ?_⟩
  · rw [← toNat_extract_byte]
    exact congrArg _ (State.byte_store_writable _ v hl hw halign hi).1
  · exact s.byte_store_outside off _ a (by rw [length_splitLE]; exact hout)
  · exact State.hostRead_store { s with moves := rest, responses := .writeOk :: s.responses } v hl hb hw halign

end Sys2Proof.Machine
end

section
/-! Decoding and encoding (30_encoding.md): what a row's mask says of a word's number, what number the encoder gives, and
from these the statements about the words. -/

namespace Sys2Proof

variable {w mask pattern opc : Word} {d a b : MatSel} {i : Instr}

/-! ## A row of the opcode table, read off the word's number (R95) -/

/-- A mask with a hole of `n` bits above the opcode keeps the low byte and what stands above the hole. -/
theorem toNat_and_of_hole (n : Nat) (hmask : ∀ j < 32, mask.getLsbD j = (decide (j < 8) || decide (8 + n ≤ j))) :
    (w &&& mask).toNat = 2 ^ (8 + n) * (w.toNat / 2 ^ (8 + n)) + w.toNat % 2 ^ 8 := by
  have hlow : w.toNat % 2 ^ 8 < 2 ^ (8 + n) :=
    (Nat.mod_lt _ (by decide)).trans_le (Nat.pow_le_pow_right (by decide) (by omega))
  refine Nat.eq_of_testBit_eq fun j => ?_
  rw [Nat.testBit_two_pow_mul_add _ hlow, Nat.testBit_mod_two_pow, Nat.testBit_div_two_pow, BitVec.testBit_toNat,
    BitVec.testBit_toNat, BitVec.testBit_toNat, BitVec.getLsbD_and]
  by_cases hj : j < 32
  · rw [hmask j hj]
    split
    next h => simp [not_le.2 h, Bool.and_comm]
    next h => simp [not_lt.1 h, Nat.sub_add_cancel]
  · have hw : w.getLsbD j = false := w.getLsbD_of_ge j (not_lt.1 hj)
    split
    next h => simp [hw]
    next h => rw [Nat.sub_add_cancel (not_lt.1 h), hw, Bool.false_and]

/-- So a word is in such a mask's row when it has the row's opcode, and nothing above the hole. -/
theorem inRow_iff_of_hole (n : Nat)
    (hmask : ∀ j < 32, mask.getLsbD j = (decide (j < 8) || decide (8 + n ≤ j))) (hp : pattern.toNat < 256) :
    inRow w mask pattern = true ↔ w.toNat % 256 = pattern.toNat ∧ w.toNat / 2 ^ (8 + n) = 0 := by
  rw [inRow, beq_iff_eq, ← BitVec.toNat_inj, toNat_and_of_hole n hmask]
  constructor
  · intro h
    have hzero : w.toNat / 2 ^ (8 + n) = 0 := by
      have hle : 2 ^ 8 ≤ 2 ^ (8 + n) := Nat.pow_le_pow_right (by decide) (by omega)
      by_contra hne
      have := Nat.le_mul_of_pos_right (2 ^ (8 + n)) (Nat.pos_of_ne_zero hne)
      omega
    rw [hzero] at h
    exact ⟨by omega, hzero⟩
  · rintro ⟨hlow, hzero⟩
    simp [hlow, hzero]

/-- The rows that use no selector. -/
theorem inRow_noSelector_iff (hp : pattern.toNat < 256) :
    inRow w 0xFFFFFFFF pattern = true ↔ w.toNat % 256 = pattern.toNat ∧ w.toNat / 256 = 0 :=
  inRow_iff_of_hole 0 (by decide) hp

/-- The rows that use `D`. -/
theorem inRow_selectorD_iff (hp : pattern.toNat < 256) :
    inRow w 0xFFFFFCFF pattern = true ↔ w.toNat % 256 = pattern.toNat ∧ w.toNat / 1024 = 0 :=
  inRow_iff_of_hole 2 (by decide) hp

/-- The rows that use `D` and `A`. -/
theorem inRow_selectorsDA_iff (hp : pattern.toNat < 256) :
    inRow w 0xFFFFF0FF pattern = true ↔ w.toNat % 256 = pattern.toNat ∧ w.toNat / 4096 = 0 :=
  inRow_iff_of_hole 4 (by decide) hp

/-- The rows that use `D`, `A` and `B`. -/
theorem inRow_selectorsDAB_iff (hp : pattern.toNat < 256) :
    inRow w 0xFFFFC0FF pattern = true ↔ w.toNat % 256 = pattern.toNat ∧ w.toNat / 16384 = 0 :=
  inRow_iff_of_hole 6 (by decide) hp

/-! ## The encoder's number (R91) -/

/-- A selector moved to its place in the word loses no bit. -/
theorem toNat_shift_selector (m : MatSel) {n : Nat} (hn : n ≤ 12) :
    (m.setWidth 32 <<< n).toNat = 2 ^ n * m.toNat := by
  have hm := m.isLt
  have hpow : 2 ^ n ≤ 2 ^ 12 := Nat.pow_le_pow_right (by decide) hn
  have hlt : 2 ^ n * m.toNat < 2 ^ 32 := (Nat.mul_le_mul hpow hm.le).trans_lt (by decide)
  rw [BitVec.toNat_shiftLeft, BitVec.toNat_setWidth_of_le (by decide), Nat.shiftLeft_eq, Nat.mul_comm,
    Nat.mod_eq_of_lt hlt]

/-- The fields do not overlap, so the encoder's `|` adds them. -/
theorem toNat_enc (hopc : opc.toNat < 256) (d a b : MatSel) :
    (enc opc d a b).toNat = opc.toNat + 256 * d.toNat + 1024 * a.toNat + 4096 * b.toNat := by
  have hd := d.isLt
  have ha := a.isLt
  have hor {x n : Nat} (y : Nat) (hx : x < 2 ^ n) : x ||| 2 ^ n * y = x + 2 ^ n * y := by
    rw [Nat.or_comm, ← Nat.two_pow_add_eq_or_of_lt hx, Nat.add_comm]
  simp only [enc, BitVec.toNat_or]
  rw [toNat_shift_selector d (by decide), toNat_shift_selector a (by decide), toNat_shift_selector b (by decide),
    hor (n := 8) _ hopc, hor (n := 10) _ (by omega), hor (n := 12) _ (by omega)]
  rfl

/-- A word whose digits are an opcode and three selectors is the word the encoder makes of them. -/
theorem eq_enc_of_digits (hopc : opc.toNat < 256) (hw : w.toNat % 256 = opc.toNat)
    (hd : w.toNat / 256 % 4 = d.toNat) (ha : w.toNat / 1024 % 4 = a.toNat) (hb : w.toNat / 4096 = b.toNat) :
    w = enc opc d a b := by
  refine BitVec.eq_of_toNat_eq ?_
  rw [toNat_enc hopc]
  omega

/-! ## A word's selectors as digits of its number (R91) -/

@[simp] theorem CmdFields.toNat_ofWord_d (w : Word) : (CmdFields.ofWord w).d.toNat = w.toNat / 256 % 4 := by
  simp [CmdFields.ofWord, Nat.shiftRight_eq_div_pow]

@[simp] theorem CmdFields.toNat_ofWord_a (w : Word) : (CmdFields.ofWord w).a.toNat = w.toNat / 1024 % 4 := by
  simp [CmdFields.ofWord, Nat.shiftRight_eq_div_pow]

@[simp] theorem CmdFields.toNat_ofWord_b (w : Word) : (CmdFields.ofWord w).b.toNat = w.toNat / 4096 % 4 := by
  simp [CmdFields.ofWord, Nat.shiftRight_eq_div_pow]

/-! ## Decoding against encoding (R95) -/

/-- Every command's word decodes to the command: a command's word is one of finitely many, four for each selector. -/
theorem decode_encode (i : Instr) : decode (encode i) = .command i := by
  cases i with
  | nop | gfAdd | gfMul | gfDiv | gfInv | codecNew | encode | reconstruct => decide
  | matGen d => revert d; decide
  | matSub d a | matInv d a => revert d a; decide
  | matMul d a b => revert d a b; decide

/-- A word of a row that uses no selector is the opcode alone. -/
theorem eq_enc_of_inRow_noSelector (hp : opc.toNat < 256) (h : inRow w 0xFFFFFFFF opc = true) :
    w = enc opc 0 0 0 := by
  obtain ⟨hlow, hzero⟩ := (inRow_noSelector_iff hp).1 h
  exact eq_enc_of_digits hp hlow (by bv_omega) (by bv_omega) (by bv_omega)

/-- A word of a row that uses `D` is the opcode with the word's own `D`. -/
theorem eq_enc_of_inRow_selectorD (hp : opc.toNat < 256) (h : inRow w 0xFFFFFCFF opc = true) :
    w = enc opc (CmdFields.ofWord w).d 0 0 := by
  obtain ⟨hlow, hzero⟩ := (inRow_selectorD_iff hp).1 h
  exact eq_enc_of_digits hp hlow (CmdFields.toNat_ofWord_d w).symm (by bv_omega) (by bv_omega)

/-- A word of a row that uses `D` and `A` is the opcode with the word's own `D` and `A`. -/
theorem eq_enc_of_inRow_selectorsDA (hp : opc.toNat < 256) (h : inRow w 0xFFFFF0FF opc = true) :
    w = enc opc (CmdFields.ofWord w).d (CmdFields.ofWord w).a 0 := by
  obtain ⟨hlow, hzero⟩ := (inRow_selectorsDA_iff hp).1 h
  exact eq_enc_of_digits hp hlow (CmdFields.toNat_ofWord_d w).symm (CmdFields.toNat_ofWord_a w).symm
    (by bv_omega)

/-- A word of a row that uses every selector is the opcode with the word's own three. -/
theorem eq_enc_of_inRow_selectorsDAB (hp : opc.toNat < 256) (h : inRow w 0xFFFFC0FF opc = true) :
    w = enc opc (CmdFields.ofWord w).d (CmdFields.ofWord w).a (CmdFields.ofWord w).b := by
  obtain ⟨hlow, hzero⟩ := (inRow_selectorsDAB_iff hp).1 h
  exact eq_enc_of_digits hp hlow (CmdFields.toNat_ofWord_d w).symm (CmdFields.toNat_ofWord_a w).symm
    (by rw [CmdFields.toNat_ofWord_b]; omega)

/-- A row of the decoder keeps the round trip if its own words are its command's, and the rows after it keep it. -/
theorem eq_encode_of_ite {c : Prop} [Decidable c] {j : Instr} {r : Decoded} (hrow : c → w = encode j)
    (hrest : r = .command i → w = encode i) (h : (if c then .command j else r) = Decoded.command i) : w = encode i := by
  split_ifs at h with hc
  · cases h
    exact hrow hc
  · exact hrest h

/-- A word that decodes to a command is the command's word: row by row, in the decoder's order. -/
theorem eq_encode_of_decode (h : decode w = .command i) : w = encode i := by
  revert h
  unfold decode
  refine
    eq_encode_of_ite (eq_enc_of_inRow_noSelector (by decide)) <|
    eq_encode_of_ite (eq_enc_of_inRow_noSelector (by decide)) <|
    eq_encode_of_ite (eq_enc_of_inRow_noSelector (by decide)) <|
    eq_encode_of_ite (eq_enc_of_inRow_noSelector (by decide)) <|
    eq_encode_of_ite (eq_enc_of_inRow_noSelector (by decide)) <|
    eq_encode_of_ite (eq_enc_of_inRow_selectorD (by decide)) <|
    eq_encode_of_ite (eq_enc_of_inRow_selectorsDA (by decide)) <|
    eq_encode_of_ite (eq_enc_of_inRow_selectorsDA (by decide)) <|
    eq_encode_of_ite (eq_enc_of_inRow_selectorsDAB (by decide)) <|
    eq_encode_of_ite (eq_enc_of_inRow_noSelector (by decide)) <|
    eq_encode_of_ite (eq_enc_of_inRow_noSelector (by decide)) <|
    eq_encode_of_ite (eq_enc_of_inRow_noSelector (by decide)) <|
    nofun

/-- Settles O1: each direction is one of the two round trips. -/
theorem decodeIsInverseOfEncode : Obligations.DecodeIsInverseOfEncode :=
  fun _ i => ⟨eq_encode_of_decode, fun h => h ▸ decode_encode i⟩

/-! ## The legal words (R94, R96) -/

/-- A row of the decoder gives a command to the words in it; the others are left to the rows after it. -/
theorem exists_command_ite (c : Prop) [Decidable c] (j : Instr) (r : Decoded) :
    (∃ i, (if c then .command j else r) = Decoded.command i) ↔ c ∨ ∃ i, r = .command i := by
  by_cases hc : c <;> simp [hc]

/-- Settles O2: a word decodes to a command when it is in some row, and every row is read off the word's digits. -/
theorem legalWordsByTheirFields : Obligations.LegalWordsByTheirFields := by
  intro w
  simp only [decode, exists_command_ite, reduceCtorEq, exists_false, or_false, inRow_noSelector_iff,
    inRow_selectorD_iff, inRow_selectorsDA_iff, inRow_selectorsDAB_iff, BitVec.reduceToNat, Nat.reduceLT,
    List.mem_cons, List.not_mem_nil]
  have hnone : w.toNat / 256 = 0 → w.toNat / 16384 = 0 := by omega
  have hd : w.toNat / 1024 = 0 → w.toNat / 16384 = 0 := by omega
  have hda : w.toNat / 4096 = 0 → w.toNat / 16384 = 0 := by omega
  grind

/-- Settles O3: each word is run through the decoder. -/
theorem sampleWordsDecode : Obligations.SampleWordsDecode := by
  unfold Obligations.SampleWordsDecode
  decide

end Sys2Proof
end

section
/-! The life of a command (40_control.md): which move is due and what the Core's turn answers (R112 to R114, R121), what
a due host write does to the control registers and to a busy block (R110, R111, R115, R117), and from these the
statements about accepting, dropping, running and completing a command. -/

namespace Sys2Proof.Machine

variable {s t u : State} {i : Instr} {addr v : Word} {size : Size} {off : Nat} {rest : List Move}

/-! ## The Core's turn (R112, R114) -/

/-- A busy block with an empty schedule leaves the turn to the Core (notes/assumptions/4.md). -/
theorem State.due_of_busy (hb : s.status.busy = true) (hm : s.moves = []) : s.due = some .core := by
  simp [State.due, hm, hb]

theorem step_core (hl : configLegal s.cfg = true) (hd : s.due = some .core) :
    step s = coreStep { s with moves := s.moves.tail } :=
  step_of_due hl hd

theorem step_core_of_moves (hl : configLegal s.cfg = true) (hm : s.moves = .core :: rest) :
    step s = coreStep { s with moves := rest } := by
  rw [step_core hl (State.due_of_moves hm), hm, List.tail_cons]

/-- An empty schedule stays as it is. -/
theorem step_core_of_empty (hl : configLegal s.cfg = true) (hb : s.status.busy = true) (hm : s.moves = []) :
    step s = coreStep s := by
  rw [step_core hl (State.due_of_busy hb hm), hm, List.tail_nil, ← hm]

theorem coreStep_of_command (hb : s.status.busy = true) (hd : decode s.curCmd = .command i) :
    coreStep s = exec i s := by
  simp [coreStep, hb, hd]

theorem coreStep_of_illegal (hb : s.status.busy = true) {why : FieldError} (hd : decode s.curCmd = .illegal why) :
    coreStep s = .next (s.complete .illegalCommand) := by
  simp [coreStep, hb, hd, execIllegal]

/-- The Core's turn always answers a next state, whatever word was accepted. -/
theorem coreStep_isNext (s : State) : ∃ t, coreStep s = .next t := by
  cases hb : s.status.busy with
  | false => exact ⟨s, by simp [coreStep, hb]⟩
  | true =>
    cases hd : decode s.curCmd with
    | command i =>
      rw [coreStep_of_command hb hd]
      exact exec_isNext s i
    | illegal why => exact ⟨_, coreStep_of_illegal hb hd⟩

/-- Settles O4: the Core's turn is due in both clauses. -/
theorem stepRunsDecodedCommand : Obligations.StepRunsDecodedCommand := by
  intro s i hl hb hd
  refine ⟨fun rest hm => ?_, fun hm => ?_⟩
  · rw [step_core_of_moves hl hm]
    exact coreStep_of_command hb hd
  · rw [step_core_of_empty hl hb hm]
    exact coreStep_of_command hb hd

/-! ## Completion (R113, R118, R121) -/

/-- Code `0x09` is an error, and is not the code that sets `FATAL`. -/
theorem Status.onComplete_illegalCommand (f : Status) :
    f.onComplete ErrorCode.illegalCommand.code = { f with busy := false, done := true, err := true } := by
  simp [Status.onComplete]

/-- Code 0 is no error, and is not the code that sets `FATAL`. -/
theorem Status.onComplete_ok (f : Status) :
    f.onComplete ErrorCode.ok.code = { f with busy := false, done := true, err := false } := by
  simp [Status.onComplete]

/-- Settles O5: the Core's turn is the completion with `ILLEGAL_COMMAND`. -/
theorem illegalWordCompletesWithCode9 : Obligations.IllegalWordCompletesWithCode9 := by
  intro s rest hl hb hm hnone
  cases hd : decode s.curCmd with
  | command i => exact absurd hd (hnone i)
  | illegal why =>
    rw [step_core_of_moves hl hm, coreStep_of_illegal (s := { s with moves := rest }) hb hd, State.complete,
      Status.onComplete_illegalCommand]
    rfl

/-- Settles O6: NOP's writes are those of its completion. -/
theorem nopOnlyCompletes : Obligations.NopOnlyCompletes := by
  intro s
  rw [exec_nop, State.complete, Status.onComplete_ok]
  rfl

/-- The state a command completes agrees with the state at acceptance in everything that only the host, LutInit or the
command's completion writes (10_state.md R25 to R40). -/
structure State.CommandFrame (s u : State) : Prop where
  ready : u.status.ready = s.status.ready
  fatal : u.status.fatal = s.status.fatal
  wdrop : u.status.wdrop = s.status.wdrop
  irqEn : u.irqEn = s.irqEn
  arg0 : u.arg0 = s.arg0
  arg1 : u.arg1 = s.arg1
  present : u.present = s.present
  cfg : u.cfg = s.cfg
  responses : u.responses = s.responses
  moves : u.moves = s.moves

theorem State.CommandFrame.refl (s : State) : s.CommandFrame s :=
  ⟨rfl, rfl, rfl, rfl, rfl, rfl, rfl, rfl, rfl, rfl⟩

/-- No command gives a host response or takes a move. -/
theorem State.Success.record_eq (h : s.Success i u) : u.responses = s.responses ∧ u.moves = s.moves := by
  cases h with
  | nop => exact ⟨rfl, rfl⟩
  | field r hi => exact ⟨rfl, rfl⟩
  | matrix d rows cols R hr hc hi => exact ⟨rfl, rfl⟩
  | configure k m hk hm hn => exact ⟨rfl, rfl⟩
  | shards len sh hv hl hsh hnd hi =>
    rw [s.putShards_frame]
    exact ⟨rfl, rfl⟩

theorem State.Success.commandFrame (h : s.Success i u) : s.CommandFrame u := by
  obtain ⟨harg0, harg1, hpresent, hirq, hcfg⟩ := h.registers_eq
  obtain ⟨hresponses, hmoves⟩ := h.record_eq
  rcases h.status_eq with hst | ⟨-, hst⟩ <;>
    exact ⟨by simp [hst], by simp [hst], by simp [hst], hirq, harg0, harg1, hpresent, hcfg, hresponses, hmoves⟩

/-- The Core's turn of a busy block is the completion of a state that differs from it in the command's writes only. -/
theorem coreStep_complete_of_busy (hb : s.status.busy = true) (h : coreStep s = .next t) :
    ∃ u e, t = u.complete e ∧ s.CommandFrame u := by
  rcases coreStep_completes h with ⟨hidle, -⟩ | ⟨-, e, -, rfl⟩ | ⟨-, i, u, -, hu, rfl⟩
  · exact Bool.noConfusion (hidle.symm.trans hb)
  · exact ⟨s, e, rfl, .refl s⟩
  · exact ⟨u, .ok, rfl, hu.commandFrame⟩

/-- Settles O10: the Core's turn is a completion, and the completed state keeps what no command can write. -/
theorem everyAcceptedWordCompletes : Obligations.EveryAcceptedWordCompletes := by
  intro s hl hb hd
  rw [step_core hl hd]
  obtain ⟨t, ht⟩ := coreStep_isNext { s with moves := s.moves.tail }
  obtain ⟨u, e, rfl, hu⟩ := coreStep_complete_of_busy (s := { s with moves := s.moves.tail }) hb ht
  refine ⟨_, ht, rfl, rfl, rfl, ?_, rfl, hu.ready, hu.wdrop, hu.irqEn, hu.arg0, hu.arg1, hu.present, hu.cfg,
    hu.responses, hu.moves⟩
  rw [State.complete_status, Status.onComplete_fatal, hu.fatal, State.complete_errcode]

/-! ## Writes to the control registers and to a busy block (R110, R111, R115, R117) -/

theorem Status.accepts_iff (f : Status) :
    f.accepts = true ↔ f.busy = false ∧ f.ready = true ∧ f.fatal = false := by
  simp [Status.accepts, and_assoc]

theorem Status.accepts_eq_false_iff (f : Status) :
    f.accepts = false ↔ f.busy = true ∨ f.ready = false ∨ f.fatal = true := by
  simp only [Status.accepts, Bool.and_eq_false_iff, Bool.not_eq_false', or_assoc]

theorem Status.onAck_eq (f : Status) (ack : Bool) :
    f.onAck ack = { f with done := if ack then false else f.done } := by
  cases ack <;> simp [Status.onAck]

theorem State.writeEffect_ctrl (s : State) (size : Size) (v : Word) : s.writeEffect 0x008 size v = s.writeCtrl v := rfl

theorem State.writeEffect_busy (s : State) (size : Size) (v : Word) (hb : s.status.busy = true) (hoff : off ≠ 0x008) :
    s.writeEffect off size v = s.drop := by
  simp [State.writeEffect, hoff, hb]

theorem State.writeEffect_cmd_accepted (s : State) (size : Size) (w : Word) (h : s.status.accepts = true) :
    s.writeEffect 0x00C size w = s.accept w := by
  simp [State.writeEffect, h, ((Status.accepts_iff _).1 h).1]

theorem State.writeEffect_cmd_dropped (s : State) (size : Size) (w : Word) (h : s.status.accepts = false) :
    s.writeEffect 0x00C size w = s.drop := by
  simp [State.writeEffect, h]

/-- A whole aligned word of the register region gets no `ERROR` (20_memory.md R62, R63). -/
theorem busError_register (cfg : Config) (hoff : off < 0x1000) (h4 : off % 4 = 0) :
    busError cfg off .word4 = false := by
  have hregion := (regionOf_registers_iff cfg off).2 hoff
  exact (busError_eq_false_iff _ _ _).2 ⟨h4, fun _ => rfl, by simp [hregion]⟩

/-- A due write that is no bus error has its effect and gets `OK`. -/
theorem step_write_ok (hl : configLegal s.cfg = true) (ha : Claims.atOffset s addr off)
    (hm : s.moves = .host (.write addr size v) :: rest) (he : busError s.cfg off size = false) :
    step s = .next ((State.writeEffect { s with moves := rest } off size v).respond .writeOk) := by
  rw [step_write hl ha hm, State.hostWrite_of_ok { s with moves := rest } v he]

/-- A due write that is dropped sets `WDROP`, gets `OK`, and leaves only a mark besides. -/
theorem step_write_dropped (hl : configLegal s.cfg = true) (ha : Claims.atOffset s addr off)
    (hm : s.moves = .host (.write addr size v) :: rest) (he : busError s.cfg off size = false)
    (hdrop : State.writeEffect { s with moves := rest } off size v = State.drop { s with moves := rest }) :
    ∃ t, step s = .next t ∧ t = { Claims.dropped { s with moves := rest } with marks := t.marks } := by
  rw [step_write_ok hl ha hm he, hdrop]
  exact ⟨_, rfl, rfl⟩

/-- Settles O7, by whether the block accepts. -/
theorem cmdWriteIsAcceptedOrDropped : Obligations.CmdWriteIsAcceptedOrDropped := by
  intro s addr w rest hl ha hm
  have he : busError s.cfg 0x00C .word4 = false := busError_register _ (by decide) (by decide)
  refine ⟨fun haccepts => ?_, fun hnot => ?_⟩
  · rw [step_write_ok hl ha hm he,
      State.writeEffect_cmd_accepted { s with moves := rest } _ _ ((Status.accepts_iff _).2 haccepts)]
    rfl
  · exact step_write_dropped hl ha hm he
      (State.writeEffect_cmd_dropped _ _ _ ((Status.accepts_eq_false_iff _).2 hnot))

/-- Settles O8: while busy every write but one to `CTRL` is dropped before its offset is looked at. -/
theorem busyDropsEveryOtherWrite : Obligations.BusyDropsEveryOtherWrite := by
  intro s addr v size off rest hl hb ha hlegal hoff hm
  exact step_write_dropped hl ha hm (busError_of_legal hlegal) (State.writeEffect_busy _ _ _ hb hoff)

/-- Settles O9: the `CTRL` branch comes before every test of the block's state. -/
theorem ctrlWriteTakesEffectAlways : Obligations.CtrlWriteTakesEffectAlways := by
  intro s addr v rest hl ha hm
  have he : busError s.cfg 0x008 .word4 = false := busError_register _ (by decide) (by decide)
  rw [step_write_ok hl ha hm he, State.writeEffect_ctrl, State.writeCtrl, Status.onAck_eq]
  rfl

end Sys2Proof.Machine
end

section
/-! The field commands (41_field.md R140 to R143): what each leaves in `RESULT`, spelled out over `ARG0`, `ARG1` and the
bytes of the tables. -/

namespace Sys2Proof.Machine

variable (s : State)

/-! ## Operands and quotient -/

/-- The operand `a` is the low byte of `ARG0` (30_encoding.md R92). -/
theorem State.elemA_eq : s.elemA = BitVec.ofNat 8 s.arg0.toNat := BitVec.eq_of_toNat_eq (by simp [State.elemA])

/-- The operand `b` is the low byte of `ARG1` (30_encoding.md R92). -/
theorem State.elemB_eq : s.elemB = BitVec.ofNat 8 s.arg1.toNat := BitVec.eq_of_toNat_eq (by simp [State.elemB])

theorem State.div_of_ne_zero (a : Byte) {b : Byte} (hb : b ≠ 0) :
    s.div a b = .ok (if a = 0 then 0 else s.exp (((s.log a : Int) - (s.log b : Int)) % 255).toNat) := by
  rw [State.div, if_neg hb]
  split <;> rfl

/-! ## The commands -/

/-- Settles O19: the operands are the low bytes of the two registers. -/
theorem gfAddWritesXor : Obligations.GfAddWritesXor := by
  intro s
  rw [exec_gfAdd, s.elemA_eq, s.elemB_eq]
  rfl

/-- Settles O20: the result is the table product, read byte by byte. -/
theorem gfMulWritesTableProduct : Obligations.GfMulWritesTableProduct := by
  rintro s a b rfl rfl
  rw [exec_gfMul, s.elemA_eq, s.elemB_eq]
  rfl

/-- Settles O21: the divisor is tested before the dividend. -/
theorem gfDivWritesTableQuotient : Obligations.GfDivWritesTableQuotient := by
  rintro s a b ha hb
  rw [exec_gfDiv, s.elemA_eq, s.elemB_eq, ← ha, ← hb]
  refine ⟨fun hzero => ?_, fun hne => ?_⟩
  · rw [(s.div_eq_error_iff a b _).2 ⟨hzero, rfl⟩]
    rfl
  · rw [s.div_of_ne_zero a hne]
    rfl

/-- Settles O22, by whether the operand is 0. -/
theorem gfInvWritesTableInverse : Obligations.GfInvWritesTableInverse := by
  intro s a ha
  rw [exec_gfInv, s.elemA_eq, ← ha]
  refine ⟨fun hzero => ?_, fun hne => ?_⟩
  · rw [(s.inverse_eq_error_iff a _).2 ⟨hzero, rfl⟩]
    rfl
  · rw [s.inverse_of_ne_zero hne]
    rfl

end Sys2Proof.Machine
end

section
/-! The reference product as multiplication of polynomials over GF(2) modulo the field polynomial (41_field.md R130).
Each loop of `polymul` is one fact about polynomials, and a byte is its own remainder, so the product inherits the laws
of the residue ring. -/

namespace Sys2Proof.Machine

open Polynomial

/-! ## The polynomial of a number -/

/-- The polynomial over GF(2) whose coefficient of `x^i` is bit `i` (00_scope.md R9). -/
noncomputable def bitPoly (n : Nat) : (ZMod 2)[X] := ∑ i ∈ Finset.range n, if n.testBit i then X ^ i else 0

/-- The coefficients of the polynomial that the lower `k` bits give. -/
theorem coeff_sum_bits (n k i : Nat) :
    (∑ j ∈ Finset.range k, if n.testBit j then (X : (ZMod 2)[X]) ^ j else 0).coeff i =
      if i < k ∧ n.testBit i then 1 else 0 := by
  have hterm : ∀ j, (if n.testBit j then (X : (ZMod 2)[X]) ^ j else 0).coeff i =
      if i = j then (if n.testBit i then 1 else 0) else 0 := by
    intro j
    by_cases hj : i = j
    · cases hb : n.testBit i <;> simp [← hj, hb]
    · cases hb : n.testBit j <;> simp [hj, coeff_X_pow]
  simp only [finsetSum_coeff, hterm, Finset.sum_ite_eq, Finset.mem_range, ite_and]

theorem coeff_bitPoly (n i : Nat) : (bitPoly n).coeff i = if n.testBit i then 1 else 0 := by
  have hlt : n.testBit i → i < n := fun h => i.lt_two_pow_self.trans_le (Nat.ge_two_pow_of_testBit h)
  rw [bitPoly, coeff_sum_bits]
  simp only [and_iff_right_of_imp hlt]

/-- A number's polynomial is the sum over as many bits as it has. -/
theorem bitPoly_eq_sum {n k : Nat} (h : n < 2 ^ k) :
    bitPoly n = ((List.range k).map fun i => if n.testBit i then X ^ i else 0).sum := by
  have hlt : ∀ i, n.testBit i → i < k := fun i hi =>
    (Nat.pow_lt_pow_iff_right one_lt_two).1 ((Nat.ge_two_pow_of_testBit hi).trans_lt h)
  have hsum : bitPoly n = ∑ i ∈ Finset.range k, if n.testBit i then X ^ i else 0 := by
    ext i
    rw [coeff_bitPoly, coeff_sum_bits]
    simp only [and_iff_right_of_imp (hlt i)]
  exact hsum

theorem bitPoly_injective : Function.Injective bitPoly := by
  intro m n h
  refine Nat.eq_of_testBit_eq fun i => ?_
  have hi := congrArg (fun p => p.coeff i) h
  simp only [coeff_bitPoly] at hi
  cases hm : m.testBit i <;> cases hn : n.testBit i <;> simp [hm, hn] at hi ⊢

@[simp] theorem bitPoly_zero : bitPoly 0 = 0 := by simp [bitPoly]

@[simp] theorem bitPoly_one : bitPoly 1 = 1 := by simp [bitPoly]

/-- The exclusive-or adds polynomials. -/
theorem bitPoly_xor (m n : Nat) : bitPoly (m ^^^ n) = bitPoly m + bitPoly n := by
  ext i
  simp only [coeff_add, coeff_bitPoly, Nat.testBit_xor]
  cases m.testBit i <;> cases n.testBit i <;> simp [CharTwo.add_self_eq_zero]

/-- A shift multiplies by a power of `x`. -/
theorem bitPoly_shiftLeft (n k : Nat) : bitPoly (n <<< k) = bitPoly n * X ^ k := by
  ext i
  simp only [coeff_mul_X_pow', coeff_bitPoly, Nat.testBit_shiftLeft]
  by_cases h : k ≤ i <;> simp [h]

theorem degree_bitPoly_lt {n k : Nat} (h : n < 2 ^ k) : (bitPoly n).degree < k := by
  rw [degree_lt_iff_coeff_zero]
  intro i hi
  rw [coeff_bitPoly, Nat.testBit_lt_two_pow (h.trans_le (Nat.pow_le_pow_right two_pos hi))]
  rfl

/-! ## The two loops -/

/-- The first loop adds the product by the part of `b` that has the bits numbered (41_field.md R130). -/
theorem bitPoly_carryless (a b : Nat) (is : List Nat) (p : Nat) :
    bitPoly (carryless a b is p) =
      bitPoly p + bitPoly a * (is.map fun i => if b.testBit i then X ^ i else 0).sum := by
  induction is generalizing p with
  | nil => simp [carryless]
  | cons i is ih =>
    rw [carryless, ih, List.map_cons, List.sum_cons]
    split
    · rw [bitPoly_xor, bitPoly_shiftLeft]
      ring
    · ring

/-- The second loop subtracts multiples of the modulus (41_field.md R130). -/
theorem mk_bitPoly_reducePoly (poly : Nat) (is : List Nat) (p : Nat) :
    AdjoinRoot.mk (bitPoly poly) (bitPoly (reducePoly poly is p)) = AdjoinRoot.mk (bitPoly poly) (bitPoly p) := by
  induction is generalizing p with
  | nil => rfl
  | cons i is ih =>
    rw [reducePoly, ih]
    split
    · rw [bitPoly_xor, bitPoly_shiftLeft, map_add, map_mul, AdjoinRoot.mk_self, zero_mul, add_zero]
    · rfl

/-! ## The loops stay within their bits -/

/-- The first loop fills at most fifteen bits. -/
theorem carryless_lt {a : Nat} (ha : a < 2 ^ 8) (b : Nat) {is : List Nat} (his : ∀ i ∈ is, i ≤ 7) {p : Nat}
    (hp : p < 2 ^ 15) : carryless a b is p < 2 ^ 15 := by
  induction is generalizing p with
  | nil => exact hp
  | cons i is ih =>
    have hshift : a <<< i < 2 ^ 15 :=
      calc a <<< i = a * 2 ^ i := Nat.shiftLeft_eq a i
        _ < 2 ^ 8 * 2 ^ i := Nat.mul_lt_mul_of_pos_right ha (by positivity)
        _ ≤ 2 ^ 8 * 2 ^ 7 := Nat.mul_le_mul_left _ (Nat.pow_le_pow_right two_pos (his i (by simp)))
    refine ih (fun j hj => his j (List.mem_cons_of_mem i hj)) ?_
    split
    · exact Nat.xor_lt_two_pow hp hshift
    · exact hp

/-- Clearing the top bit by the modulus leaves a shorter number. -/
theorem reduce_lt {poly p i : Nat} (hpoly : poly < 2 ^ 9) (htop : poly.testBit 8) (hi : 8 ≤ i)
    (hp : p < 2 ^ (i + 1)) :
    (if p.testBit i then p ^^^ poly <<< (i - 8) else p) < 2 ^ i := by
  refine Nat.lt_pow_two_of_testBit _ fun j hj => ?_
  rcases hj.eq_or_lt with rfl | hj
  · cases hbit : p.testBit i <;> simp [hbit, htop, show i - (i - 8) = 8 by omega]
  · have hpj : p.testBit j = false := Nat.testBit_lt_two_pow (hp.trans_le (Nat.pow_le_pow_right two_pos hj))
    have hmj : poly.testBit (j - (i - 8)) = false :=
      Nat.testBit_lt_two_pow (hpoly.trans_le (Nat.pow_le_pow_right two_pos (by omega)))
    split <;> simp [hpj, hmj]

/-- The second loop clears every bit above the lower eight. -/
theorem reducePoly_lt {poly : Nat} (hpoly : poly < 2 ^ 9) (htop : poly.testBit 8) (k : Nat) {p : Nat}
    (hp : p < 2 ^ (8 + k)) : reducePoly poly (List.range' 8 k).reverse p < 2 ^ 8 := by
  induction k generalizing p with
  | zero => exact hp
  | succ k ih =>
    rw [List.range'_1_concat, List.reverse_concat, reducePoly]
    exact ih (reduce_lt hpoly htop (by omega) hp)

/-! ## The residue ring -/

/-- A byte as a residue modulo the field polynomial. -/
noncomputable def residue (poly : BitVec 9) (b : Byte) : AdjoinRoot (bitPoly poly.toNat) :=
  AdjoinRoot.mk _ (bitPoly b.toNat)

variable (poly : BitVec 9)

theorem residue_zero : residue poly 0 = 0 := by simp [residue]

theorem residue_one : residue poly 1 = 1 := by simp [residue]

theorem residue_xor (a b : Byte) : residue poly (a ^^^ b) = residue poly a + residue poly b := by
  rw [residue, BitVec.toNat_xor, bitPoly_xor, map_add]
  rfl

variable {poly}

/-- Bytes are their own remainders, so no two have the same residue. -/
theorem residue_injective (htop : poly.getLsbD 8 = true) : Function.Injective (residue poly) := by
  intro a b h
  have hdvd : bitPoly poly.toNat ∣ bitPoly a.toNat - bitPoly b.toNat := AdjoinRoot.mk_eq_mk.1 h
  have hcoeff : (bitPoly poly.toNat).coeff 8 ≠ 0 := by
    rw [coeff_bitPoly, if_pos (show poly.toNat.testBit 8 = true from htop)]
    exact one_ne_zero
  have hdeg : (bitPoly a.toNat - bitPoly b.toNat).degree < (bitPoly poly.toNat).degree :=
    ((degree_sub_le _ _).trans_lt (max_lt (degree_bitPoly_lt a.isLt) (degree_bitPoly_lt b.isLt))).trans_le
      (le_degree_of_ne_zero hcoeff)
  exact BitVec.eq_of_toNat_eq (bitPoly_injective (sub_eq_zero.1 (eq_zero_of_dvd_of_degree_lt hdvd hdeg)))

/-- The reference product multiplies residues (41_field.md R130). -/
theorem residue_polymul (htop : poly.getLsbD 8 = true) (a b : Byte) :
    residue poly (polymul poly a b) = residue poly a * residue poly b := by
  have hlt : reducePoly poly.toNat [14, 13, 12, 11, 10, 9, 8] (carryless a.toNat b.toNat [0, 1, 2, 3, 4, 5, 6, 7] 0) <
      2 ^ 8 :=
    reducePoly_lt poly.isLt htop 7 (carryless_lt a.isLt _ (by decide) (by decide))
  have hprod : bitPoly (carryless a.toNat b.toNat [0, 1, 2, 3, 4, 5, 6, 7] 0) = bitPoly a.toNat * bitPoly b.toNat := by
    rw [bitPoly_carryless, bitPoly_zero, zero_add, bitPoly_eq_sum b.isLt]
    rfl
  rw [residue, polymul, BitVec.toNat_ofNat, Nat.mod_eq_of_lt hlt, mk_bitPoly_reducePoly, hprod, map_mul]
  rfl

end Sys2Proof.Machine
end

section
/-! The powers of a legal generator (41_field.md R131 to R133): they are all the non-zero bytes, the 255th is 1, and the
tables hold them and their indices. -/

namespace Sys2Proof.Machine

/-- The generator as a residue modulo the field polynomial. -/
noncomputable def generator (cfg : Config) : AdjoinRoot (bitPoly cfg.fieldPoly.toNat) :=
  residue cfg.fieldPoly cfg.fieldGen

theorem card_byte : Fintype.card Byte = 256 :=
  FinEnum.card_eq_fintypeCard.symm.trans (FinEnum.card_bitVec 8)

section
variable {cfg : Config} (hl : configLegal cfg = true)
include hl

/-- A legal modulus has degree 8 (41_field.md R130). -/
theorem fieldPoly_top : cfg.fieldPoly.getLsbD 8 = true := by
  have h := ((configLegal_iff cfg).1 hl).1
  rw [irreducible, Bool.and_eq_true] at h
  exact h.1

theorem eq_of_residue_eq {a b : Byte} (h : residue cfg.fieldPoly a = residue cfg.fieldPoly b) : a = b :=
  residue_injective (fieldPoly_top hl) h

/-! ## The power walk -/

/-- The walk of 41_field.md R132 lists the powers of the generator. -/
theorem residue_expPowers {i : Nat} (hi : i < 255) :
    residue cfg.fieldPoly ((expPowers cfg)[i]'(by simpa)) = generator cfg ^ i := by
  induction i with
  | zero => exact (residue_one _).trans (pow_zero _).symm
  | succ i ih =>
    have hstep := powersFrom_succ cfg.fieldPoly cfg.fieldGen 255 0x01 i hi
    simp only [expPowers] at ih ⊢
    rw [hstep, residue_polymul (fieldPoly_top hl), ih (by omega), pow_succ]
    rfl

/-! ## The generator is invertible -/

/-- A power past the first is a multiple of the generator. -/
theorem generator_dvd_of_mem_tail {b : Byte} (hb : b ∈ (expPowers cfg).tail) :
    generator cfg ∣ residue cfg.fieldPoly b := by
  obtain ⟨i, hi, rfl⟩ := List.mem_iff_getElem.1 hb
  rw [List.getElem_tail, residue_expPowers hl (by simp at hi; omega)]
  exact dvd_pow_self _ (Nat.succ_ne_zero i)

/-- More than half of all bytes are multiples of the generator, so 1 is the sum of two of them. -/
theorem isUnit_generator : IsUnit (generator cfg) := by
  have hcard : (expPowers cfg).tail.toFinset.card = 254 := by
    rw [List.toFinset_card_of_nodup (nodup_expPowers hl).tail]
    simp
  have hcard' : ((expPowers cfg).tail.toFinset.image fun b => 1 ^^^ b).card = 254 := by
    rw [Finset.card_image_of_injective _ fun b c h => (BitVec.xor_right_inj 1).1 h, hcard]
  have huniv : (Finset.univ : Finset Byte).card = 256 := card_byte
  obtain ⟨b, hb⟩ := Finset.inter_nonempty_of_card_lt_card_add_card
    (Finset.subset_univ (expPowers cfg).tail.toFinset)
    (Finset.subset_univ ((expPowers cfg).tail.toFinset.image fun b => 1 ^^^ b)) (by omega)
  obtain ⟨hb, hb'⟩ := Finset.mem_inter.1 hb
  obtain ⟨c, hc, rfl⟩ := Finset.mem_image.1 hb'
  have hdvd := dvd_add (generator_dvd_of_mem_tail hl (List.mem_toFinset.1 hb))
    (generator_dvd_of_mem_tail hl (List.mem_toFinset.1 hc))
  rw [← residue_xor, BitVec.xor_assoc, BitVec.xor_self, BitVec.xor_zero, residue_one] at hdvd
  exact isUnit_of_dvd_one hdvd

/-- A byte whose residue is invertible is not 0. -/
theorem ne_zero_of_isUnit {a : Byte} (h : IsUnit (residue cfg.fieldPoly a)) : a ≠ 0 := by
  rintro rfl
  rw [residue_zero, isUnit_zero_iff, ← residue_zero cfg.fieldPoly, ← residue_one cfg.fieldPoly] at h
  exact absurd (eq_of_residue_eq hl h) (by decide)

/-- The powers are all the non-zero bytes (41_field.md R131). -/
theorem mem_expPowers_iff (a : Byte) : a ∈ expPowers cfg ↔ a ≠ 0 := by
  have hsub : (expPowers cfg).toFinset ⊆ Finset.univ.erase 0 := by
    intro b hb
    obtain ⟨i, hi, rfl⟩ := List.mem_iff_getElem.1 (List.mem_toFinset.1 hb)
    refine Finset.mem_erase.2 ⟨ne_zero_of_isUnit hl ?_, Finset.mem_univ _⟩
    rw [residue_expPowers hl (by simpa using hi)]
    exact (isUnit_generator hl).pow i
  have hcard : (expPowers cfg).toFinset.card = 255 := by
    rw [List.toFinset_card_of_nodup (nodup_expPowers hl), length_expPowers]
  have heq := Finset.eq_of_subset_of_card_le hsub (by simp [hcard, card_byte])
  rw [← List.mem_toFinset, heq]
  simp

/-- Every non-zero byte is a power with an index below 255. -/
theorem exists_getElem_expPowers {a : Byte} (ha : a ≠ 0) :
    ∃ (i : Nat) (hi : i < 255), (expPowers cfg)[i]'(by simpa) = a := by
  obtain ⟨i, hi, h⟩ := List.mem_iff_getElem.1 ((mem_expPowers_iff hl a).2 ha)
  exact ⟨i, by simpa using hi, h⟩

/-- Distinct indices below 255 give distinct powers. -/
theorem generator_pow_inj {i j : Nat} (hi : i < 255) (hj : j < 255) (h : generator cfg ^ i = generator cfg ^ j) :
    i = j := by
  rw [← residue_expPowers hl hi, ← residue_expPowers hl hj] at h
  exact (nodup_expPowers hl).getElem_inj_iff.1 (eq_of_residue_eq hl h)

/-- The order of the generator divides 255: its next power is one of those listed, and only the first is possible. -/
theorem generator_pow_255 : generator cfg ^ 255 = 1 := by
  have hunit := isUnit_generator hl
  have hnext : residue cfg.fieldPoly (polymul cfg.fieldPoly ((expPowers cfg)[254]'(by simp)) cfg.fieldGen) =
      generator cfg ^ 255 := by
    rw [residue_polymul (fieldPoly_top hl), residue_expPowers hl (by decide)]
    exact (pow_succ _ 254).symm
  obtain ⟨i, hi, hpow⟩ := exists_getElem_expPowers hl (ne_zero_of_isUnit hl (hnext ▸ hunit.pow 255))
  rw [← hpow, residue_expPowers hl hi] at hnext
  have hback : generator cfg ^ (255 - i) = generator cfg ^ 0 := by
    refine (hunit.pow i).mul_left_cancel ?_
    rw [← pow_add, Nat.add_sub_cancel' hi.le, ← hnext, pow_zero, mul_one]
  rcases Nat.eq_zero_or_pos i with rfl | hpos
  · rw [← hnext, pow_zero]
  · have := generator_pow_inj hl (by omega) (by decide) hback
    omega

/-! ## The tables -/

/-- The power table holds the powers, the 255th included (41_field.md R132). -/
theorem residue_expTable {i : Nat} (hi : i < 256) :
    residue cfg.fieldPoly ((expTable cfg)[i]'(by simpa)) = generator cfg ^ i := by
  simp only [expTable, List.getElem_append, length_expPowers]
  split
  · next h => exact residue_expPowers hl h
  · obtain rfl : i = 255 := by omega
    rw [generator_pow_255 hl]
    exact residue_one _

/-- The logarithm table gives back the index of a power (41_field.md R133). -/
theorem logTable_expPowers {i : Nat} (hi : i < 255) :
    ((logTable cfg)[((expPowers cfg)[i]'(by simpa)).toNat]'(by simpa using BitVec.isLt _)).toNat = i := by
  have hlen : i < (expPowers cfg).length := by simpa
  have hindex : indexOf ((expPowers cfg)[i]).toNat (expPowers cfg) 0 = 0 + i :=
    indexOf_getElem _ i hlen 0 fun j hj h => hj.ne ((nodup_expPowers hl).getElem_inj_iff.1 h)
  simp only [logTable, List.getElem_map, List.getElem_range, hindex, BitVec.toNat_ofNat]
  omega

/-- The filler at 0 (41_field.md R133). -/
theorem logTable_zero : (logTable cfg)[0]'(by simp) = 0 := by
  have hindex : indexOf 0 (expPowers cfg) 0 = 0 :=
    indexOf_of_notMem _ _ _ fun b hb h => (mem_expPowers_iff hl b).1 hb (BitVec.eq_of_toNat_eq h)
  simp [logTable, hindex]

end

end Sys2Proof.Machine
end

section
/-! The field functions of a ready block (41_field.md R138, R139): on residues modulo the field polynomial the table
functions are product, quotient and inverse, and from this the statements about them. -/

namespace Sys2Proof.Machine

/-- What has an inverse is not 0 (41_field.md R137). -/
theorem State.ne_zero_of_inverse (s : State) {a x : Byte} (hx : s.inverse a = .ok x) : a ≠ 0 := by
  rintro rfl
  simp [State.inverse] at hx

section
variable {s : State} (h : s.Inv) (hr : s.status.ready = true)
include h hr

/-! ## The table functions on residues -/

theorem State.residue_exp {i : Nat} (hi : i < 256) :
    residue s.cfg.fieldPoly (s.exp i) = generator s.cfg ^ i := by
  rw [State.exp_of_tables h.tables hr hi, residue_expTable h.legal hi]

/-- The logarithm of a non-zero byte is its index among the powers. -/
theorem State.log_spec {a : Byte} (ha : a ≠ 0) :
    s.log a < 255 ∧ residue s.cfg.fieldPoly a = generator s.cfg ^ s.log a := by
  obtain ⟨i, hi, rfl⟩ := exists_getElem_expPowers h.legal ha
  have hlog : s.log ((expPowers s.cfg)[i]'(by simpa)) = i := by
    rw [State.log_of_tables h.tables hr, logTable_expPowers h.legal hi]
  rw [hlog]
  exact ⟨hi, residue_expPowers h.legal hi⟩

/-- The table product multiplies residues (41_field.md R135, R138). -/
theorem State.residue_mul (a b : Byte) :
    residue s.cfg.fieldPoly (s.mul a b) = residue s.cfg.fieldPoly a * residue s.cfg.fieldPoly b := by
  by_cases ha : a = 0
  · rw [ha, s.mul_zero_left, residue_zero, zero_mul]
  by_cases hb : b = 0
  · rw [hb, s.mul_zero_right, residue_zero, mul_zero]
  obtain ⟨-, hpa⟩ := State.log_spec h hr ha
  obtain ⟨-, hpb⟩ := State.log_spec h hr hb
  rw [s.mul_of_ne_zero ha hb, State.residue_exp h hr (by omega), ← pow_eq_pow_mod _ (generator_pow_255 h.legal),
    pow_add, hpa, hpb]

/-- `inverse` gives the reciprocal residue (41_field.md R137, R138). -/
theorem State.residue_inverse {a x : Byte} (hx : s.inverse a = .ok x) :
    residue s.cfg.fieldPoly a * residue s.cfg.fieldPoly x = 1 := by
  have ha := s.ne_zero_of_inverse hx
  obtain ⟨hlt, hpa⟩ := State.log_spec h hr ha
  obtain rfl : s.exp (255 - s.log a) = x := by simpa [s.inverse_of_ne_zero ha] using hx
  rw [State.residue_exp h hr (by omega), hpa, ← pow_add, Nat.add_sub_cancel' hlt.le, generator_pow_255 h.legal]

/-- `div` gives the quotient of residues (41_field.md R136, R138). -/
theorem State.residue_div {a b q : Byte} (hq : s.div a b = .ok q) :
    residue s.cfg.fieldPoly q * residue s.cfg.fieldPoly b = residue s.cfg.fieldPoly a := by
  have hb : b ≠ 0 := fun hb => by simp [State.div, hb] at hq
  rw [s.div_of_ne_zero a hb, Except.ok.injEq] at hq
  by_cases ha : a = 0
  · rw [← hq, if_pos ha, ha, residue_zero, zero_mul]
  obtain ⟨hlta, hpa⟩ := State.log_spec h hr ha
  obtain ⟨hltb, hpb⟩ := State.log_spec h hr hb
  rw [← hq, if_neg ha, State.residue_exp h hr (by omega), hpa, hpb, ← pow_add]
  rcases le_or_gt (s.log b) (s.log a) with hle | hgt
  · congr 1
    omega
  · have hwrap : (((s.log a : Int) - (s.log b : Int)) % 255).toNat + s.log b = s.log a + 255 := by omega
    rw [hwrap, pow_add, generator_pow_255 h.legal, mul_one]

/-! ## Reciprocals and quotients (41_field.md R138, R139) -/

/-- Division multiplies by the inverse. -/
theorem State.div_eq_mul_inverse (a : Byte) {b x : Byte} (hx : s.inverse b = .ok x) : s.div a b = .ok (s.mul a x) := by
  have hdiv := s.div_of_ne_zero a (s.ne_zero_of_inverse hx)
  rw [hdiv, Except.ok.injEq]
  refine eq_of_residue_eq h.legal ?_
  rw [State.residue_mul h hr, ← State.residue_div h hr hdiv, mul_assoc, State.residue_inverse h hr hx, mul_one]

/-- The inverse is the one byte whose product is 1. -/
theorem State.mul_eq_one_iff {a x : Byte} (hx : s.inverse a = .ok x) (y : Byte) : s.mul a y = 1 ↔ y = x := by
  have hax := State.residue_inverse h hr hx
  constructor
  · intro hy
    have hay := congrArg (residue s.cfg.fieldPoly) hy
    rw [State.residue_mul h hr, residue_one] at hay
    exact eq_of_residue_eq h.legal ((IsUnit.of_mul_eq_one _ hax).mul_left_cancel (hay.trans hax.symm))
  · rintro rfl
    exact eq_of_residue_eq h.legal (by rw [State.residue_mul h hr, hax, residue_one])

/-- Inverting is an involution. -/
theorem State.inverse_inverse {a x : Byte} (hx : s.inverse a = .ok x) : s.inverse x = .ok a := by
  have hax := State.residue_inverse h hr hx
  have hinv := s.inverse_of_ne_zero (ne_zero_of_isUnit h.legal (IsUnit.of_mul_eq_one_right _ hax))
  rw [hinv, Except.ok.injEq]
  exact (eq_of_residue_eq h.legal (left_inv_eq_right_inv hax (State.residue_inverse h hr hinv))).symm

end

/-! ## The statements -/

/-- Settles O24: both products have the product's residue. -/
theorem tableProductIsFieldProduct : Obligations.TableProductIsFieldProduct := by
  intro s h hr a b
  refine eq_of_residue_eq h.legal ?_
  rw [State.residue_mul h hr, residue_polymul (fieldPoly_top h.legal)]

/-- Settles O25: division, uniqueness and involution, one clause each. -/
theorem inverseIsTheOnlyInverse : Obligations.InverseIsTheOnlyInverse := by
  intro s h hr
  exact ⟨fun a b x hx => State.div_eq_mul_inverse h hr a hx, fun a x hx y => State.mul_eq_one_iff h hr hx y,
    fun a ha => ⟨_, s.inverse_of_ne_zero ha, State.inverse_inverse h hr (s.inverse_of_ne_zero ha)⟩⟩

/-- Settles O26: the laws hold of residues. -/
theorem fieldLaws : Obligations.FieldLaws := by
  intro s h hr a b c
  have hmul := State.residue_mul h hr
  refine ⟨s.mul_comm a b, ?_, ?_, s.mul_zero_left a, ?_, ?_, (s.div_eq_error_iff a 0 _).2 ⟨rfl, rfl⟩⟩
  · exact eq_of_residue_eq h.legal (by rw [hmul, hmul, hmul, hmul, mul_assoc])
  · exact eq_of_residue_eq h.legal (by rw [hmul, residue_one, one_mul])
  · exact eq_of_residue_eq h.legal (by rw [hmul, residue_xor, residue_xor, hmul, hmul, mul_add])
  · have hq := State.residue_div h hr (s.div_of_ne_zero a (b := 1) (by decide))
    rw [residue_one, mul_one] at hq
    rw [s.div_of_ne_zero a (by decide), eq_of_residue_eq h.legal hq]

end Sys2Proof.Machine
end

section
/-! The tables as the host and LutInit see them (41_field.md R132 to R134, R144): what LutInit's turn leaves in every
byte, and what a read of a table's byte answers. -/

namespace Sys2Proof.Machine

/-! ## The entries of the power table (41_field.md R132) -/

theorem expTable_eq_expPowers (cfg : Config) {i : Nat} (hi : i < 255) :
    (expTable cfg)[i]'(by simp; omega) = (expPowers cfg)[i]'(by simpa) := List.getElem_append_left (by simpa)

theorem expTable_zero (cfg : Config) : (expTable cfg)[0]'(by simp) = 1 := rfl

theorem expTable_last (cfg : Config) : (expTable cfg)[255]'(by simp) = 1 := by simp [expTable]

theorem expTable_succ (cfg : Config) {i : Nat} (hi : i < 254) :
    (expTable cfg)[i + 1]'(by simp; omega) =
      polymul cfg.fieldPoly ((expTable cfg)[i]'(by simp; omega)) cfg.fieldGen := by
  rw [expTable_eq_expPowers cfg (by omega), expTable_eq_expPowers cfg (by omega)]
  exact powersFrom_succ _ _ _ _ i (by omega)

/-! ## LutInit's turn (41_field.md R134) -/

variable {s : State} {addr : Word} {off : Nat} {rest : List Move}

theorem step_lutInit (hl : configLegal s.cfg = true) (hm : s.moves = .lutInit :: rest) :
    step s = .next (lutInitStep { s with moves := rest }) := by
  rw [step_of_due hl (State.due_of_moves hm), hm]
  rfl

/-- LutInit writes the two tables and no other byte. -/
theorem State.byte_fillTables_outside (s : State) {a : Nat} (ha : Claims.outside a 0x1100 512) :
    s.fillTables.byte a = s.byte a := by
  have hstores : s.fillTables.byte a =
      ((s.store logBase (logTable s.cfg)).store expBase (expTable s.cfg)).byte a := rfl
  simp only [Claims.outside] at ha
  rw [hstores, State.byte_store_outside _ _ _ _ (by simp only [length_expTable, expBase]; omega),
    State.byte_store_outside _ _ _ _ (by simp only [length_logTable, logBase]; omega)]

theorem State.exp_fillTables (s : State) {i : Nat} (hi : i < 256) :
    s.fillTables.exp i = (expTable s.cfg)[i]'(by simpa) :=
  State.exp_of_tables s.tablesOk_fillTables rfl hi

theorem State.log_fillTables (s : State) (a : Byte) :
    s.fillTables.log a = ((logTable s.cfg)[a.toNat]'(by simpa using a.isLt)).toNat :=
  State.log_of_tables s.tablesOk_fillTables rfl a

/-- Each entry is the one before times the generator (41_field.md R132). -/
theorem State.exp_succ_fillTables (s : State) {i : Nat} (hi : i < 254) :
    s.fillTables.exp (i + 1) = polymul s.cfg.fieldPoly (s.fillTables.exp i) s.cfg.fieldGen := by
  rw [s.exp_fillTables (by omega), s.exp_fillTables (by omega), expTable_succ _ hi]

/-- The logarithm of a power is its index (41_field.md R133). -/
theorem State.log_exp_fillTables (hl : configLegal s.cfg = true) {i : Nat} (hi : i < 255) :
    s.fillTables.log (s.fillTables.exp i) = i := by
  rw [s.exp_fillTables (by omega), expTable_eq_expPowers _ hi, s.log_fillTables, logTable_expPowers hl hi]

/-- Settles O23: the bytes of the two windows are the entries of the tables. -/
theorem lutInitFillsTheTables : Obligations.LutInitFillsTheTables := by
  intro s rest hl hm
  rw [step_lutInit hl hm]
  refine ⟨fun hr => ?_, fun hr => ?_⟩
  · exact congrArg _ (lutInitStep_of_ready hr)
  · have hfill : lutInitStep { s with moves := rest } = State.fillTables { s with moves := rest } :=
      lutInitStep_of_unready hr
    rw [hfill]
    refine ⟨_, rfl, rfl, ?_, ?_, fun i hi => State.exp_succ_fillTables _ hi,
      fun i hi => State.log_exp_fillTables hl hi, ?_, fun a ha => State.byte_fillTables_outside _ ha⟩
    · exact (State.exp_fillTables _ (by decide)).trans (expTable_zero _)
    · exact (State.exp_fillTables _ (by decide)).trans (expTable_last _)
    · exact BitVec.eq_of_toNat_eq ((State.log_fillTables _ 0).trans (congrArg BitVec.toNat (logTable_zero hl)))

/-! ## Host reads of the tables (41_field.md R144) -/

/-- A due read of a byte that the tables list, from a block that is ready and idle, answers that byte and changes
nothing else. -/
theorem step_read_table_byte (h : s.Inv) (hr : s.status.ready = true) (hb : s.status.busy = false)
    (hm : s.moves = .host (.read addr .byte1) :: rest) (ha : Claims.atOffset s addr off)
    (hoff : 0x1100 ≤ off ∧ off < 0x1300) {b : Byte} (hread : Memory.read s.mem off = some b) :
    step s = .next { s with moves := rest, responses := .readOk (BitVec.ofNat 32 b.toNat) :: s.responses } := by
  have hgen : s.genUnspecified off = false := s.genUnspecified_eq_false (by omega)
  have hbyte : s.byte off = b := by simp [State.byte, hgen, hread]
  have hspec : s.specified off = true := by simp [State.specified, hgen, hread]
  have herr : busError s.cfg off .byte1 = false := by
    rw [busError_eq_false_iff, Ne, regionOf_unmapped_iff]
    simp only [Size.bytes]
    omega
  have hdata : composeLE ((offsets off .byte1).map s.byte) = BitVec.ofNat 32 b.toNat := by
    rw [composeLE_offsets]
    simp [Size.bytes, Claims.littleEndian, hbyte]
  rw [step_read h.legal ha hm, State.hostRead_bytes { s with moves := rest } herr (by omega)
    (State.readDraws_idle _ hb hr) fun i hi => ?_]
  · exact congrArg (fun d => Host.Outcome.next (State.respond { s with moves := rest } (.readOk d))) hdata
  · obtain rfl : i = 0 := by simp only [Size.bytes] at hi; omega
    exact hspec

/-- Settles O47: the invariant says which bytes the two windows list. -/
theorem hostReadsTheTables : Obligations.HostReadsTheTables := by
  intro s addr i rest h hr hb hi hm
  obtain ⟨hexp, hlog⟩ := h.tables hr
  refine ⟨fun ha => step_read_table_byte h hr hb hm ha (by omega) ((hexp i hi).trans ?_),
    fun ha => step_read_table_byte h hr hb hm ha (by omega) ((hlog i hi).trans ?_)⟩
  all_goals rw [List.getD_eq_getElem _ _ (by simpa), List.getElem?_eq_getElem]

end Sys2Proof.Machine
end

section
/-! The matrix commands (42_matrix.md R171 to R174): what each answers where no check fails, what the write of its
destination leaves, and which check each error comes from. -/

namespace Sys2Proof.Machine

variable {s : State} {d a b : MatSel}

/-! ## Sums and sources -/

/-- The statements' field sum is the model's. -/
theorem fieldSum_eq_xorSum (n : Nat) (f : Nat → Byte) : Claims.fieldSum n f = xorSum ((List.range n).map f) :=
  List.foldr_map.symm

/-- A source the statements call invalid is one the check refuses (42_matrix.md R160). -/
theorem invalidSource_iff_validMat : Claims.invalidSource s a ↔ ¬ s.validMat a = true := by
  rw [s.validMat_iff, Claims.invalidSource]
  omega

/-- An element of a source read whole is its byte (10_state.md R47). -/
theorem State.entry_readMat (s : State) (a : MatSel) {r c : Nat} (hr : r < s.rows a) (hc : c < s.cols a) :
    (s.readMat a).entry r c = s.byte (matBase a + (r * s.cols a + c)) :=
  Mat.entry_tabulate _ _ _ hr hc

/-- A row number is out of range exactly when some `IDX` byte is (42_matrix.md R172). -/
theorem State.any_rowList_iff (s : State) (t rows : Nat) :
    (s.rowList t).any (fun r => decide (rows ≤ r)) = true ↔ ∃ j < t, rows ≤ (s.byte (idxBase + j)).toNat := by
  simp [State.rowList, State.idx]

/-! ## What the commands answer where no operand check fails -/

theorem exec_matGen_of_legal (hk : 1 ≤ s.count0) (hm : 1 ≤ s.count1) (hn : s.count0 + s.count1 ≤ 256) :
    exec (.matGen d) s = .next
      ((s.writeMat d (s.count0 + s.count1) s.count0 (s.buildGenerator s.count0 s.count1)).complete .ok) := by
  rw [exec, execMatGen, if_neg (by omega), finish_ok]

theorem exec_matSub_of_legal (hv : s.validMat a = true) (h1 : 1 ≤ s.count0) (h2 : s.count0 ≤ 256)
    (hidx : ∀ j < s.count0, (s.byte (idxBase + j)).toNat < s.rows a) :
    exec (.matSub d a) s = .next ((s.writeMat d s.count0 (s.cols a)
      ((s.readMat a).submatrix (s.cols a) (s.rowList s.count0))).complete .ok) := by
  have hany : ¬ (s.rowList s.count0).any (fun r => decide (s.rows a ≤ r)) = true := by
    rw [s.any_rowList_iff]
    exact fun ⟨j, hj, hle⟩ => (hidx j hj).not_ge hle
  rw [exec, execMatSub, if_neg (not_not.2 hv), if_neg (by omega), if_neg hany, finish_ok]

section
variable (hv : s.validMat a = true) (hsq : s.rows a = s.cols a)
include hv hsq

theorem exec_matInv_of_inverse {R : Mat} (hR : s.gjInvert (s.rows a) (s.readMat a) = some R) :
    exec (.matInv d a) s = .next ((s.writeMat d (s.rows a) (s.rows a) R).complete .ok) := by
  rw [exec, execMatInv, if_neg (not_or.2 ⟨not_not.2 hv, not_not.2 hsq⟩), hR]
  rfl

theorem exec_matInv_of_singular (hnone : s.gjInvert (s.rows a) (s.readMat a) = none) :
    exec (.matInv d a) s = .next (s.complete .singularMatrix) := by
  rw [exec, execMatInv, if_neg (not_or.2 ⟨not_not.2 hv, not_not.2 hsq⟩), hnone]
  rfl

end

theorem exec_matMul_of_legal (hva : s.validMat a = true) (hvb : s.validMat b = true) (hin : s.cols a = s.rows b) :
    exec (.matMul d a b) s = .next ((s.writeMat d (s.rows a) (s.cols b)
      (s.matmul (s.rows a) (s.cols a) (s.cols b) (s.readMat a) (s.readMat b))).complete .ok) := by
  rw [exec, execMatMul, if_neg (not_or.2 ⟨not_not.2 hva, not_not.2 hvb⟩), if_neg (not_not.2 hin), finish_ok]

/-! ## What a successful matrix command leaves (R162) -/

/-- A command that completes the write of its destination leaves the elements there, row-major, the dimensions and the
completion status, and nothing else. -/
theorem exec_writes_destination {i : Instr} {rows cols : Nat} {R : Mat}
    (h : exec i s = .next ((s.writeMat d rows cols R).complete .ok)) {f : Nat → Nat → Byte}
    (hf : ∀ r < rows, ∀ c < cols, R.entry r c = f r c) :
    ∃ t, exec i s = .next t ∧
      t = { Claims.completed s 0 with
            mem := t.mem, matRows := s.matRows.set d.toFin (BitVec.ofNat 9 rows)
            matCols := s.matCols.set d.toFin (BitVec.ofNat 9 cols) } ∧
      (∀ r < rows, ∀ c < cols, t.byte (matBase d + (r * cols + c)) = f r c) ∧
      (∀ x, Claims.outside x (matBase d) (rows * cols) → t.byte x = s.byte x) := by
  refine ⟨_, h, rfl, fun r hr c hc => ?_, fun x hx => ?_⟩
  · rw [State.byte_complete, s.byte_writeMat_inside d rows cols R hr hc, hf r hr c hc]
  · rw [State.byte_complete, s.byte_writeMat_outside d rows cols R x hx]

/-! ## The statements -/

/-- Settles O27: the destination's elements are the generator's. -/
theorem matGenWritesTheGenerator : Obligations.MatGenWritesTheGenerator := by
  rintro d s _ _ rfl rfl hk hm hn
  exact exec_writes_destination (exec_matGen_of_legal hk hm hn) fun _ _ _ _ => rfl

/-- Settles O28: an element of the row submatrix is the source's byte in the row that `IDX` names. -/
theorem matSubWritesTheRows : Obligations.MatSubWritesTheRows := by
  rintro d a s _ _ rfl rfl hr1 hr2 hq1 hq2 hn1 hn2 hidx
  refine exec_writes_destination
    (exec_matSub_of_legal ((s.validMat_iff a).2 ⟨hr1, hr2, hq1, hq2⟩) hn1 hn2 hidx) fun j hj c hc => ?_
  have hlen : j < (s.rowList s.count0).length := by simpa [State.rowList] using hj
  have hrow : (s.rowList s.count0)[j] = (s.byte (0x1000 + j)).toNat := by simp [State.rowList, State.idx]
  rw [Mat.entry_submatrix _ _ _ hlen hc, hrow, s.entry_readMat a (hidx j hj) hc]

/-- Settles O29: the procedure's result is what the command writes. -/
theorem matInvWritesTheInverse : Obligations.MatInvWritesTheInverse := by
  rintro d a s _ R rfl hsq hn1 hn2 hR
  have hv : s.validMat a = true := (s.validMat_iff a).2 ⟨hn1, hn2, by omega, by omega⟩
  exact exec_writes_destination (exec_matInv_of_inverse hv hsq.symm hR) fun _ _ _ _ => rfl

/-- Settles O30: an element of the product is the field sum over the bytes of the two sources. -/
theorem matMulWritesTheProduct : Obligations.MatMulWritesTheProduct := by
  rintro d a b s _ _ _ rfl rfl hin rfl hp1 hp2 hq1 hq2 hr1 hr2
  have hva : s.validMat a = true := (s.validMat_iff a).2 ⟨hp1, hp2, hq1, hq2⟩
  have hvb : s.validMat b = true := (s.validMat_iff b).2 ⟨by omega, by omega, hr1, hr2⟩
  refine exec_writes_destination (exec_matMul_of_legal hva hvb hin) fun i hi j hj => ?_
  rw [s.entry_matmul _ _ _ _ _ hi hj, fieldSum_eq_xorSum]
  refine congrArg xorSum (List.map_congr_left fun l hl => ?_)
  have hl : l < s.cols a := List.mem_range.1 hl
  rw [s.entry_readMat a hi hl, s.entry_readMat b (hin ▸ hl) hj]

/-- Settles O31: each clause's condition is that of one check, and the checks before it pass. -/
theorem matCommandErrors : Obligations.MatCommandErrors := by
  intro d a b s
  simp only [invalidSource_iff_validMat, not_not]
  refine ⟨fun h => ?gen, fun h => ?sub, fun hv h1 h2 hidx => ?index, fun h => ?inv, fun hv hsq hnone => ?singular,
    fun h => ?mul⟩
  case gen =>
    have hcounts : s.count0 = 0 ∨ s.count1 = 0 ∨ s.count0 + s.count1 > 256 := h
    rw [exec, execMatGen, if_pos hcounts]
    rfl
  case sub =>
    by_cases hv : s.validMat a = true
    · have hcount : s.count0 < 1 ∨ s.count0 > 256 := by
        have := h.resolve_left (not_not.2 hv)
        simp only [State.count0]
        omega
      rw [exec, execMatSub, if_neg (not_not.2 hv), if_pos hcount]
      rfl
    · rw [exec, execMatSub, if_pos hv]
      rfl
  case index =>
    have hcount : ¬ (s.count0 < 1 ∨ s.count0 > 256) := by
      simp only [State.count0]
      omega
    rw [exec, execMatSub, if_neg (not_not.2 hv), if_neg hcount, if_pos ((s.any_rowList_iff s.count0 _).2 hidx)]
    rfl
  case inv =>
    rw [exec, execMatInv, if_pos h]
    rfl
  case singular => exact exec_matInv_of_singular hv hsq hnone
  case mul =>
    by_cases hv : ¬ s.validMat a = true ∨ ¬ s.validMat b = true
    · rw [exec, execMatMul, if_pos hv]
      rfl
    · have hin : s.cols a ≠ s.rows b := by tauto
      rw [exec, execMatMul, if_neg hv, if_pos hin]
      rfl

end Sys2Proof.Machine
end

section
/-! The Gauss-Jordan procedure (42_matrix.md R165, R166). Each row operation loses no solution of the homogeneous system
that the scratch matrix stands for, read modulo the field polynomial. What the reduced matrix solves, the augmented one
therefore solves: the columns of the result, and a non-zero vector when a column has no pivot. -/

namespace Sys2Proof.Machine

open Finset

/-! ## Rows and entries after a row operation -/

/-- A matrix has `rows` rows of `cols` entries each. -/
structure Mat.HasShape (W : Mat) (rows cols : Nat) : Prop where
  length : W.length = rows
  width : ∀ r < rows, (W.getD r []).length = cols

variable {W : Mat} {n w : Nat}

theorem Mat.hasShape_tabulate (rows cols : Nat) (f : Nat → Nat → Byte) :
    (Mat.tabulate rows cols f).HasShape rows cols := by
  refine ⟨by simp [Mat.tabulate], fun r hr => ?_⟩
  simp [Mat.tabulate, List.getD, hr]

theorem Mat.getD_set (W : Mat) (i : Nat) (row : List Byte) {r : Nat} (hi : i < W.length) :
    List.getD (List.set W i row) r [] = if r = i then row else W.getD r [] := by
  by_cases hr : i = r
  · simp [List.getD, ← hr, hi]
  · simp [List.getD, hr, Ne.symm hr]

/-- An exchange of two rows stays among the rows. -/
theorem swap_lt {i j r : Nat} (hi : i < n) (hj : j < n) (hr : r < n) : Equiv.swap i j r < n := by
  rw [Equiv.swap_apply_def]
  split_ifs
  · exact hj
  · exact hi
  · exact hr

/-- The rows of an exchange. -/
theorem Mat.getD_swapRows (W : Mat) {i j : Nat} (hi : i < W.length) (hj : j < W.length) (r : Nat) :
    List.getD (W.swapRows i j) r [] = W.getD (Equiv.swap i j r) [] := by
  rw [Mat.swapRows, Mat.getD_set _ _ _ (by simpa), Mat.getD_set _ _ _ hi, Equiv.swap_apply_def]
  split_ifs with h1 h2 h2
  · rw [← h1, h2]
  · rfl
  · rfl
  · rfl

theorem Mat.entry_swapRows (W : Mat) {i j : Nat} (hi : i < W.length) (hj : j < W.length) (r c : Nat) :
    (W.swapRows i j).entry r c = W.entry (Equiv.swap i j r) c := by
  rw [Mat.entry, W.getD_swapRows hi hj, Mat.entry]

section
variable (s : State)

/-- The rows after a row is scaled. -/
theorem State.getD_normalise {col : Nat} (hcol : col < W.length) (r : Nat) :
    List.getD (s.normalise W col) r [] =
      if r = col then (W.getD col []).map (s.mul (s.invNonzero (W.entry col col))) else W.getD r [] :=
  Mat.getD_set _ _ _ hcol

theorem State.entry_normalise {col : Nat} (hcol : col < W.length) (r c : Nat) :
    (s.normalise W col).entry r c =
      if r = col then s.mul (s.invNonzero (W.entry col col)) (W.entry col c) else W.entry r c := by
  rw [Mat.entry, s.getD_normalise hcol]
  split
  · rw [← s.mul_zero_right (s.invNonzero (W.entry col col)), List.getD_map]
    rfl
  · rfl

/-- The rows after a column is eliminated. -/
theorem State.getD_eliminate (W : Mat) (col : Nat) {r : Nat} (hr : r < W.length) :
    List.getD (s.eliminate W col) r [] =
      if r = col then W.getD r []
      else List.zipWith (fun x y => x ^^^ s.mul (W.entry r col) y) (W.getD r []) (W.getD col []) := by
  simp [State.eliminate, List.getD, hr, Mat.entry]

theorem State.entry_eliminate (hW : W.HasShape n w) {col r c : Nat} (hcol : col < n) (hr : r < n) (hc : c < w) :
    (s.eliminate W col).entry r c =
      if r = col then W.entry r c else W.entry r c ^^^ s.mul (W.entry r col) (W.entry col c) := by
  rw [Mat.entry, s.getD_eliminate W col (hW.length.symm ▸ hr)]
  split
  · rfl
  · have hcr : c < (W.getD r []).length := by rwa [hW.width r hr]
    have hcc : c < (W.getD col []).length := by rwa [hW.width col hcol]
    rw [List.getD_eq_getElem _ _ (by rw [List.length_zipWith]; exact lt_min hcr hcc), List.getElem_zipWith,
      ← List.getD_eq_getElem _ 0 hcr, ← List.getD_eq_getElem _ 0 hcc]
    rfl

theorem Mat.HasShape.swapRows (hW : W.HasShape n w) {i j : Nat} (hi : i < n) (hj : j < n) :
    (W.swapRows i j).HasShape n w := by
  refine ⟨by simp [Mat.swapRows, hW.length], fun r hr => ?_⟩
  rw [W.getD_swapRows (hW.length.symm ▸ hi) (hW.length.symm ▸ hj)]
  exact hW.width _ (swap_lt hi hj hr)

theorem Mat.HasShape.normalise (hW : W.HasShape n w) {col : Nat} (hcol : col < n) :
    (s.normalise W col).HasShape n w := by
  refine ⟨by simp [State.normalise, hW.length], fun r hr => ?_⟩
  rw [s.getD_normalise (hW.length.symm ▸ hcol)]
  split
  · rw [List.length_map, hW.width col hcol]
  · exact hW.width r hr

theorem Mat.HasShape.eliminate (hW : W.HasShape n w) {col : Nat} (hcol : col < n) :
    (s.eliminate W col).HasShape n w := by
  refine ⟨by simp [State.eliminate, hW.length], fun r hr => ?_⟩
  rw [s.getD_eliminate W col (hW.length.symm ▸ hr)]
  split
  · exact hW.width r hr
  · rw [List.length_zipWith, hW.width r hr, hW.width col hcol, Nat.min_self]

end

/-! ## Solutions survive backwards -/

/-- The matrix, its entries read modulo the field polynomial, maps the column `y` to 0. -/
def Mat.Annihilates (poly : BitVec 9) (n w : Nat) (W : Mat) (y : Nat → AdjoinRoot (bitPoly poly.toNat)) : Prop :=
  ∀ r < n, ∑ c ∈ range w, residue poly (W.entry r c) * y c = 0

/-- An exchange only renumbers the equations. -/
theorem Mat.Annihilates.of_swapRows {poly : BitVec 9} {y : Nat → AdjoinRoot (bitPoly poly.toNat)} (hW : W.HasShape n w)
    {i j : Nat} (hi : i < n) (hj : j < n) (h : (W.swapRows i j).Annihilates poly n w y) : W.Annihilates poly n w y := by
  intro r hr
  have hrow := h _ (swap_lt hi hj hr)
  simpa only [W.entry_swapRows (hW.length.symm ▸ hi) (hW.length.symm ▸ hj), Equiv.swap_apply_self] using hrow

section
variable {s : State} (h : s.Inv) (hr : s.status.ready = true)
include h hr

theorem State.mul_invNonzero {a : Byte} (ha : a ≠ 0) : s.mul a (s.invNonzero a) = 1 :=
  (State.mul_eq_one_iff h hr (s.inverse_of_ne_zero ha) _).2 rfl

variable {y : Nat → AdjoinRoot (bitPoly s.cfg.fieldPoly.toNat)}

/-- The scaled equation, times the pivot, is the equation before. -/
theorem Mat.Annihilates.of_normalise (hW : W.HasShape n w) {col : Nat} (hcol : col < n) (hp : W.entry col col ≠ 0)
    (hy : (s.normalise W col).Annihilates s.cfg.fieldPoly n w y) : W.Annihilates s.cfg.fieldPoly n w y := by
  intro r hrn
  have hrow := hy r hrn
  simp only [s.entry_normalise (hW.length.symm ▸ hcol)] at hrow
  by_cases hrc : r = col
  · subst hrc
    simp only [if_true, State.residue_mul h hr, mul_assoc, ← mul_sum] at hrow
    have hscaled := congrArg (residue s.cfg.fieldPoly (W.entry r r) * ·) hrow
    simpa only [← mul_assoc, ← State.residue_mul h hr, State.mul_invNonzero h hr hp, residue_one, one_mul,
      mul_zero] using hscaled
  · simpa only [if_neg hrc] using hrow

/-- The pivot's equation is untouched, and its multiples taken from the others are 0. -/
theorem Mat.Annihilates.of_eliminate (hW : W.HasShape n w) {col : Nat} (hcol : col < n)
    (hy : (s.eliminate W col).Annihilates s.cfg.fieldPoly n w y) : W.Annihilates s.cfg.fieldPoly n w y := by
  have hentry : ∀ r < n, ∑ c ∈ range w, residue s.cfg.fieldPoly ((s.eliminate W col).entry r c) * y c =
      ∑ c ∈ range w, residue s.cfg.fieldPoly
        (if r = col then W.entry r c else W.entry r c ^^^ s.mul (W.entry r col) (W.entry col c)) * y c :=
    fun r hrn => sum_congr rfl fun c hc => by rw [s.entry_eliminate hW hcol hrn (mem_range.1 hc)]
  have hpivot : ∑ c ∈ range w, residue s.cfg.fieldPoly (W.entry col c) * y c = 0 := by
    have hrow := hy col hcol
    simpa only [hentry col hcol, if_true] using hrow
  intro r hrn
  by_cases hrc : r = col
  · exact hrc ▸ hpivot
  · have hrow := hy r hrn
    simpa only [hentry r hrn, if_neg hrc, residue_xor, State.residue_mul h hr, add_mul, sum_add_distrib, mul_assoc,
      ← mul_sum, hpivot, mul_zero, add_zero] using hrow

end

/-! ## Columns already reduced -/

/-- The first `k` columns are those of the identity. -/
def Mat.UnitColumns (n k : Nat) (W : Mat) : Prop := ∀ c < k, ∀ r < n, W.entry r c = if r = c then 1 else 0

/-- An exchange of rows from `i` on moves no 1 of the first `i` columns. -/
theorem Mat.UnitColumns.swapRows (hW : W.HasShape n w) {i j : Nat} (hij : i ≤ j) (hj : j < n)
    (hu : W.UnitColumns n i) : (W.swapRows i j).UnitColumns n i := by
  intro c hc r hr
  have hi : i < n := hij.trans_lt hj
  rw [W.entry_swapRows (hW.length.symm ▸ hi) (hW.length.symm ▸ hj), hu c hc _ (swap_lt hi hj hr)]
  simp only [Equiv.swap_apply_eq_iff, Equiv.swap_apply_of_ne_of_ne hc.ne (hc.trans_le hij).ne]

theorem Mat.UnitColumns.normalise (s : State) (hW : W.HasShape n w) {col : Nat} (hcol : col < n)
    (hu : W.UnitColumns n col) : (s.normalise W col).UnitColumns n col := by
  intro c hc r hr
  rw [s.entry_normalise (hW.length.symm ▸ hcol)]
  split
  · next hrc => rw [hu c hc col hcol, if_neg hc.ne', if_neg (hrc ▸ hc.ne'), s.mul_zero_right]
  · exact hu c hc r hr

section
variable {s : State} (h : s.Inv) (hr : s.status.ready = true)
include h hr

theorem State.mul_one_right (a : Byte) : s.mul a 1 = a := by
  obtain ⟨-, -, hone, -⟩ := fieldLaws s h hr a 0 0
  rw [s.mul_comm, hone]

/-- Scaling makes the pivot 1. -/
theorem State.entry_normalise_pivot (hW : W.HasShape n w) {col : Nat} (hcol : col < n) (hp : W.entry col col ≠ 0) :
    (s.normalise W col).entry col col = 1 := by
  rw [s.entry_normalise (hW.length.symm ▸ hcol), if_pos rfl, s.mul_comm, State.mul_invNonzero h hr hp]

/-- Elimination below and above a pivot 1 reduces one column more. -/
theorem Mat.UnitColumns.eliminate (hW : W.HasShape n w) {col : Nat} (hcol : col < n) (hcw : col < w)
    (hp : W.entry col col = 1) (hu : W.UnitColumns n col) : (s.eliminate W col).UnitColumns n (col + 1) := by
  intro c hc r hrn
  rw [s.entry_eliminate hW hcol hrn (by omega)]
  rcases (Nat.lt_succ_iff.1 hc).eq_or_lt with rfl | hc
  · split
    · next hrc => exact hrc ▸ hp
    · rw [hp, State.mul_one_right h hr]
      exact BitVec.xor_self
  · rw [hu c hc r hrn, hu c hc col hcol, if_neg hc.ne', s.mul_zero_right]
    split
    · rfl
    · exact BitVec.xor_zero

end

/-! ## The loop over the columns -/

section
variable {col r : Nat}

/-- A column's pivot is a non-zero entry on or below the diagonal (R165, R166). -/
theorem Mat.pivotRow_eq_some (hcol : col < n) (hp : W.pivotRow n col = some r) :
    col ≤ r ∧ r < n ∧ W.entry r col ≠ 0 := by
  rw [Mat.pivotRow] at hp
  split at hp
  · next hd =>
    obtain rfl := Option.some.inj hp
    exact ⟨le_rfl, hcol, hd⟩
  · have hmem := List.mem_range.1 (List.mem_of_find?_eq_some hp)
    have htest := List.find?_some hp
    simp only [Bool.and_eq_true, decide_eq_true_eq, bne_iff_ne] at htest
    exact ⟨htest.1.le, hmem, htest.2⟩

/-- Without a pivot the column is 0 from the diagonal down. -/
theorem Mat.pivotRow_eq_none (hp : W.pivotRow n col = none) (hcr : col ≤ r) (hr : r < n) : W.entry r col = 0 := by
  rw [Mat.pivotRow] at hp
  split at hp
  · cases hp
  · next hd =>
    rcases hcr.eq_or_lt with rfl | hcr
    · exact not_not.1 hd
    · simpa [hcr] using List.find?_eq_none.1 hp r (List.mem_range.2 hr)

end

/-- The scratch matrix before column `k`: its shape, and its first `k` columns reduced. -/
structure Mat.Reduced (n k : Nat) (W : Mat) : Prop where
  shape : W.HasShape n (2 * n)
  unit : W.UnitColumns n k

/-- One column's row operations. -/
def State.gjStep (s : State) (W : Mat) (col r : Nat) : Mat :=
  s.eliminate (s.normalise (W.swapRows col r) col) col

theorem State.gjColumns_of_pivot (s : State) {col r : Nat} (cols : List Nat) (hp : W.pivotRow n col = some r) :
    s.gjColumns n (col :: cols) W = s.gjColumns n cols (s.gjStep W col r) := by
  rw [State.gjColumns, hp]
  rfl

theorem State.gjColumns_of_no_pivot (s : State) {col : Nat} (cols : List Nat) (hp : W.pivotRow n col = none) :
    s.gjColumns n (col :: cols) W = none := by
  rw [State.gjColumns, hp]

section
variable {s : State} (h : s.Inv) (hr : s.status.ready = true)
include h hr

/-- One column's operations reduce one column more and lose no solution. -/
theorem State.gjStep_spec {col r : Nat} (hW : W.Reduced n col) (hcol : col < n) (hp : W.pivotRow n col = some r) :
    (s.gjStep W col r).Reduced n (col + 1) ∧
      ∀ y, (s.gjStep W col r).Annihilates s.cfg.fieldPoly n (2 * n) y →
        W.Annihilates s.cfg.fieldPoly n (2 * n) y := by
  obtain ⟨hle, hrn, hne⟩ := Mat.pivotRow_eq_some hcol hp
  have hswap := hW.shape.swapRows hcol hrn
  have hscale := hswap.normalise s hcol
  have hpivot : (W.swapRows col r).entry col col ≠ 0 := by
    rwa [W.entry_swapRows (hW.shape.length.symm ▸ hcol) (hW.shape.length.symm ▸ hrn), Equiv.swap_apply_left]
  have hone := State.entry_normalise_pivot h hr hswap hcol hpivot
  have hunit := (hW.unit.swapRows hW.shape hle hrn).normalise s hswap hcol
  refine ⟨⟨hscale.eliminate s hcol, hunit.eliminate h hr hscale hcol (by omega) hone⟩, fun y hy => ?_⟩
  exact ((hy.of_eliminate h hr hscale hcol).of_normalise h hr hswap hcol hpivot).of_swapRows hW.shape hcol hrn

/-- When every column has a pivot the loop ends in a reduced matrix whose solutions are solutions of the first. -/
theorem State.gjColumns_eq_some {W' : Mat} (m : Nat) {col : Nat} (hn : col + m = n) (hW : W.Reduced n col)
    (hg : s.gjColumns n (List.range' col m) W = some W') :
    W'.Reduced n n ∧ ∀ y, W'.Annihilates s.cfg.fieldPoly n (2 * n) y → W.Annihilates s.cfg.fieldPoly n (2 * n) y := by
  induction m generalizing col W with
  | zero =>
    obtain rfl : W = W' := Option.some.inj hg
    obtain rfl : col = n := hn
    exact ⟨hW, fun _ hy => hy⟩
  | succ m ih =>
    rw [List.range'_succ] at hg
    cases hp : W.pivotRow n col with
    | none => rw [s.gjColumns_of_no_pivot _ hp] at hg; cases hg
    | some r =>
      rw [s.gjColumns_of_pivot _ hp] at hg
      obtain ⟨hstep, hback⟩ := State.gjStep_spec h hr hW (by omega) hp
      obtain ⟨hred, hsol⟩ := ih (by omega) hstep hg
      exact ⟨hred, fun y hy => hback y (hsol y hy)⟩

end

/-- The vector that a column without a pivot makes a solution: the column's entries above the diagonal, then 1. -/
def Mat.kernelVector (W : Mat) (col j : Nat) : Byte := if j < col then W.entry j col else if j = col then 1 else 0

theorem residue_add_self (poly : BitVec 9) (a : Byte) : residue poly a + residue poly a = 0 := by
  rw [← residue_xor, BitVec.xor_self]
  exact residue_zero poly

/-- The reduced columns times the upper part give the column again, so the sum is 0. -/
theorem Mat.annihilates_kernelVector (poly : BitVec 9) {col : Nat} (hW : W.Reduced n col) (hcol : col < n)
    (hp : W.pivotRow n col = none) :
    W.Annihilates poly n (2 * n) fun j => residue poly (W.kernelVector col j) := by
  intro r hr
  have hterm : ∀ c, residue poly (W.entry r c) * residue poly (W.kernelVector col c) =
      (if c = r then if r < col then residue poly (W.entry r col) else 0 else 0) +
        if c = col then residue poly (W.entry r col) else 0 := by
    intro c
    rw [Mat.kernelVector]
    rcases lt_trichotomy c col with hc | rfl | hc
    · rw [hW.unit c hc r hr, if_pos hc, if_neg hc.ne, add_zero]
      by_cases hrc : c = r
      · rw [if_pos hrc, if_pos hrc.symm, if_pos (hrc ▸ hc), hrc, residue_one, one_mul]
      · rw [if_neg hrc, if_neg (Ne.symm hrc), residue_zero, zero_mul]
    · rw [if_neg (lt_irrefl c), if_pos rfl, if_pos rfl, residue_one, mul_one, ← ite_and,
        if_neg (by omega), zero_add]
    · rw [if_neg hc.not_gt, if_neg hc.ne', if_neg hc.ne', residue_zero, mul_zero, ← ite_and,
        if_neg (by omega), add_zero]
  simp only [hterm, sum_add_distrib, sum_ite_eq', mem_range, if_pos (show r < 2 * n by omega),
    if_pos (show col < 2 * n by omega)]
  split
  · exact residue_add_self poly _
  · next hrc => rw [Mat.pivotRow_eq_none hp (not_lt.1 hrc) hr, residue_zero, add_zero]

section
variable {s : State} (h : s.Inv) (hr : s.status.ready = true)
include h hr

/-- When some column has no pivot, a non-zero vector of the first `n` columns is a solution. -/
theorem State.gjColumns_eq_none (m : Nat) {col : Nat} (hn : col + m = n) (hW : W.Reduced n col)
    (hg : s.gjColumns n (List.range' col m) W = none) :
    ∃ x : Nat → Byte, (∃ j < n, x j ≠ 0) ∧ (∀ j, n ≤ j → x j = 0) ∧
      W.Annihilates s.cfg.fieldPoly n (2 * n) fun j => residue s.cfg.fieldPoly (x j) := by
  induction m generalizing col W with
  | zero => cases hg
  | succ m ih =>
    have hcol : col < n := by omega
    rw [List.range'_succ] at hg
    cases hp : W.pivotRow n col with
    | none =>
      refine ⟨W.kernelVector col, ⟨col, hcol, ?_⟩, fun j hj => ?_, Mat.annihilates_kernelVector _ hW hcol hp⟩
      · simp [Mat.kernelVector]
      · rw [Mat.kernelVector, if_neg (by omega), if_neg (by omega)]
    | some r =>
      rw [s.gjColumns_of_pivot _ hp] at hg
      obtain ⟨hstep, hback⟩ := State.gjStep_spec h hr hW hcol hp
      obtain ⟨x, hne, hzero, hx⟩ := ih (by omega) hstep hg
      exact ⟨x, hne, hzero, hback _ hx⟩

end

/-! ## From the augmented matrix to the result -/

theorem Mat.reduced_augment (M : Mat) (n : Nat) : (M.augment n).Reduced n 0 :=
  ⟨Mat.hasShape_tabulate _ _ _, fun _ hc => absurd hc (Nat.not_lt_zero _)⟩

section
variable {poly : BitVec 9} {y : Nat → AdjoinRoot (bitPoly poly.toNat)}

/-- A solution of `[ M | I ]` is a solution of `M z = -t`, its lower half `z` and its upper half `t`. -/
theorem Mat.Annihilates.of_augment {M : Mat} (hy : (M.augment n).Annihilates poly n (2 * n) y) {i : Nat} (hi : i < n) :
    ∑ l ∈ range n, residue poly (M.entry i l) * y l + y (n + i) = 0 := by
  have hrow := hy i hi
  rw [two_mul, sum_range_add] at hrow
  rw [← hrow]
  congr 1
  · refine sum_congr rfl fun l hl => ?_
    have hl : l < n := mem_range.1 hl
    rw [Mat.augment, Mat.entry_tabulate _ _ _ hi (by omega), if_pos hl]
  · have hterm : ∀ l ∈ range n, residue poly ((M.augment n).entry i (n + l)) * y (n + l) =
        if l = i then y (n + i) else 0 := by
      intro l hl
      have hl : l < n := mem_range.1 hl
      rw [Mat.augment, Mat.entry_tabulate _ _ _ hi (by omega), if_neg (by omega), Nat.add_sub_cancel_left]
      split
      · next hli => rw [hli, residue_one, one_mul]
      · rw [residue_zero, zero_mul]
    rw [sum_congr rfl hterm, sum_ite_eq', if_pos (mem_range.2 hi)]

/-- The solution of `[ I | R ]` for column `j` of `R`: the column in its lower half, the unit vector `j` in its upper. -/
def Mat.columnVector (W : Mat) (n j c : Nat) : Byte :=
  if c < n then W.entry c (n + j) else if c = n + j then 1 else 0

theorem Mat.columnVector_lower (W : Mat) (j : Nat) {c : Nat} (hc : c < n) : W.columnVector n j c = W.entry c (n + j) :=
  if_pos hc

theorem Mat.columnVector_upper (W : Mat) (n j c : Nat) : W.columnVector n j (n + c) = if c = j then 1 else 0 := by
  simp [Mat.columnVector]

/-- Both halves give the entry of `R`, so the sum is 0. -/
theorem Mat.Reduced.annihilates_columnVector (hW : W.Reduced n n) {j : Nat} (hj : j < n) :
    W.Annihilates poly n (2 * n) fun c => residue poly (W.columnVector n j c) := by
  intro r hr
  have hlower : ∀ c ∈ range n, residue poly (W.entry r c) * residue poly (W.columnVector n j c) =
      if c = r then residue poly (W.entry r (n + j)) else 0 := by
    intro c hc
    have hc : c < n := mem_range.1 hc
    rw [W.columnVector_lower j hc, hW.unit c hc r hr]
    by_cases hrc : c = r
    · rw [if_pos hrc.symm, if_pos hrc, hrc, residue_one, one_mul]
    · rw [if_neg (Ne.symm hrc), if_neg hrc, residue_zero, zero_mul]
  have hupper : ∀ c ∈ range n, residue poly (W.entry r (n + c)) * residue poly (W.columnVector n j (n + c)) =
      if c = j then residue poly (W.entry r (n + j)) else 0 := by
    intro c _
    rw [W.columnVector_upper]
    split
    · next hcj => rw [hcj, residue_one, mul_one]
    · rw [residue_zero, mul_zero]
  rw [two_mul, sum_range_add, sum_congr rfl hlower, sum_congr rfl hupper, sum_ite_eq', sum_ite_eq',
    if_pos (mem_range.2 hr), if_pos (mem_range.2 hj), residue_add_self]

end

/-- The field sum adds residues (00_scope.md R9). -/
theorem residue_fieldSum (poly : BitVec 9) (n : Nat) (f : Nat → Byte) :
    residue poly (Claims.fieldSum n f) = ∑ i ∈ range n, residue poly (f i) := by
  rw [fieldSum_eq_xorSum]
  induction n with
  | zero => exact residue_zero poly
  | succ n ih => rw [xorSum_range_succ, residue_xor, ih, sum_range_succ]

theorem Mat.entry_map_drop (W : Mat) (n r c : Nat) :
    Mat.entry (W.map fun row => row.drop n) r c = W.entry r (n + c) := by
  rw [Mat.entry, Mat.entry, ← List.drop_nil, List.getD_map]
  simp [List.getD]

section
variable {s : State} (h : s.Inv) (hr : s.status.ready = true)
include h hr

/-- The result's columns solve the systems of the unit vectors (42_matrix.md R165). -/
theorem State.residue_gjInvert {M R : Mat} (hg : s.gjInvert n M = some R) {i j : Nat} (hi : i < n) (hj : j < n) :
    ∑ l ∈ range n, residue s.cfg.fieldPoly (M.entry i l) * residue s.cfg.fieldPoly (R.entry l j) =
      if i = j then 1 else 0 := by
  obtain ⟨W, hW, rfl⟩ := Option.map_eq_some_iff.1 hg
  rw [List.range_eq_range'] at hW
  obtain ⟨hred, hback⟩ := State.gjColumns_eq_some h hr n (Nat.zero_add n) (M.reduced_augment n) hW
  have hsol := (hback _ (hred.annihilates_columnVector hj)).of_augment hi
  have hcolumn : ∀ l ∈ range n, residue s.cfg.fieldPoly (M.entry i l) *
      residue s.cfg.fieldPoly (Mat.entry (W.map fun row => row.drop n) l j) =
        residue s.cfg.fieldPoly (M.entry i l) * residue s.cfg.fieldPoly (W.columnVector n j l) := by
    intro l hl
    rw [W.entry_map_drop, W.columnVector_lower j (mem_range.1 hl)]
  rw [W.columnVector_upper] at hsol
  rw [sum_congr rfl hcolumn]
  by_cases hij : i = j
  · rw [if_pos hij] at hsol
    have htwo := residue_add_self s.cfg.fieldPoly 1
    rw [if_pos hij, add_right_cancel (hsol.trans htwo.symm), residue_one]
  · rw [if_neg hij, residue_zero, add_zero] at hsol
    rw [hsol, if_neg hij]

/-- A vector that a singular matrix maps to 0 (42_matrix.md R166). -/
theorem State.exists_kernel_of_gjInvert_eq_none {M : Mat} (hg : s.gjInvert n M = none) :
    ∃ x : Nat → Byte, (∃ j < n, x j ≠ 0) ∧
      ∀ i < n, ∑ l ∈ range n, residue s.cfg.fieldPoly (M.entry i l) * residue s.cfg.fieldPoly (x l) = 0 := by
  have hW := Option.map_eq_none_iff.1 hg
  rw [List.range_eq_range'] at hW
  obtain ⟨x, hne, hzero, hx⟩ := State.gjColumns_eq_none h hr n (Nat.zero_add n) (M.reduced_augment n) hW
  refine ⟨x, hne, fun i hi => ?_⟩
  have hsol := hx.of_augment hi
  rwa [hzero _ (Nat.le_add_right n i), residue_zero, add_zero] at hsol

end

/-- Settles O32: both clauses hold of residues, and residues tell bytes apart. -/
theorem gaussJordanInverts : Obligations.GaussJordanInverts := by
  intro s n M h hr
  refine ⟨fun R hR i hi j hj => eq_of_residue_eq h.legal ?_, fun hnone => ?_⟩
  · simp only [residue_fieldSum, State.residue_mul h hr, State.residue_gjInvert h hr hR hi hj]
    split
    · exact (residue_one _).symm
    · exact (residue_zero _).symm
  · obtain ⟨x, hne, hx⟩ := State.exists_kernel_of_gjInvert_eq_none h hr hnone
    refine ⟨x, hne, fun i hi => eq_of_residue_eq h.legal ?_⟩
    simp only [residue_fieldSum, State.residue_mul h hr, hx i hi, residue_zero]

end Sys2Proof.Machine
end

section
/-! The Vandermonde and the generator matrix (42_matrix.md R163, R164, R169, R170). Modulo the field polynomial the
rows of the Vandermonde matrix are the powers of distinct residues, so any `k` of them are invertible; the generator is
the Vandermonde matrix times the inverse of its top, and what is claimed of it follows from this product. -/

namespace Sys2Proof.Machine

/-! ## Rows of a matrix over the residues -/

/-- The rows numbered `rows i` of a matrix, its entries read modulo the field polynomial. -/
noncomputable def Mat.residues (poly : BitVec 9) (M : Mat) (cols : Nat) {ι : Type} (rows : ι → Nat) :
    Matrix ι (Fin cols) (AdjoinRoot (bitPoly poly.toNat)) :=
  Matrix.of fun i c => residue poly (M.entry (rows i) c)

@[simp] theorem Mat.residues_apply (poly : BitVec 9) (M : Mat) {cols : Nat} {ι : Type} (rows : ι → Nat) (i : ι)
    (c : Fin cols) : M.residues poly cols rows i c = residue poly (M.entry (rows i) c) := rfl

/-- The rows of a row submatrix are the rows listed (42_matrix.md R168). -/
theorem Mat.residues_submatrix (poly : BitVec 9) (M : Mat) {k : Nat} (sel : List Nat) (hk : sel.length = k) :
    (M.submatrix k sel).residues poly k (fun i : Fin k => (i : Nat)) =
      M.residues poly k fun i : Fin k => sel[i]'(hk.symm ▸ i.isLt) := by
  ext i c
  rw [Mat.residues_apply, Mat.residues_apply, Mat.entry_submatrix _ _ _ (hk.symm ▸ i.isLt) c.isLt]
  rfl

/-- The top block is the first `k` rows. -/
theorem Mat.residues_top (poly : BitVec 9) (M : Mat) (k : Nat) :
    (M.submatrix k (List.range k)).residues poly k (fun i : Fin k => (i : Nat)) =
      M.residues poly k fun i : Fin k => (i : Nat) := by
  rw [Mat.residues_submatrix poly M (List.range k) List.length_range]
  simp only [Fin.getElem_fin, List.getElem_range]

section
variable {s : State} (h : s.Inv) (hr : s.status.ready = true)
include h hr

/-- Rows of a product are rows of the left factor times the right one (42_matrix.md R167). -/
theorem State.residues_matmul {p q t : Nat} (A B : Mat) {ι : Type} {rows : ι → Nat} (hrows : ∀ i, rows i < p) :
    (s.matmul p q t A B).residues s.cfg.fieldPoly t rows =
      A.residues s.cfg.fieldPoly q rows * B.residues s.cfg.fieldPoly t fun l : Fin q => (l : Nat) := by
  ext i c
  simp only [Matrix.mul_apply, Mat.residues_apply, s.entry_matmul _ _ _ _ _ (hrows i) c.isLt, ← fieldSum_eq_xorSum,
    residue_fieldSum, State.residue_mul h hr]
  exact Finset.sum_range _

/-! ## Invertible matrices and the procedure -/

/-- The procedure's result is the inverse. -/
theorem State.residues_gjInvert {n : Nat} {M R : Mat} (hg : s.gjInvert n M = some R) :
    M.residues s.cfg.fieldPoly n (fun i : Fin n => (i : Nat)) *
      R.residues s.cfg.fieldPoly n (fun i : Fin n => (i : Nat)) = 1 := by
  ext i j
  rw [Matrix.mul_apply, Matrix.one_apply]
  simp only [Mat.residues_apply, Fin.ext_iff]
  rw [← State.residue_gjInvert h hr hg i.isLt j.isLt, Finset.sum_range]

/-- An invertible matrix maps no non-zero vector to 0, so the procedure finds every pivot. -/
theorem State.gjInvert_isSome {n : Nat} {M : Mat}
    (hM : IsUnit (M.residues s.cfg.fieldPoly n fun i : Fin n => (i : Nat))) : (s.gjInvert n M).isSome = true := by
  rw [Option.isSome_iff_ne_none]
  intro hnone
  obtain ⟨x, ⟨j, hj, hne⟩, hx⟩ := State.exists_kernel_of_gjInvert_eq_none h hr hnone
  have hker : (M.residues s.cfg.fieldPoly n fun i : Fin n => (i : Nat)).mulVec
      (fun l => residue s.cfg.fieldPoly (x l)) = 0 := by
    ext i
    rw [Pi.zero_apply, ← hx i i.isLt, Finset.sum_range]
    rfl
  have hzero := Matrix.mulVec_injective_of_isUnit hM (hker.trans (Matrix.mulVec_zero _).symm)
  exact hne (eq_of_residue_eq h.legal ((congrFun hzero ⟨j, hj⟩).trans (residue_zero _).symm))

/-! ## Powers and the Vandermonde matrix (R163, R164) -/

theorem State.residue_power (x : Byte) (e : Nat) :
    residue s.cfg.fieldPoly (Claims.power s x e) = residue s.cfg.fieldPoly x ^ e := by
  induction e with
  | zero => exact (residue_one _).trans (pow_zero _).symm
  | succ e ih => rw [Claims.power, State.residue_mul h hr, ih, pow_succ']

theorem State.residue_gpow (x : Byte) (e : Nat) :
    residue s.cfg.fieldPoly (s.gpow x e) = residue s.cfg.fieldPoly x ^ e := by
  rw [State.gpow]
  split
  · next he => rw [he, pow_zero, residue_one]
  · next he =>
    split
    · next hx => rw [hx, residue_zero, zero_pow he]
    · next hx =>
      rw [State.residue_exp h hr (by omega), ← pow_eq_pow_mod _ (generator_pow_255 h.legal), pow_mul,
        ← (State.log_spec h hr hx).2]

theorem State.gpow_eq_power (x : Byte) (e : Nat) : s.gpow x e = Claims.power s x e :=
  eq_of_residue_eq h.legal ((State.residue_gpow h hr x e).trans (State.residue_power h hr x e).symm)

theorem State.entry_vandermonde {n k r c : Nat} (hrn : r < n) (hc : c < k) :
    (s.vandermonde n k).entry r c = Claims.power s (BitVec.ofNat 8 r) c := by
  rw [State.vandermonde, Mat.entry_tabulate _ _ _ hrn hc, State.gpow_eq_power h hr]

/-- Residues of distinct bytes differ by a unit. -/
theorem State.isUnit_residue_sub {a b : Byte} (hab : a ≠ b) :
    IsUnit (residue s.cfg.fieldPoly a - residue s.cfg.fieldPoly b) := by
  have hne : a ^^^ b ≠ 0 := fun h0 => hab (BitVec.xor_eq_zero_iff.1 h0)
  have hsub : residue s.cfg.fieldPoly a - residue s.cfg.fieldPoly b = residue s.cfg.fieldPoly (a ^^^ b) := by
    rw [residue_xor, sub_eq_iff_eq_add, add_assoc, residue_add_self, add_zero]
  rw [hsub]
  exact IsUnit.of_mul_eq_one _ (State.residue_inverse h hr (s.inverse_of_ne_zero hne))

/-- Any `k` distinct rows of the Vandermonde matrix are invertible: their determinant is a product of differences of
distinct points. -/
theorem State.isUnit_residues_vandermonde {n k : Nat} (hn : n ≤ 256) {rows : Fin k → Nat} (hrows : ∀ i, rows i < n)
    (hinj : Function.Injective rows) : IsUnit ((s.vandermonde n k).residues s.cfg.fieldPoly k rows) := by
  have hvander : (s.vandermonde n k).residues s.cfg.fieldPoly k rows =
      Matrix.vandermonde fun i => residue s.cfg.fieldPoly (BitVec.ofNat 8 (rows i)) := by
    ext i c
    rw [Mat.residues_apply, State.entry_vandermonde h hr (hrows i) c.isLt, State.residue_power h hr]
    rfl
  rw [hvander, Matrix.isUnit_iff_isUnit_det, Matrix.det_vandermonde]
  refine IsUnit.prod_iff.2 fun i _ => IsUnit.prod_iff.2 fun j hj => State.isUnit_residue_sub h hr fun hij => ?_
  have hpoints := congrArg BitVec.toNat hij
  rw [BitVec.toNat_ofNat, BitVec.toNat_ofNat, Nat.mod_eq_of_lt ((hrows j).trans_le hn),
    Nat.mod_eq_of_lt ((hrows i).trans_le hn)] at hpoints
  exact (Finset.mem_Ioi.1 hj).ne' (hinj hpoints)

/-! ## The generator (R169, R170) -/

/-- The top block of the Vandermonde matrix has an inverse, and the generator is the Vandermonde matrix times it. -/
theorem State.exists_topInverse {k m : Nat} (hn : k + m ≤ 256) :
    ∃ T : Matrix (Fin k) (Fin k) (AdjoinRoot (bitPoly s.cfg.fieldPoly.toNat)),
      (s.vandermonde (k + m) k).residues s.cfg.fieldPoly k (fun i : Fin k => (i : Nat)) * T = 1 ∧
      ∀ {ι : Type} {rows : ι → Nat}, (∀ i, rows i < k + m) →
        (s.buildGenerator k m).residues s.cfg.fieldPoly k rows =
          (s.vandermonde (k + m) k).residues s.cfg.fieldPoly k rows * T := by
  have htop : IsUnit ((s.vandermonde (k + m) k).residues s.cfg.fieldPoly k fun i : Fin k => (i : Nat)) :=
    State.isUnit_residues_vandermonde h hr hn (fun i => by omega) Fin.val_injective
  rw [← Mat.residues_top] at htop
  obtain ⟨T, hT⟩ := Option.isSome_iff_exists.1 (State.gjInvert_isSome h hr htop)
  refine ⟨T.residues s.cfg.fieldPoly k fun i : Fin k => (i : Nat), ?_, fun hrows => ?_⟩
  · rw [← Mat.residues_top, State.residues_gjInvert h hr hT]
  · rw [State.buildGenerator, State.topInverse, hT, State.residues_matmul h hr _ _ hrows]

end

/-! ## The statements -/

/-- Settles O55: both sides have the same power of the point's residue. -/
theorem vandermondeRowsArePowers : Obligations.VandermondeRowsArePowers :=
  fun _ h hr => ⟨State.gpow_eq_power h hr, fun _ _ _ _ _ hrn hc => State.entry_vandermonde h hr hrn hc⟩

/-- Settles O33: the top of the generator is the Vandermonde matrix's top times its inverse. -/
theorem generatorTopIsIdentity : Obligations.GeneratorTopIsIdentity := by
  intro s k m h hr _ _ hn r hrk c hck
  obtain ⟨T, hT, hgen⟩ := State.exists_topInverse h hr hn
  have htop := hgen (rows := fun i : Fin k => (i : Nat)) fun i => by omega
  have hentry := congrFun (congrFun (htop.trans hT) ⟨r, hrk⟩) ⟨c, hck⟩
  rw [Mat.residues_apply, Matrix.one_apply] at hentry
  refine eq_of_residue_eq h.legal (hentry.trans ?_)
  simp only [Fin.mk.injEq]
  split
  · exact (residue_one _).symm
  · exact (residue_zero _).symm

/-- Settles O34: rows of the generator are invertible as rows of the Vandermonde matrix are. -/
theorem anyGeneratorRowsAreInvertible : Obligations.AnyGeneratorRowsAreInvertible := by
  intro s k m sel h hr _ _ hn hlen hnd hsel
  obtain ⟨T, hT, hgen⟩ := State.exists_topInverse h hr hn
  have hrows : ∀ i : Fin k, sel[i]'(hlen.symm ▸ i.isLt) < k + m := fun i => hsel _ (List.getElem_mem _)
  have hinj : Function.Injective fun i : Fin k => sel[i]'(hlen.symm ▸ i.isLt) :=
    fun i j hij => Fin.ext (hnd.getElem_inj_iff.1 hij)
  refine State.gjInvert_isSome h hr ?_
  rw [Mat.residues_submatrix _ _ sel hlen, hgen hrows]
  exact (State.isUnit_residues_vandermonde h hr hn hrows hinj).mul (IsUnit.of_mul_eq_one_right _ hT)

/-- Settles O56: the inverse of the top times the top is the identity as well, so the generator times the Vandermonde
matrix's top is the whole Vandermonde matrix. -/
theorem generatorFollowsThePoints : Obligations.GeneratorFollowsThePoints := by
  intro s k m h hr _ _ hn r hrn c hck
  obtain ⟨T, hT, hgen⟩ := State.exists_topInverse h hr hn
  have hprod := hgen (rows := fun i : Fin (k + m) => (i : Nat)) fun i => i.isLt
  have hback : (s.buildGenerator k m).residues s.cfg.fieldPoly k (fun i : Fin (k + m) => (i : Nat)) *
      (s.vandermonde (k + m) k).residues s.cfg.fieldPoly k (fun i : Fin k => (i : Nat)) =
        (s.vandermonde (k + m) k).residues s.cfg.fieldPoly k fun i : Fin (k + m) => (i : Nat) := by
    rw [hprod, Matrix.mul_assoc, mul_eq_one_comm.1 hT, Matrix.mul_one]
  have hentry := congrFun (congrFun hback ⟨r, hrn⟩) ⟨c, hck⟩
  rw [Matrix.mul_apply] at hentry
  simp only [Mat.residues_apply] at hentry
  refine eq_of_residue_eq h.legal ?_
  rw [← State.entry_vandermonde h hr hrn hck, ← hentry, residue_fieldSum, Finset.sum_range]
  refine Finset.sum_congr rfl fun j _ => ?_
  rw [State.residue_mul h hr, State.entry_vandermonde h hr (by omega) hck]

end Sys2Proof.Machine
end

section
/-! The configuration and `GEN` (43_codec.md R200, R201): what a successful CODEC_NEW leaves, that the generator matrix
depends on the configuration and on the bytes of the tables and of `GEN` alone, and from this that every step keeps
it. -/

namespace Sys2Proof.Machine

variable {s t u : State} {i : Instr} {k m : Nat}

/-! ## What CODEC_NEW leaves (R201) -/

/-- A legal count fits its register (10_state.md R38). -/
theorem toNat_count {c : Nat} (hc : c ≤ 256) : (BitVec.ofNat 9 c).toNat = c := by
  rw [BitVec.toNat_ofNat]
  omega

section
variable (s : State) (hn : k + m ≤ 256)
include hn

theorem State.k_configure : (s.configure k m).k = k := toNat_count (by omega)

theorem State.m_configure : (s.configure k m).m = m := toNat_count (by omega)

theorem State.n_configure : (s.configure k m).n = k + m := by
  rw [State.n, s.k_configure hn, s.m_configure hn]

/-- The configured matrix, row-major from the start of `GEN` (R200). -/
theorem State.byte_configure_inside (R : Mat) {r c : Nat} (hr : r < k + m) (hc : c < k) :
    ((s.store genBase (R.bytes (k + m) k)).configure k m).byte (genBase + (r * k + c)) = R.entry r c := by
  have hlt := rowMajor_lt hr hc
  have hlen : r * k + c < (R.bytes (k + m) k).length := by rwa [Mat.length_bytes]
  rw [State.byte_gen _ rfl (by rwa [State.n_configure _ hn, State.k_configure _ hn]), State.configure_mem,
    State.store_mem, Memory.read_store_inside _ _ _ _ hlen, Option.getD_some, Mat.getElem_bytes R hc hlen]

end

theorem exec_codecNew_of_legal (hk : 1 ≤ s.count0) (hm : 1 ≤ s.count1) (hn : s.count0 + s.count1 ≤ 256) :
    exec .codecNew s = .next (((s.store genBase
      ((s.buildGenerator s.count0 s.count1).bytes (s.count0 + s.count1) s.count0)).configure
        s.count0 s.count1).complete .ok) := by
  rw [exec, execCodecNew, if_neg (by omega), finish_ok]

/-- Settles O35: the command's writes are the matrix in `GEN` and the configuration. -/
theorem codecNewConfigures : Obligations.CodecNewConfigures := by
  rintro s _ _ rfl rfl hk hm hn
  refine ⟨_, exec_codecNew_of_legal hk hm hn, rfl, toNat_count (le_self_add.trans hn),
    toNat_count (le_add_self.trans hn), fun r hr c hc => ?_, fun a ha => ?_⟩
  · rw [State.byte_complete]
    exact s.byte_configure_inside hn _ hr hc
  · rw [State.byte_complete]
    exact s.byte_configure_outside_gen _ hn ha

/-! ## What `GenOk` depends on -/

/-- The configured matrix ends inside `GEN` (10_state.md R46). -/
theorem State.ConfigOk.generator_end_le (h : s.ConfigOk) : genBase + s.n * s.k ≤ 0x20000 := by
  cases hv : s.status.cfgValid with
  | true =>
    have hsize : s.n * s.k ≤ 0x10000 := generator_size_le (h.valid hv).2.2
    simp only [genBase]
    omega
  | false => simp [(h.none hv).1, genBase]

/-- A state with the same configuration and the same bytes from the tables to the end of the configured matrix. -/
theorem State.GenOk.congr (h : s.GenOk) (hk : t.cfgK = s.cfgK) (hm : t.cfgM = s.cfgM)
    (hv : t.status.cfgValid = s.status.cfgValid)
    (hb : ∀ a, 0x1100 ≤ a → a < genBase + s.n * s.k → t.byte a = s.byte a) : t.GenOk := by
  intro hvt r hr c hc
  have htk : t.k = s.k := congrArg BitVec.toNat hk
  have htm : t.m = s.m := congrArg BitVec.toNat hm
  have htables := sameTables_of_bytes fun a h1 h2 => hb a h1 (by simp only [genBase]; omega)
  rw [State.n, htk, htm] at hr
  rw [htk] at hc
  have hoff : r * s.k + c < s.n * s.k := rowMajor_lt hr hc
  rw [State.gen, htk, htm, htables.buildGenerator, hb _ (by simp only [genBase]; omega) (by omega)]
  exact h (hv.symm.trans hvt) r hr c hc

/-- Without a configuration `GEN` need hold nothing. -/
theorem State.GenOk.of_unconfigured (hv : s.status.cfgValid = false) : s.GenOk :=
  fun h => Bool.noConfusion (hv.symm.trans h)

/-! ## The generator through each move -/

/-- The matrix CODEC_NEW writes is that of the configuration it sets: the tables are not written. -/
theorem State.genOk_configure (s : State) (hn : k + m ≤ 256) :
    ((s.store genBase ((s.buildGenerator k m).bytes (k + m) k)).configure k m).GenOk := by
  intro _ r hr c hc
  have htables := sameTables_of_bytes fun a _ h2 =>
    s.byte_configure_outside_gen (s.buildGenerator k m) hn (a := a) (.inl (by omega))
  rw [State.n_configure _ hn] at hr
  rw [State.k_configure _ hn] at hc
  rw [State.gen, State.k_configure _ hn, State.m_configure _ hn, htables.buildGenerator,
    s.byte_configure_inside hn _ hr hc]

/-- The writes of every successful command: those of all but CODEC_NEW keep off the tables and `GEN`. -/
theorem State.Success.genOk (hu : s.Success i u) (h : s.GenOk) (hc : s.ConfigOk) : u.GenOk := by
  by_cases hi : i = .codecNew
  · subst hi
    cases hu with
    | field r hi => simp at hi
    | matrix d rows cols R hr hc hi => simp at hi
    | configure k m hk hm hn => exact s.genOk_configure hn
    | shards len sh hv hl hsh hnd hi => simp at hi
  · obtain ⟨hk, hm, hv, hgen⟩ := hu.config_eq hi
    refine h.congr hk hm hv fun a _ h2 => ?_
    have hend := h2.trans_le hc.generator_end_le
    rcases lt_or_ge a 0x10000 with ha | ha
    · exact hu.byte_below_gen ha
    · exact hgen a ha hend

theorem State.GenOk.complete (h : s.GenOk) (e : ErrorCode) : (s.complete e).GenOk :=
  h.congr rfl rfl rfl fun _ _ _ => rfl

theorem State.GenOk.coreStep (h : s.GenOk) (hc : s.ConfigOk) (ht : coreStep s = .next t) : t.GenOk := by
  rcases coreStep_completes ht with ⟨-, rfl⟩ | ⟨-, e, -, rfl⟩ | ⟨-, i, u, -, hu, rfl⟩
  · exact h
  · exact h.complete e
  · exact (hu.genOk h hc).complete .ok

/-- Every host write that is no bus error: only a writable window is stored to, and neither `GEN` nor the tables lie in
one (20_memory.md R60). -/
theorem State.GenOk.writeEffect (h : s.GenOk) (hinv : s.Inv) {off : Nat} {size : Size} (v : Word)
    (hok : busError s.cfg off size = false) : (s.writeEffect off size v).GenOk := by
  have halign := ((busError_eq_false_iff _ _ _).1 hok).1
  rcases s.writeEffect_cases off size v with ⟨-, hw⟩ | ⟨-, -, hw⟩ | ⟨-, -, hw⟩ | ⟨-, -, -, hw⟩ |
    ⟨-, -, -, -, hw⟩ | ⟨hreg, -, hw⟩ | ⟨-, -, -, hw⟩ <;> rw [hw]
  iterate 4 · exact h.congr rfl rfl rfl fun _ _ _ => rfl
  · rw [s.writeReg_frame]
    exact h.congr rfl rfl rfl fun _ _ _ => rfl
  · refine h.congr rfl rfl rfl fun a h1 h2 => State.byte_store_outside _ _ _ _ ?_
    have hend := h2.trans_le hinv.config.generator_end_le
    by_contra hin
    rw [length_splitLE] at hin
    have hmem := (writable_bytes hinv.legal hreg halign (x := a) (by omega) (by omega)).2
    omega
  · exact h

theorem State.GenOk.hostStep (h : s.GenOk) (hinv : s.Inv) {a : Access} (ht : hostStep a s = .next t) : t.GenOk := by
  rcases hostStep_effect ht with ht | ⟨off, size, v, hok, rfl⟩
  · rw [ht]
    exact h.congr rfl rfl rfl fun _ _ _ => rfl
  · exact (h.writeEffect hinv v hok).congr rfl rfl rfl fun _ _ _ => rfl

/-- LutInit writes the tables before any configuration is held (41_field.md R134). -/
theorem State.GenOk.lutInitStep (h : s.GenOk) (hinv : s.Inv) : (lutInitStep s).GenOk := by
  cases hr : s.status.ready with
  | true =>
    rw [lutInitStep_of_ready hr]
    exact h
  | false =>
    rw [lutInitStep_of_unready hr]
    exact .of_unconfigured (hinv.status.unready hr).2.2

/-- Settles O53, by the move that is due: `GEN` holds the generator matrix after each agent's turn. -/
theorem stepKeepsGenerator : Obligations.StepKeepsGenerator := by
  intro s t hinv h ht
  have hs : State.Inv { s with moves := s.moves.tail } := hinv.congr rfl rfl rfl rfl rfl rfl rfl
  have hg : State.GenOk { s with moves := s.moves.tail } := h.congr rfl rfl rfl fun _ _ _ => rfl
  rcases step_cases ht with ⟨-, ⟨-, rfl⟩ | ⟨move, -, ht⟩⟩
  · exact h
  · cases move with
    | host a => exact hg.hostStep hs ht
    | core => exact hg.coreStep hs.config ht
    | lutInit =>
      obtain rfl := Host.Outcome.next.inj ht
      exact hg.lutInitStep hs
    | reset =>
      obtain rfl := Host.Outcome.next.inj ht
      exact .of_unconfigured rfl

end Sys2Proof.Machine
end

section
/-! The encoder and the decoder (43_codec.md R203 to R206): what each answers where no check fails, what the shards it
puts into slots leave, and which check each error of a codec command comes from. -/

namespace Sys2Proof.Machine

variable {s : State} {len : Nat}

/-! ## The length check (R203) -/

/-- The check of a non-empty list, the same for every slot of it. -/
theorem State.lenOk_iff_forall {l : List Nat} (hl : l ≠ []) :
    s.lenOk l = true ↔
      ∀ x ∈ l, 1 ≤ s.len x ∧ s.len x ≤ s.cfg.shardMaxLen ∧ ∀ y ∈ l, s.len x = s.len y := by
  cases l with
  | nil => exact absurd rfl hl
  | cons first rest =>
    rw [s.lenOk_iff]
    refine ⟨fun ⟨h1, h2, heq⟩ x hx => ?_, fun h => ?_⟩
    · rw [heq x hx]
      exact ⟨h1, h2, fun y hy => (heq y hy).symm⟩
    · obtain ⟨h1, h2, heq⟩ := h first (List.mem_cons_self ..)
      exact ⟨h1, h2, fun y hy => (heq y hy).symm⟩

/-- Slots of one valid length pass the check. -/
theorem State.lenOk_of_forall_eq {l : List Nat} (hl : l ≠ []) (h1 : 1 ≤ len) (h2 : len ≤ s.cfg.shardMaxLen)
    (heq : ∀ x ∈ l, s.len x = len) : s.lenOk l = true := by
  refine (State.lenOk_iff_forall hl).2 fun x hx => ?_
  rw [heq x hx]
  exact ⟨h1, h2, fun y hy => (heq y hy).symm⟩

/-- A length is a register's value (10_state.md R42). -/
theorem State.len_lt (s : State) (x : Nat) : s.len x < 2 ^ 32 := BitVec.isLt _

/-- A non-empty list's first element is one of it. -/
theorem headD_mem {l : List Nat} (hl : l ≠ []) (d : Nat) : l.headD d ∈ l := by
  cases l with
  | nil => exact absurd rfl hl
  | cons x xs => exact List.mem_cons_self ..

/-! ## The bytes of a shard -/

/-- A byte of a parity shard (R204). -/
theorem State.getD_parityRow (s : State) (r : Nat) (data : Nat → Nat → Byte) {c : Nat} (hc : c < len) :
    (s.parityRow r len data).getD c 0 = Claims.fieldSum s.k fun j => s.mul (s.gen (s.k + r) j) (data j c) := by
  rw [fieldSum_eq_xorSum]
  simp [State.parityRow, List.getD, hc]

/-- A byte of a rebuilt shard is one of the encoding of the recovered data (R206). -/
theorem State.getD_rebuiltRow (s : State) (data : Mat) (slot : Nat) {c : Nat} (hc : c < len) :
    (s.rebuiltRow data len slot).getD c 0 = Claims.encodedByte s data.entry slot c := by
  rw [State.rebuiltRow, Claims.encodedByte]
  split
  · rfl
  · next hslot => rw [s.getD_parityRow _ _ hc, Nat.add_sub_cancel' (not_lt.1 hslot)]

/-- A byte of a recovered data shard (R206). -/
theorem State.entry_recovered (s : State) (Dm : Mat) (sel : List Nat) {i c : Nat} (hi : i < s.k) (hc : c < len) :
    (s.recovered Dm sel len).entry i c =
      Claims.fieldSum s.k fun j => s.mul (Dm.entry i j) (s.byte (s.shardBase (sel.getD j 0) + c)) := by
  rw [State.recovered, Mat.entry_tabulate _ _ _ hi hc, fieldSum_eq_xorSum]
  rfl

/-! ## What the commands answer where no check fails -/

section
variable (hv : s.status.cfgValid = true)
include hv

theorem exec_encode_of_legal (hcount : s.count0 = s.k) (hlen : s.lenOk (List.range s.k) = true) :
    exec .encode s = .next ((s.putShards (s.len 0)
      ((List.range s.m).map fun r => (s.k + r, s.parityRow r (s.len 0) s.shard))).complete .ok) := by
  rw [exec, execEncode, if_neg (not_not.2 hv), if_neg (not_not.2 hcount), if_neg (not_not.2 hlen), finish_ok]

theorem exec_reconstruct_of_inverse (hcount : s.count0 = s.n) (hk : s.k ≤ s.presentSlots.length)
    (hlen : s.lenOk s.presentSlots = true) {sel : List Nat} (hsel : sel = s.presentSlots.take s.k)
    (hhead : s.len (s.presentSlots.headD 0) = len) {Dm : Mat}
    (hDm : s.gjInvert s.k (s.readGen.submatrix s.k sel) = some Dm) :
    exec .reconstruct s = .next ((s.putShards len
      (s.missingSlots.map fun i => (i, s.rebuiltRow (s.recovered Dm sel len) len i))).complete .ok) := by
  subst hsel hhead
  rw [exec, execReconstruct, if_neg (not_not.2 hv), if_neg (not_not.2 hcount), if_neg (not_lt.2 hk),
    if_neg (not_not.2 hlen)]
  dsimp only
  rw [hDm, finish_ok]

end

/-! ## What a successful command leaves -/

/-- A command that completes shards put into distinct slots leaves their bytes, their length and the completion status,
and nothing else. -/
theorem exec_writes_shards {i : Instr} {sh : List (Nat × List Byte)}
    (h : exec i s = .next ((s.putShards len sh).complete .ok)) (hnd : (sh.map Prod.fst).Nodup)
    (hsize : ∀ p ∈ sh, p.2.length = len) (hfit : len ≤ s.cfg.shardMaxLen) (hword : len < 2 ^ 32) :
    ∃ t, exec i s = .next t ∧
      t = { Claims.completed s 0 with mem := t.mem, slotLen := t.slotLen } ∧
      (∀ p ∈ sh, ∀ c < len, t.byte (s.shardBase p.1 + c) = p.2.getD c 0) ∧
      (∀ slot < 256, t.len slot = if slot ∈ sh.map Prod.fst then len else s.len slot) ∧
      (∀ a, (∀ p ∈ sh, Claims.outside a (s.shardBase p.1) len) → t.byte a = s.byte a) := by
  refine ⟨_, h, ?_, fun p hp c hc => ?_, fun slot hslot => ?_, fun a ha => ?_⟩
  · rw [s.putShards_frame]
    rfl
  · have hcp : c < p.2.length := (hsize p hp).symm ▸ hc
    rw [State.byte_complete, s.byte_putShards_inside len sh hnd (fun q hq => (hsize q hq).trans_le hfit) hp c hcp,
      List.getD_eq_getElem _ _ hcp]
  · rw [State.len_complete, s.len_putShards len sh slot hslot hword]
  · rw [State.byte_complete, s.byte_putShards_outside len sh a fun p hp => by rw [hsize p hp]; exact ha p hp]

/-- Settles O36: the shards written are the parity rows. -/
theorem encodeWritesTheParity : Obligations.EncodeWritesTheParity := by
  intro s len hconf hv hcount h1 h2 heq
  have hk := (hconf.valid hv).1
  have hne : List.range s.k ≠ [] := by simpa using Nat.one_le_iff_ne_zero.1 hk
  have hlen := State.lenOk_of_forall_eq hne h1 h2 fun x hx => heq x (List.mem_range.1 hx)
  obtain rfl : s.len 0 = len := heq 0 hk
  have hslots : (((List.range s.m).map fun r => (s.k + r, s.parityRow r (s.len 0) s.shard)).map Prod.fst).Nodup := by
    rw [List.map_map]
    exact List.nodup_range.map fun x y => Nat.add_left_cancel
  obtain ⟨t, ht, hframe, hbytes, hlens, hout⟩ :=
    exec_writes_shards (exec_encode_of_legal hv hcount hlen) hslots (by simp) h2 (s.len_lt 0)
  simp only [List.forall_mem_map, List.mem_range] at hbytes hout
  refine ⟨t, ht, hframe, fun r hr c hc => ?_, fun slot hslot => ?_, hout⟩
  · rw [hbytes r hr c hc, s.getD_parityRow _ _ hc]
    rfl
  · have hmem : slot ∈ ((List.range s.m).map fun r => (s.k + r, s.parityRow r (s.len 0) s.shard)).map Prod.fst ↔
        s.k ≤ slot ∧ slot < s.n := by
      simp only [List.map_map, List.mem_map, List.mem_range, Function.comp_apply, State.n]
      exact ⟨fun ⟨r, hr, hrs⟩ => by omega, fun ⟨hle, hlt⟩ => ⟨slot - s.k, by omega, by omega⟩⟩
    rw [hlens slot hslot]
    simp only [hmem]

/-- A slot is missing when it lies below `n` and is not present (R206). -/
theorem State.mem_missingSlots {x : Nat} : x ∈ s.missingSlots ↔ x < s.n ∧ s.isPresent x = false := by
  simp [State.missingSlots]

/-- Settles O37: the shards written are the encoding of the recovered data. -/
theorem reconstructWritesTheMissingShards : Obligations.ReconstructWritesTheMissingShards := by
  rintro s len _ sel Dm hconf hv hcount rfl hk hsel h1 h2 heq hDm
  have hne : s.presentSlots ≠ [] := List.ne_nil_of_length_pos (Nat.lt_of_lt_of_le (hconf.valid hv).1 hk)
  have hhead := heq _ (headD_mem hne 0)
  have hanswer := exec_reconstruct_of_inverse hv hcount hk (State.lenOk_of_forall_eq hne h1 h2 heq) hsel hhead hDm
  have hslots : ∀ row : Nat → List Byte, (s.missingSlots.map fun i => (i, row i)).map Prod.fst = s.missingSlots :=
    fun row => by rw [List.map_map]; exact List.map_id _
  obtain ⟨t, ht, hframe, hbytes, hlens, hout⟩ := exec_writes_shards hanswer
    (by rw [hslots]; exact List.nodup_range.filter _) (by simp) h2 (hhead ▸ s.len_lt _)
  simp only [hslots, List.forall_mem_map, State.mem_missingSlots, and_imp] at hbytes hlens hout
  refine ⟨t, (s.recovered Dm sel len).entry, ht, hframe, fun i hi c hc => s.entry_recovered Dm sel hi hc,
    fun i hi hmiss c hc => ?_, hlens, hout⟩
  rw [hbytes i hi hmiss c hc, s.getD_rebuiltRow _ _ hc]

/-! ## Errors (60_exceptions.md R244) -/

theorem exec_codecNew_of_counts (h : s.count0 < 1 ∨ s.count1 < 1 ∨ 256 < s.count0 + s.count1) :
    exec .codecNew s = .next (s.complete .invalidShardCount) := by
  rw [exec, execCodecNew, if_pos (by omega), finish_error]

theorem exec_encode_of_unconfigured (hv : s.status.cfgValid = false) :
    exec .encode s = .next (s.complete .notConfigured) := by
  rw [exec, execEncode, if_pos (Bool.not_eq_true _ ▸ hv), finish_error]

theorem exec_reconstruct_of_unconfigured (hv : s.status.cfgValid = false) :
    exec .reconstruct s = .next (s.complete .notConfigured) := by
  rw [exec, execReconstruct, if_pos (Bool.not_eq_true _ ▸ hv), finish_error]

section
variable (hv : s.status.cfgValid = true)
include hv

theorem exec_encode_of_count (hcount : s.count0 ≠ s.k) : exec .encode s = .next (s.complete .invalidShardCount) := by
  rw [exec, execEncode, if_neg (not_not.2 hv), if_pos hcount, finish_error]

theorem exec_reconstruct_of_count (hcount : s.count0 ≠ s.n) :
    exec .reconstruct s = .next (s.complete .invalidShardCount) := by
  rw [exec, execReconstruct, if_neg (not_not.2 hv), if_pos hcount, finish_error]

/-- Some data slot's length is 0, too great, or not that of slot 0. -/
theorem exec_encode_of_length (hcount : s.count0 = s.k)
    (hbad : ∃ j < s.k, s.len j = 0 ∨ s.cfg.shardMaxLen < s.len j ∨ s.len j ≠ s.len 0) :
    exec .encode s = .next (s.complete .invalidDataSize) := by
  have hfail : ¬ s.lenOk (List.range s.k) = true := by
    obtain ⟨j, hj, hbad⟩ := hbad
    rw [s.lenOk_range (by omega)]
    rintro ⟨h1, h2, heq⟩
    have hjeq := heq j hj
    omega
  rw [exec, execEncode, if_neg (not_not.2 hv), if_neg (not_not.2 hcount), if_pos hfail, finish_error]

theorem exec_reconstruct_of_insufficient (hcount : s.count0 = s.n) (hk : s.presentSlots.length < s.k) :
    exec .reconstruct s = .next (s.complete .insufficientShards) := by
  rw [exec, execReconstruct, if_neg (not_not.2 hv), if_neg (not_not.2 hcount), if_pos hk, finish_error]

/-- Some present slot's length is 0, too great, or not that of another. -/
theorem exec_reconstruct_of_length (hcount : s.count0 = s.n) (hk : s.k ≤ s.presentSlots.length)
    (hbad : ∃ x ∈ s.presentSlots, s.len x = 0 ∨ s.cfg.shardMaxLen < s.len x ∨
      ∃ y ∈ s.presentSlots, s.len x ≠ s.len y) :
    exec .reconstruct s = .next (s.complete .invalidDataSize) := by
  have hfail : ¬ s.lenOk s.presentSlots = true := by
    obtain ⟨x, hx, hbad⟩ := hbad
    rw [State.lenOk_iff_forall (List.ne_nil_of_mem hx)]
    intro hok
    obtain ⟨h1, h2, heq⟩ := hok x hx
    rcases hbad with hzero | hlong | ⟨y, hy, hne⟩
    · omega
    · omega
    · exact hne (heq y hy)
  rw [exec, execReconstruct, if_neg (not_not.2 hv), if_neg (not_not.2 hcount), if_neg (not_lt.2 hk), if_pos hfail,
    finish_error]

end

/-- Settles O38: each clause's condition is that of one check, and the checks before it pass. -/
theorem codecCommandErrors : Obligations.CodecCommandErrors := by
  rintro s _ rfl
  exact ⟨exec_codecNew_of_counts, fun hv => ⟨exec_encode_of_unconfigured hv, exec_reconstruct_of_unconfigured hv⟩,
    exec_encode_of_count, exec_reconstruct_of_count, exec_encode_of_length, exec_reconstruct_of_insufficient,
    exec_reconstruct_of_length⟩

end Sys2Proof.Machine
end

section
/-! Erasure tolerance (43_codec.md R206 to R208). Every shard of an encoding is its row of the generator times the data,
since the generator's top rows are the identity; the inverse of the selected rows therefore recovers the data from the
selected shards, and the shards rebuilt from it are those of the encoding. -/

namespace Sys2Proof.Machine

variable {s : State}

/-- The field sum depends on its terms. -/
theorem fieldSum_congr {n : Nat} {f g : Nat → Byte} (h : ∀ j < n, f j = g j) :
    Claims.fieldSum n f = Claims.fieldSum n g := by
  rw [fieldSum_eq_xorSum, fieldSum_eq_xorSum]
  exact congrArg xorSum (List.map_congr_left fun j hj => h j (List.mem_range.1 hj))

/-- The encoding of equal data is equal. -/
theorem encodedByte_congr {f g : Nat → Nat → Byte} {slot c : Nat} (h : ∀ i < s.k, f i c = g i c) :
    Claims.encodedByte s f slot c = Claims.encodedByte s g slot c := by
  rw [Claims.encodedByte, Claims.encodedByte]
  split
  · next hslot => exact h slot hslot
  · exact fieldSum_congr fun j hj => by rw [h j hj]

/-! ## The inverse recovers (R165, R207) -/

/-- What a matrix makes of a vector, the procedure's result takes back. -/
theorem State.gjInvert_recovers (h : s.Inv) (hr : s.status.ready = true) {n : Nat} {M R : Mat}
    (hg : s.gjInvert n M = some R) {x y : Nat → Byte}
    (hy : ∀ j < n, y j = Claims.fieldSum n fun l => s.mul (M.entry j l) (x l)) {i : Nat} (hi : i < n) :
    (Claims.fieldSum n fun j => s.mul (R.entry i j) (y j)) = x i := by
  have hinv := mul_eq_one_comm.1 (State.residues_gjInvert h hr hg)
  have himage : (fun j : Fin n => residue s.cfg.fieldPoly (y j)) =
      (M.residues s.cfg.fieldPoly n fun j : Fin n => (j : Nat)).mulVec fun l => residue s.cfg.fieldPoly (x l) := by
    ext j
    simp only [hy j j.isLt, residue_fieldSum, State.residue_mul h hr, Finset.sum_range]
    rfl
  have hback : (R.residues s.cfg.fieldPoly n fun i : Fin n => (i : Nat)).mulVec
      (fun j : Fin n => residue s.cfg.fieldPoly (y j)) = fun l : Fin n => residue s.cfg.fieldPoly (x l) := by
    rw [himage, Matrix.mulVec_mulVec, hinv, Matrix.one_mulVec]
  refine eq_of_residue_eq h.legal ?_
  rw [← congrFun hback ⟨i, hi⟩]
  simp only [residue_fieldSum, State.residue_mul h hr, Finset.sum_range]
  rfl

/-! ## The rows selected -/

theorem State.entry_readGen (s : State) {r c : Nat} (hr : r < s.n) (hc : c < s.k) :
    s.readGen.entry r c = s.gen r c := Mat.entry_tabulate _ _ _ hr hc

section
variable (hg : s.GenOk) (hv : s.status.cfgValid = true)
include hg hv

/-- Rows of `GEN` are rows of the generator matrix. -/
theorem State.submatrix_readGen {sel : List Nat} (hsel : ∀ r ∈ sel, r < s.n) :
    s.readGen.submatrix s.k sel = (s.buildGenerator s.k s.m).submatrix s.k sel := by
  refine List.map_congr_left fun r hrs => List.map_congr_left fun c hc => ?_
  have hc := List.mem_range.1 hc
  rw [s.entry_readGen (hsel r hrs) hc, hg hv r (hsel r hrs) c hc]

/-- Any `k` distinct rows of `GEN` have an inverse (42_matrix.md R170). -/
theorem State.exists_gjInvert_rows (h : s.Inv) (hr : s.status.ready = true) {sel : List Nat} (hlen : sel.length = s.k)
    (hnd : sel.Nodup) (hsel : ∀ r ∈ sel, r < s.n) : ∃ Dm, s.gjInvert s.k (s.readGen.submatrix s.k sel) = some Dm := by
  obtain ⟨hk, hm, hn⟩ := h.config.valid hv
  rw [State.submatrix_readGen hg hv hsel]
  exact Option.isSome_iff_exists.1 (anyGeneratorRowsAreInvertible s s.k s.m sel h hr hk hm hn hlen hnd hsel)

/-- Every shard of an encoding, a data shard too, is its row of `GEN` times the data (42_matrix.md R170). -/
theorem State.encodedByte_eq_fieldSum (h : s.Inv) (hr : s.status.ready = true) (data : Nat → Nat → Byte)
    (slot c : Nat) :
    Claims.encodedByte s data slot c = Claims.fieldSum s.k fun j => s.mul (s.gen slot j) (data j c) := by
  obtain ⟨hk, hm, hn⟩ := h.config.valid hv
  rw [Claims.encodedByte]
  split
  · next hslot =>
    have hunit : ∀ j ∈ Finset.range s.k, residue s.cfg.fieldPoly (s.gen slot j) * residue s.cfg.fieldPoly (data j c) =
        if slot = j then residue s.cfg.fieldPoly (data j c) else 0 := by
      intro j hj
      have hj := Finset.mem_range.1 hj
      rw [hg hv slot (by rw [State.n]; omega) j hj, generatorTopIsIdentity s s.k s.m h hr hk hm hn slot hslot j hj]
      split
      · rw [residue_one, one_mul]
      · rw [residue_zero, zero_mul]
    refine eq_of_residue_eq h.legal ?_
    simp only [residue_fieldSum, State.residue_mul h hr]
    rw [Finset.sum_congr rfl hunit, Finset.sum_ite_eq, if_pos (Finset.mem_range.2 hslot)]
  · rfl

/-- The inverse of the selected rows recovers the data from the selected shards of its encoding (R207). -/
theorem State.gjInvert_recovers_data (h : s.Inv) (hr : s.status.ready = true) {sel : List Nat} {Dm : Mat}
    (hlen : sel.length = s.k) (hsel : ∀ x ∈ sel, x < s.n)
    (hDm : s.gjInvert s.k (s.readGen.submatrix s.k sel) = some Dm) {data : Nat → Nat → Byte} {c : Nat}
    (hshard : ∀ x ∈ sel, s.shard x c = Claims.encodedByte s data x c) {i : Nat} (hi : i < s.k) :
    (Claims.fieldSum s.k fun j => s.mul (Dm.entry i j) (s.shard (sel.getD j 0) c)) = data i c := by
  refine State.gjInvert_recovers h hr hDm (x := fun l => data l c) (fun j hj => ?_) hi
  have hjlen : j < sel.length := hlen.symm ▸ hj
  have hmem : sel[j] ∈ sel := List.getElem_mem hjlen
  rw [List.getD_eq_getElem _ _ hjlen, hshard _ hmem, State.encodedByte_eq_fieldSum hg hv h hr]
  refine fieldSum_congr fun l hl => ?_
  rw [Mat.entry_submatrix _ _ _ hjlen hl, s.entry_readGen (hsel _ hmem) hl]

end

/-! ## The statement -/

/-- A byte of one slot lies outside every other slot's shard (10_state.md R48). -/
theorem State.outside_shard {x y len c : Nat} (hxy : x ≠ y) (hlen : len ≤ s.cfg.shardMaxLen) (hc : c < len) :
    Claims.outside (s.shardBase x + c) (s.shardBase y) len := by
  by_contra hin
  rw [Claims.outside, not_or, not_lt, not_le] at hin
  obtain ⟨hge, hlt⟩ := hin
  exact s.shardBase_disjoint hxy (hc.trans_le hlen) (j := s.shardBase x + c - s.shardBase y) (by omega) (by omega)

/-- Settles O39: the selection has an inverse, which recovers the data, and what is rebuilt from the data is its
encoding; the present slots keep theirs. -/
theorem reconstructRestoresEveryShard : Obligations.ReconstructRestoresEveryShard := by
  intro s len data h hg hv hr hcount hk h1 h2 hpresent
  obtain ⟨sel, hseldef⟩ : ∃ sel, sel = s.presentSlots.take s.k := ⟨_, rfl⟩
  have hslot : ∀ x ∈ s.presentSlots, x < s.n ∧ s.isPresent x = true := by simp [State.presentSlots]
  have hsel : ∀ x ∈ sel, x < s.n ∧ s.isPresent x = true :=
    fun x hx => hslot x (List.mem_of_mem_take (hseldef ▸ hx))
  have hlen : sel.length = s.k := hseldef ▸ List.length_take_of_le hk
  have hnd : sel.Nodup := hseldef ▸ (List.nodup_range.filter _).sublist (List.take_sublist ..)
  obtain ⟨Dm, hDm⟩ := State.exists_gjInvert_rows hg hv h hr hlen hnd fun x hx => (hsel x hx).1
  obtain ⟨t, found, ht, hframe, hfound, hrebuilt, hlens, hout⟩ := reconstructWritesTheMissingShards s len _ sel Dm
    h.config hv hcount rfl hk hseldef h1 h2 (fun x hx => (hpresent x (hslot x hx).1 (hslot x hx).2).1) hDm
  have hdata : ∀ i < s.k, ∀ c < len, found i c = data i c := fun i hi c hc =>
    (hfound i hi c hc).trans <| State.gjInvert_recovers_data hg hv h hr hlen (fun x hx => (hsel x hx).1) hDm
      (fun x hx => (hpresent x (hsel x hx).1 (hsel x hx).2).2 c hc) hi
  have hbase : ∀ x, t.shardBase x = s.shardBase x := fun x => by rw [hframe]; rfl
  refine ⟨t, ht, by rw [hframe]; rfl, fun slot hn => ?_⟩
  rw [hlens slot (hn.trans_le (h.config.valid hv).2.2)]
  cases hp : s.isPresent slot with
  | false =>
    refine ⟨if_pos ⟨hn, rfl⟩, fun c hc => ?_⟩
    rw [State.shard, hbase, hrebuilt slot hn hp c hc]
    exact encodedByte_congr fun i hi => hdata i hi c hc
  | true =>
    obtain ⟨hslen, hbytes⟩ := hpresent slot hn hp
    refine ⟨by simp [hslen], fun c hc => ?_⟩
    have hkept : ∀ i < s.n, s.isPresent i = false →
        Claims.outside (s.shardBase slot + c) (s.shardBase i) len := fun i _ hmiss =>
      State.outside_shard (fun hi => Bool.noConfusion (hp.symm.trans (hi ▸ hmiss))) h2 hc
    rw [State.shard, hbase, hout _ hkept]
    exact hbytes c hc

end Sys2Proof.Machine
end

section
/-! Errors and the record of host-program faults (60_exceptions.md): what a command that fails writes and with which code
(R242, R243), how long a fatal error lasts (R245), when the interrupt rises (R246), and which accesses are marked
(R257). -/

namespace Sys2Proof.Machine

variable {s t u : State} {i : Instr} {a : Access} {addr v : Word} {size : Size} {off : Nat}

/-! ## All or nothing (R243) -/

/-- A completion with an error is the one spelled out from 40_control.md R113; a success has code 0. -/
theorem exec_eq_completed (h : exec i s = .next t) (hne : t.errcode ≠ 0) : t = Claims.completed s t.errcode := by
  rcases exec_cases h with ⟨e, -, rfl⟩ | ⟨u, -, rfl⟩
  · rfl
  · exact absurd rfl hne

/-- Settles O11: the Core's turn runs a command, or completes an illegal word with its error. -/
theorem failingCommandWritesOnlyStatus : Obligations.FailingCommandWritesOnlyStatus := by
  intro s t hne
  refine ⟨fun i h => exec_eq_completed h hne, fun hb h => ?_⟩
  rcases coreStep_cases h with ⟨hidle, -⟩ | ⟨-, i, -, hx⟩ | ⟨-, -, rfl⟩
  · exact Bool.noConfusion (hidle.symm.trans hb)
  · exact exec_eq_completed hx hne
  · rfl

/-! ## The codes of each command (R242) -/

/-- The answers of a field command whose function fails with `DIVIDE_BY_ZERO` only (41_field.md R136, R137). -/
theorem finish_map_setResult_cases {r : Except ErrorCode Byte} (hr : ∀ e, r = .error e → e = .divideByZero)
    (h : finish s (r.map s.setResult) = .next t) :
    t = s.complete .divideByZero ∨ ∃ b, t = (s.setResult b).complete .ok := by
  cases r with
  | error e =>
    obtain rfl := hr e rfl
    exact .inl (Host.Outcome.next.inj h).symm
  | ok b => exact .inr ⟨b, (Host.Outcome.next.inj h).symm⟩

/-- The answers of `GF_DIV`. -/
theorem execGfDiv_cases (h : exec .gfDiv s = .next t) :
    t = s.complete .divideByZero ∨ ∃ b, t = (s.setResult b).complete .ok :=
  finish_map_setResult_cases (fun e he => ((s.div_eq_error_iff _ _ e).1 he).2) h

/-- The answers of `GF_INV`. -/
theorem execGfInv_cases (h : exec .gfInv s = .next t) :
    t = s.complete .divideByZero ∨ ∃ b, t = (s.setResult b).complete .ok :=
  finish_map_setResult_cases (fun e he => ((s.inverse_eq_error_iff _ e).1 he).2) h

/-- Every answer of a command has a code of its row of R242. -/
theorem exec_errcode_mem (h : exec i s = .next t) : t.errcode ∈ Claims.possibleCodes i := by
  cases i with
  | nop => obtain rfl := Host.Outcome.next.inj h; simp [Claims.possibleCodes]
  | gfAdd => obtain rfl := Host.Outcome.next.inj h; simp [Claims.possibleCodes]
  | gfMul => obtain rfl := Host.Outcome.next.inj h; simp [Claims.possibleCodes]
  | gfDiv => rcases execGfDiv_cases h with rfl | ⟨r, rfl⟩ <;> simp [Claims.possibleCodes]
  | gfInv => rcases execGfInv_cases h with rfl | ⟨r, rfl⟩ <;> simp [Claims.possibleCodes]
  | matGen d => rcases execMatGen_cases s h with ⟨-, rfl⟩ | ⟨-, rfl⟩ <;> simp [Claims.possibleCodes]
  | matSub d a => rcases execMatSub_cases s h with rfl | rfl | ⟨-, -, -, -, rfl⟩ <;> simp [Claims.possibleCodes]
  | matInv d a => rcases execMatInv_cases s h with rfl | rfl | ⟨R, -, -, -, rfl⟩ <;> simp [Claims.possibleCodes]
  | matMul d a b => rcases execMatMul_cases s h with rfl | ⟨-, -, -, rfl⟩ <;> simp [Claims.possibleCodes]
  | codecNew => rcases execCodecNew_cases s h with rfl | ⟨-, -, -, rfl⟩ <;> simp [Claims.possibleCodes]
  | encode => rcases execEncode_cases s h with rfl | rfl | rfl | ⟨-, -, -, rfl⟩ <;> simp [Claims.possibleCodes]
  | reconstruct =>
    rcases execReconstruct_cases s h with rfl | rfl | rfl | rfl | rfl | ⟨len, Dm, -, -, -, -, -, -, rfl⟩ <;>
      simp [Claims.possibleCodes]

/-- Settles O12: every command answers, with a code of its row. -/
theorem completionCodesPerCommand : Obligations.CompletionCodesPerCommand := by
  intro s
  refine ⟨fun i => ?_, s.complete .illegalCommand, rfl, rfl⟩
  obtain ⟨t, ht⟩ := exec_isNext s i
  exact ⟨t, ht, exec_errcode_mem ht⟩

/-! ## A fatal error (R245) -/

/-- A fatal block holds code `0x07`, and so has no command in flight: acceptance clears `ERRCODE`. -/
theorem State.StatusOk.of_fatal (h : s.StatusOk) (hf : s.status.fatal = true) :
    s.status.busy = false ∧ s.curCmd = 0 ∧ s.errcode = 0x07 := by
  have hcode : s.errcode = 0x07 := by simpa [hf] using h.fatal
  have hb : s.status.busy = false := by
    refine Bool.eq_false_iff.2 fun hb => ?_
    obtain ⟨-, -, hzero⟩ := h.busy hb
    simp [hzero] at hcode
  exact ⟨hb, h.idle hb, hcode⟩

/-- Settles O15: `FATAL` is cleared by reset only, and the invariant, which the step keeps, says the rest. -/
theorem fatalBlockAcceptsNothingUntilReset : Obligations.FatalBlockAcceptsNothingUntilReset := by
  intro s t h hf hstep hreset
  obtain ⟨-, -, hkeep, -⟩ := stickyFlags s t hstep hreset
  exact ⟨hkeep hf, (stepKeepsInv s t h hstep).status.of_fatal (hkeep hf)⟩

/-! ## The interrupt (R246) -/

theorem State.irq_eq_true_iff (s : State) : s.irq = true ↔ s.status.done = true ∧ s.irqEn = true := by
  simp [State.irq]

/-- LutInit writes the tables and `READY` only (41_field.md R134). -/
theorem lutInitStep_frame (s : State) :
    lutInitStep s = { s with mem := (lutInitStep s).mem, status := s.status.onReady } := by
  cases hr : s.status.ready with
  | true =>
    have hready : s.status.onReady = s.status := by rw [Status.onReady, ← hr]
    rw [lutInitStep_of_ready hr, hready]
  | false => rw [lutInitStep_of_unready hr]; rfl

/-- No write but one to `CTRL` raises the interrupt: each other keeps `IRQ_EN`, and `DONE` or clears it. -/
theorem State.irq_of_writeEffect (hoff : off ≠ 0x008) (h : (s.writeEffect off size v).irq = true) : s.irq = true := by
  rcases s.writeEffect_cases off size v with ⟨hctrl, -⟩ | ⟨-, -, hw⟩ | ⟨-, -, hw⟩ | ⟨-, -, -, hw⟩ |
    ⟨-, -, -, -, hw⟩ | ⟨-, -, hw⟩ | ⟨-, -, -, hw⟩
  · exact absurd hctrl hoff
  all_goals rw [hw] at h
  · exact h
  · exact Bool.noConfusion h
  · exact h
  · rw [s.writeReg_frame] at h; exact h
  · exact h
  · exact h

/-- A `CTRL` write raises the interrupt by setting `IRQ_EN` while `DONE` stands. -/
theorem State.writeCtrl_raises (hs : s.irq = false) (h : (s.writeCtrl v).irq = true) :
    s.status.done = true ∧ s.irqEn = false ∧ v.getLsbD 0 = true ∧ v.getLsbD 1 = false := by
  have hboth : (s.status.done = true ∧ v.getLsbD 1 = false) ∧ v.getLsbD 0 = true := by
    simpa [State.irq] using h
  obtain ⟨⟨hdone, hack⟩, hen⟩ := hboth
  exact ⟨hdone, by simpa [State.irq, hdone] using hs, hen, hack⟩

/-- The host raises the interrupt by a `CTRL` write only. -/
theorem hostStep_raises (h : hostStep a s = .next t) (hs : s.irq = false) (ht : t.irq = true) :
    ∃ addr v, a = .write addr .word4 v ∧ Claims.atOffset s addr 0x008 ∧
      s.status.done = true ∧ s.irqEn = false ∧ v.getLsbD 0 = true ∧ v.getLsbD 1 = false := by
  rcases hostStep_cases h with ⟨addr, size, -, -, rfl⟩ | ⟨addr, size, v, rfl, hw, rfl⟩
  · rw [s.hostRead_frame] at ht
    exact Bool.noConfusion (hs.symm.trans ht)
  · cases he : busError s.cfg (offsetOf s.cfg addr) size with
    | true =>
      rw [s.hostWrite_of_error v he] at ht
      exact Bool.noConfusion (hs.symm.trans ht)
    | false =>
      rw [s.hostWrite_of_ok v he] at ht
      by_cases hoff : offsetOf s.cfg addr = 0x008
      · obtain ⟨-, hword, -⟩ := (busError_eq_false_iff _ _ _).1 he
        obtain rfl := (Size.bytes_eq_four_iff size).1 (hword (by omega))
        have hat := offset_of_inWindow hw
        rw [hoff] at ht hat
        exact ⟨addr, v, rfl, hat, State.writeCtrl_raises hs ht⟩
      · exact Bool.noConfusion (hs.symm.trans (State.irq_of_writeEffect hoff ht))

/-- The Core raises the interrupt by a completion with `IRQ_EN = 1`. -/
theorem coreStep_raises (h : coreStep s = .next t) (hs : s.irq = false) (ht : t.irq = true) :
    s.status.busy = true ∧ t.status.busy = false ∧ s.irqEn = true := by
  cases hb : s.status.busy with
  | false =>
    obtain rfl : s = t := by simpa [coreStep, hb] using h
    exact Bool.noConfusion (hs.symm.trans ht)
  | true =>
    obtain ⟨u, e, rfl, hu⟩ := coreStep_complete_of_busy hb h
    exact ⟨rfl, rfl, hu.irqEn ▸ ((State.irq_eq_true_iff _).1 ht).2⟩

/-- Settles O16, by the move that is due: LutInit leaves the interrupt as it is, and reset clears it. -/
theorem interruptRisesOnlyAtCompletionOrEnable : Obligations.InterruptRisesOnlyAtCompletionOrEnable := by
  intro s t h hs ht
  rcases step_cases h with ⟨-, ⟨-, rfl⟩ | ⟨move, hd, hmove⟩⟩
  · exact Bool.noConfusion (hs.symm.trans ht)
  · cases move with
    | host a =>
      obtain ⟨addr, v, rfl, hcause⟩ := hostStep_raises hmove hs ht
      exact .inr ⟨addr, v, hd, hcause⟩
    | core => exact .inl ⟨hd, coreStep_raises (s := { s with moves := s.moves.tail }) hmove hs ht⟩
    | lutInit =>
      obtain rfl := Host.Outcome.next.inj hmove
      rw [lutInitStep_frame] at ht
      exact Bool.noConfusion (hs.symm.trans ht)
    | reset =>
      obtain rfl := Host.Outcome.next.inj hmove
      exact Bool.noConfusion ht

/-! ## What the host reads without a value (40_control.md R116, R122; 20_memory.md R80) -/

/-- The registers readable while busy, by their offsets (40_control.md R116). -/
theorem readableBusy_regAt_iff (hoff : off < 0x1000) (h4 : off % 4 = 0) :
    (regAt off).readableBusy = true ↔
      off ∈ [0x000, 0x004, 0x008, 0x00C, 0x010, 0x028] ∨ Claims.reservedOffset off := by
  simp only [regAt, apply_ite Reg.readableBusy]
  simp [Reg.readableBusy, Claims.reservedOffset]
  omega

/-- The bytes that hold no value are those not specified (20_memory.md R80, 10_state.md R46). -/
theorem holdsNoValue_iff (s : State) (x : Nat) : Claims.holdsNoValue s x ↔ s.specified x = false := by
  simp only [Claims.holdsNoValue, State.specified, State.genUnspecified, genBase, genEnd]
  cases Memory.read s.mem x <;> simp [and_assoc]

/-- Which reads of a byte window draw a new value (40_control.md R116, R122). -/
theorem State.readDraws_window_iff (s : State) (hoff : 0x1000 ≤ off) (hmapped : regionOf s.cfg off ≠ .unmapped) :
    s.readDraws off = true ↔
      s.status.busy = true ∨ (s.status.ready = false ∧ 0x1100 ≤ off ∧ off < 0x1300) := by
  have hreg := regionOf_ne_registers s.cfg hoff
  by_cases hlut : 0x1100 ≤ off ∧ off < 0x1300
  · rcases regionOf_lut (cfg := s.cfg) hlut.1 hlut.2 with hr | hr <;> simp [State.readDraws, hr, hlut]
  · have hnot := mt (range_of_regionOf_lut (cfg := s.cfg)) hlut
    unfold State.readDraws
    split <;> simp_all

/-- A read of a byte window is marked for a byte that holds no value. -/
theorem State.readMarked_window_iff (s : State) (size : Size) (hoff : 0x1000 ≤ off) :
    s.readMarked off size = true ↔ ∃ i < size.bytes, Claims.holdsNoValue s (off + i) := by
  simp [State.readMarked, regionOf_ne_registers s.cfg hoff, offsets, holdsNoValue_iff]

/-- A legal read returns an unspecified value exactly when it draws one or a byte of it holds none. -/
theorem unspecifiedData_iff (he : busError s.cfg off size = false) :
    Claims.unspecifiedData s off size.bytes ↔ s.readDraws off = true ∨ s.readMarked off size = true := by
  obtain ⟨halign, hword, hmapped⟩ := (busError_eq_false_iff _ _ _).1 he
  by_cases hoff : off < 0x1000
  · have hregion := (regionOf_registers_iff s.cfg off).2 hoff
    have h4 : off % 4 = 0 := by rw [hword hoff] at halign; exact halign
    have hlut : ¬ 0x1100 ≤ off := by omega
    have hbytes : ¬ 0x1000 ≤ off := by omega
    have hread := (readableBusy_regAt_iff hoff h4).not
    rw [not_or, Bool.not_eq_true] at hread
    simp [Claims.unspecifiedData, State.readDraws, State.readMarked, hregion, hlut, hbytes, hread]
  · have hwindow : 0x1000 ≤ off := by omega
    have hreserved : ¬ Claims.reservedOffset off := by rw [Claims.reservedOffset]; omega
    have hlist : off ∉ [0x000, 0x004, 0x008, 0x00C, 0x010, 0x028] := by
      simp only [List.mem_cons, List.not_mem_nil, or_false]
      omega
    rw [s.readDraws_window_iff hwindow hmapped, s.readMarked_window_iff size hwindow, or_assoc]
    simp [Claims.unspecifiedData, hlist, hreserved, hwindow]

/-! ## The record of host-program faults (R257) -/

/-- A legal read is marked exactly when it returns an unspecified value. -/
theorem State.hostRead_marks (s : State) (he : busError s.cfg off size = false) :
    (Claims.unspecifiedData s off size.bytes → (s.hostRead off size).marks = .unspecifiedRead :: s.marks) ∧
    (¬ Claims.unspecifiedData s off size.bytes → (s.hostRead off size).marks = s.marks) := by
  rw [unspecifiedData_iff he]
  cases hd : s.readDraws off <;> cases hm : s.readMarked off size <;> simp [State.hostRead, he, hd, hm]

/-- A legal write is marked exactly when it is dropped: while busy unless it goes to `CTRL` (40_control.md R115), and a
`CMD` write that is not accepted (R110). -/
theorem State.writeEffect_marks (s : State) (off : Nat) (size : Size) (v : Word) :
    (s.writeEffect off size v).marks =
      if (s.status.busy = true ∧ off ≠ 0x008) ∨
          (off = 0x00C ∧ ¬ (s.status.busy = false ∧ s.status.ready = true ∧ s.status.fatal = false)) then
        .droppedWrite :: s.marks
      else s.marks := by
  simp only [← Status.accepts_iff]
  rcases s.writeEffect_cases off size v with ⟨hoff, hw⟩ | ⟨hoff, hb, hw⟩ | ⟨hoff, hacc, hw⟩ | ⟨hoff, -, hacc, hw⟩ |
    ⟨-, -, hoff, hb, hw⟩ | ⟨hreg, hb, hw⟩ | ⟨hoff, -, hb, hw⟩ <;> rw [hw]
  · simp [hoff]
  · simp [hoff, hb]
  · simp [hoff, hacc, ((Status.accepts_iff _).1 hacc).1]
  · simp [hoff, hacc]
  · rw [s.writeReg_frame]; simp [hoff, hb]
  · have hcmd : off ≠ 0x00C := by have := (isWritable_iff _ _).1 hreg; omega
    simp [hcmd, hb]
  · have hcmd : off ≠ 0x00C := by omega
    simp [hcmd, hb]

/-- No command marks anything. -/
theorem State.Success.marks_eq (h : s.Success i u) : u.marks = s.marks := by
  cases h with
  | nop => rfl
  | field r hi => rfl
  | matrix d rows cols R hr hc hi => rfl
  | configure k m hk hm hn => rfl
  | shards len sh hv hl hsh hnd hi => rw [s.putShards_frame]

theorem coreStep_marks (h : coreStep s = .next t) : t.marks = s.marks := by
  rcases coreStep_completes h with ⟨-, rfl⟩ | ⟨-, e, -, rfl⟩ | ⟨-, i, u, -, hu, rfl⟩
  · rfl
  · rfl
  · exact hu.marks_eq

/-- A host access is due only when it is the next of the schedule. -/
theorem State.moves_of_due_host (h : s.due = some (.host a)) : ∃ rest, s.moves = .host a :: rest := by
  cases hm : s.moves with
  | nil =>
    simp only [State.due, hm] at h
    split at h
    · cases h
    · split at h <;> cases h
  | cons move rest => exact ⟨rest, by simpa [State.due, hm] using h⟩

/-- Settles O48: a due read and a due write by their own marks, the other moves by theirs. -/
theorem hostFaultsAreMarked : Obligations.HostFaultsAreMarked := by
  intro s t h
  obtain ⟨hl, hcases⟩ := step_cases h
  refine ⟨fun addr size off hat hd => ?_, fun addr v size off hat hd => ?_, fun hnone => ?_⟩
  · obtain ⟨rest, hm⟩ := State.moves_of_due_host hd
    obtain rfl := Host.Outcome.next.inj ((step_read hl hat hm).symm.trans h)
    refine ⟨fun hill => ?_, fun hlegal => ?_, fun hlegal => ?_⟩
    · rw [State.hostRead_of_error { s with moves := rest } ((illegalAccess_iff _ _ _).1 hill)]
      rfl
    · exact (State.hostRead_marks { s with moves := rest } (busError_of_legal hlegal)).1
    · exact (State.hostRead_marks { s with moves := rest } (busError_of_legal hlegal)).2
  · obtain ⟨rest, hm⟩ := State.moves_of_due_host hd
    obtain rfl := Host.Outcome.next.inj ((step_write hl hat hm).symm.trans h)
    refine ⟨fun hill => ?_, fun hlegal => ?_⟩
    · rw [State.hostWrite_of_error { s with moves := rest } v ((illegalAccess_iff _ _ _).1 hill)]
      rfl
    · rw [State.hostWrite_of_ok { s with moves := rest } v (busError_of_legal hlegal)]
      exact State.writeEffect_marks { s with moves := rest } off size v
  · rcases hcases with ⟨-, rfl⟩ | ⟨move, hd, hmove⟩
    · rfl
    · cases move with
      | host a => exact absurd hd (hnone a)
      | core => exact coreStep_marks (s := { s with moves := s.moves.tail }) hmove
      | lutInit =>
        obtain rfl := Host.Outcome.next.inj hmove
        rw [lutInitStep_frame]
      | reset =>
        obtain rfl := Host.Outcome.next.inj hmove
        rfl

end Sys2Proof.Machine
end

section
/-! Reset and the handshake of `CMD` (70_reset_and_hazards.md): what the reset step leaves (R271), the LutInit step that
follows it (R272), and the run of a `CMD` write and the Core's turn (R276). -/

namespace Sys2Proof.Machine

variable {s t : State} {rest : List Move}

/-- A run of two steps reaches a state exactly through a state between. -/
theorem run_two_eq_next_iff :
    Host.Core.run Sys2Proof.core 2 s = .next t ↔ ∃ u, step s = .next u ∧ step u = .next t := by
  have hcore : ∀ x : State, Sys2Proof.core.step x = step x := fun _ => rfl
  cases hs : step s with
  | next u =>
    have hrun : Host.Core.run Sys2Proof.core 2 s = step u := by
      simp only [Host.Core.run, hcore, hs]
      cases step u <;> rfl
    rw [hrun]
    exact ⟨fun h => ⟨u, rfl, h⟩, fun ⟨v, hv, h⟩ => Host.Outcome.next.inj hv ▸ h⟩
  | fault r => simp [Host.Core.run, hcore, hs]
  | refused r => simp [Host.Core.run, hcore, hs]

/-! ## Reset (R271) and the LutInit step after it (R272) -/

theorem step_reset (hl : configLegal s.cfg = true) (hm : s.moves = .reset :: rest) :
    step s = .next (State.doReset { s with moves := rest }) := by
  rw [step_of_due hl (State.due_of_moves hm), hm]
  rfl

/-- Reset leaves the memories unspecified: none of their bytes is listed any more. -/
theorem State.specified_doReset (s : State) (a : Nat) : s.doReset.specified a = false := by
  simp [State.specified]

theorem State.statusWord_doReset (s : State) : s.doReset.status.word = 0 := by
  rw [State.doReset_status]
  decide

/-- Settles O49, register by register. -/
theorem resetEstablishesTheResetState : Obligations.ResetEstablishesTheResetState := by
  intro s rest hl hm
  exact ⟨_, step_reset hl hm, rfl, rfl, State.statusWord_doReset _, rfl, rfl, rfl, rfl, rfl, rfl, rfl, rfl, rfl,
    fun w => Vector.getElem_replicate w.isLt,
    fun i => ⟨Vector.getElem_replicate i.isLt, Vector.getElem_replicate i.isLt⟩,
    fun j => Vector.getElem_replicate j.isLt, State.specified_doReset _⟩

/-- The invariant holds after a reset in any state with legal parameters. -/
theorem State.inv_doReset (hl : configLegal s.cfg = true) : s.doReset.Inv :=
  (resetWith_inv hl).congr rfl rfl rfl rfl rfl rfl rfl

/-- An idle block that is not ready leaves the turn to LutInit on an empty schedule (notes/assumptions/4.md). -/
theorem State.due_of_unready (hb : s.status.busy = false) (hr : s.status.ready = false) (hm : s.moves = []) :
    s.due = some .lutInit := by
  simp [State.due, hm, hb, hr]

theorem step_lutInit_of_empty (hl : configLegal s.cfg = true) (hb : s.status.busy = false)
    (hr : s.status.ready = false) (hm : s.moves = []) : step s = .next (lutInitStep s) := by
  rw [step_of_due hl (State.due_of_unready hb hr hm), hm, List.tail_nil, ← hm]
  rfl

/-- `READY` is the only flag that LutInit's step after reset sets (10_state.md R27). -/
theorem State.statusWord_fillTables_doReset (s : State) : s.doReset.fillTables.status.word = 0x02 := by
  rw [State.fillTables_status, State.doReset_status]
  decide

/-- Settles O50: the reset state with an empty schedule is not ready, so LutInit takes the second step. -/
theorem readyFollowsReset : Obligations.ReadyFollowsReset := by
  intro s hl hm
  have hlut := step_lutInit_of_empty (s := State.doReset { s with moves := [] }) hl rfl rfl rfl
  have hinv : State.Inv (State.doReset { s with moves := [] }) := State.inv_doReset hl
  refine ⟨_, run_two_eq_next_iff.2 ⟨_, step_reset hl hm, hlut⟩, ?_, hinv.lutInitStep⟩
  rw [lutInitStep_of_unready rfl, State.statusWord_fillTables_doReset]

/-! ## The handshake (R276) -/

/-- A due Core's turn of an idle block changes nothing but the schedule (40_control.md R112). -/
theorem step_core_idle_status (h : step s = .next t) (hm : s.moves = .core :: rest) (hb : s.status.busy = false) :
    t.status = s.status := by
  rw [step_core_of_moves (step_cases h).1 hm] at h
  rcases coreStep_completes h with ⟨-, rfl⟩ | ⟨hbusy, -⟩ | ⟨hbusy, -⟩
  · rfl
  all_goals exact Bool.noConfusion (hb.symm.trans hbusy)

/-- A due Core's turn of a busy block sets `DONE` and leaves `WDROP` (40_control.md R113). -/
theorem step_core_busy_flags (h : step s = .next t) (hm : s.moves = .core :: rest) (hb : s.status.busy = true) :
    t.status.done = true ∧ t.status.wdrop = s.status.wdrop := by
  rw [step_core_of_moves (step_cases h).1 hm] at h
  obtain ⟨u, e, rfl, hu⟩ := coreStep_complete_of_busy (s := { s with moves := rest }) hb h
  exact ⟨rfl, hu.wdrop⟩

/-- Settles O13: acceptance clears `WDROP` and makes the block busy, and the Core's turn then sets `DONE`; a dropped
write sets `WDROP` and leaves the Core nothing to do. -/
theorem handshakeTellsAcceptance : Obligations.HandshakeTellsAcceptance := by
  intro s t addr w hb ha hm hrun
  obtain ⟨u, hwrite, hcore⟩ := run_two_eq_next_iff.1 hrun
  have haccepts_iff : s.status.accepts = true ↔ s.status.ready = true ∧ s.status.fatal = false := by
    simp [Status.accepts_iff, hb]
  rw [step_write_ok (step_cases hwrite).1 ha hm (busError_register _ (by decide) (by decide))] at hwrite
  rw [← haccepts_iff]
  cases haccepts : s.status.accepts with
  | true =>
    rw [State.writeEffect_cmd_accepted { s with moves := [.core] } _ _ haccepts] at hwrite
    obtain rfl := Host.Outcome.next.inj hwrite
    exact iff_of_true (step_core_busy_flags hcore rfl rfl) rfl
  | false =>
    rw [State.writeEffect_cmd_dropped { s with moves := [.core] } _ _ haccepts] at hwrite
    obtain rfl := Host.Outcome.next.inj hwrite
    have hstatus := step_core_idle_status hcore rfl hb
    exact iff_of_false (fun h => by simp [hstatus] at h) Bool.false_ne_true

end Sys2Proof.Machine
end
